-- ==== Sys2Proof/Word.lean ====
section
/-! DEFINITION. The words of the VescUart protocol block: bytes, byte strings and the 16- and 32-bit words
that pass through the CRC generator and the field codec (spec 00_scope.md rules R12 and R13).
What is done with them (byte order, signed readings, the CRC) stands under Machine/. -/

namespace Sys2Proof

/-- A byte, bit 7 most significant (R12). -/
abbrev Byte := BitVec 8

/-- A u16, bit 15 most significant (R12): CRC_ACC and every 16-bit field. -/
abbrev Half := BitVec 16

/-- A 32-bit field (R87). -/
abbrev Word := BitVec 32

/-- A byte string: a finite sequence of bytes, first byte at index 0 (R12). -/
abbrev Bytes := List Byte

end Sys2Proof
end

