-- ==== Sys2Proof/Config.lean ====
section
/-! DEFINITION. The configuration of a block instance and the free values.
`Config` holds the OPEN parameters of spec 00_scope.md rule R10 that are plain data; an instance of the
block carries one (State.cfg), no operation changes it (R38), and every statement holds for every one of them.
The `opaque` constants below have no body: nothing can be proved about their values. -/

namespace Sys2Proof

/-- SCALE_ROUND (R10, R11, decision D8): how the scaled encoder rounds the exact product. -/
inductive ScaleRound where
  /-- To nearest, ties away from zero: the default. -/
  | nearestTiesAway
  /-- Toward zero: kept by the spec for comparison with reference code. -/
  | towardZero
deriving DecidableEq, Repr, Inhabited

/-- The two command dialects (R2, R19), a closed enumeration (R38). -/
inductive Dialect where
  | mc   -- MotorController
  | bms  -- BatteryManagement
deriving DecidableEq, Repr, Inhabited

/-- The names of the telemetry fields (R32, R33), for touched sets (R237) and the host's reads. -/
inductive TelemetryField where
  | fwMajor
  | fwMinor
  | tempMotor
  | avgMotorCurrent
  | avgInputCurrent
  | rpm
  | inputVoltage
  | wattHours
  | wattHoursCharged
  | faultCode
  | throttle
  | soc
  | cellCount
  | cellVoltage (i : Fin 12)
deriving DecidableEq, Repr, Inhabited

/-- What an instance of the block is built with: the OPEN parameters of R10, and whether a diagnostic sink is
connected (R304). -/
structure Config where
  cmdFwVersion : Byte
  cmdGetValuesSetupSelective : Byte
  cmdGetDecodedPpm : Byte
  cmdForwardToPeer : Byte
  cmdSetChuckData : Byte
  cmdSetCurrent : Byte
  cmdSetCurrentBrake : Byte
  cmdSetRpm : Byte
  cmdSetDuty : Byte
  cmdBmsGetValues : Byte
  cmdBmsGetBmsCells : Byte
  /-- RX_DEADLINE, a duration in ticks of the clock agent (R10, R213). -/
  rxDeadline : Nat
  /-- RX_EPSILON, the ε of the timeout property (R10, R214); a fairness bound no step reads. -/
  rxEpsilon : Nat
  scaleRound : ScaleRound
  /-- Which floating type the host has: FloatIn, toRat and toFloat are open functions of it (R10, assumptions 3
  and 13). -/
  floatType : Nat
  /-- Whether the optional diagnostic sink is connected (R278, R304). -/
  sinkConnected : Bool
deriving DecidableEq, Repr

/-- R10: the three decoded MotorController ids are pairwise distinct and the two BatteryManagement ids are
distinct. A configuration that breaks this is refused. -/
def Config.valid (c : Config) : Bool :=
  c.cmdFwVersion != c.cmdGetValuesSetupSelective
    && c.cmdFwVersion != c.cmdGetDecodedPpm
    && c.cmdGetValuesSetupSelective != c.cmdGetDecodedPpm
    && c.cmdBmsGetValues != c.cmdBmsGetBmsCells

/-- The configuration State.reset carries. DESIGN CHOICE (assumption 1, unsafe for a statement that rests on
it): the spec's own test configuration TC (95_test_vectors.md section 0, the MotorController ids being the
suggestions of 93_implementation_defined.md G6), RX_DEADLINE the reference 100 ms with one tick a
millisecond, RX_EPSILON 0, floating type 0, a diagnostic sink connected. -/
def Config.reference : Config where
  cmdFwVersion := 0x00
  cmdGetValuesSetupSelective := 0x33
  cmdGetDecodedPpm := 0x1F
  cmdForwardToPeer := 0x22
  cmdSetChuckData := 0x23
  cmdSetCurrent := 0x06
  cmdSetCurrentBrake := 0x07
  cmdSetRpm := 0x08
  cmdSetDuty := 0x05
  cmdBmsGetValues := 0xB0
  cmdBmsGetBmsCells := 0xB1
  rxDeadline := 100
  rxEpsilon := 0
  scaleRound := .nearestTiesAway
  floatType := 0
  sinkConnected := true

/-- A move of one of the external agents (R8): what the outside world does to the block between two of the
block's own steps. -/
inductive WorldMove where
  /-- The stream agent appends a byte to INQ (R8, R39, R77). -/
  | arrive (b : Byte)
  /-- The stream agent drains the first `n` bytes of OUTQ (R39). -/
  | drainOut (n : Nat)
  /-- The diagnostic sink accepts the first `n` events of DIAGQ (R39). -/
  | drainDiag (n : Nat)
  /-- The clock agent's `now()` advances by `d` ticks (R8, R284). -/
  | elapse (d : Nat)
  /-- The host queues one more line of its program (R7). -/
  | issue (line : Bytes)
  /-- The host queues a read of a telemetry field (R20). -/
  | read (f : TelemetryField)
  /-- The host issues RESET out of turn: RESET may occur at any step (R300). -/
  | reset
deriving DecidableEq, Repr, Inhabited

/-- toFloat of each floating type (R10, R30, decision D6): the floating value of a raw integer and a scale, as
the bit pattern of that type. Free. -/
opaque Config.toFloatOf : Nat → Int → Rat → Nat

/-- toRat of each floating type (R10, decision D7): the exact value of a bit pattern of that type, none for NaN and
the infinities. Free. -/
opaque Config.toRatOf : Nat → Nat → Option Rat

/-- toFloat of an instance (R10, R30). -/
def Config.toFloat (c : Config) (raw : Int) (scale : Rat) : Nat := Config.toFloatOf c.floatType raw scale

/-- toRat of an instance, on the bit patterns of its floating type (R10). -/
def Config.toRat (c : Config) (bits : Nat) : Option Rat := Config.toRatOf c.floatType bits

/-- Free value (R77, R216, decision D17): does the deadline step win the `n`-th race between a pending byte
and the passed deadline that no schedule entry decides? -/
opaque Config.raceDeadlineWins : Nat → Bool

/-- Free value (93_implementation_defined.md I15): the move the outside world makes, the `n`-th time the
block has nothing to do and no schedule entry says what happens. -/
opaque Config.worldMove : Nat → WorldMove

end Sys2Proof
end

