-- ==== Sys2Proof/Syntax.lean ====
section
/-! DEFINITION. The operations of the block, one constructor per row of spec/opcode_table.json:
the host operations of 30_encoding.md rule R100, the pseudo-operations of R102, the wire rows of R85 and
R199 (what the receiver does with the bytes that classify and end a frame), and the payload rows of R88
(what the dispatcher does with a payload of that command id). -/

namespace Sys2Proof

/-- The encoder's floating input (R10, decision D7): a value of the configuration's floating type, given by its
bit pattern; or, as the spec's own programs write an operand, the exact value it stands for or that it has none
(95_test_vectors.md section 0). DESIGN CHOICE (assumption 3). -/
inductive FloatIn where
  /-- A value of the configuration's floating type, by its bit pattern. -/
  | pattern (bits : Nat)
  /-- A finite value, written by its exact rational value. -/
  | finite (q : Rat)
  | nan
  | posInf
  | negInf
deriving DecidableEq, Repr, Inhabited

/-- toRat (R10): the exact value of a floating input under a configuration, none for NaN and the infinities. -/
def FloatIn.toRat (c : Config) : FloatIn → Option Rat
  | .pattern bits => c.toRat bits
  | .finite q => some q
  | .nan => none
  | .posInf => none
  | .negInf => none

/-- The operations. Operand letters are R100's: `b` a byte, `n` and `v` integers, `s`, `p` and `raw` byte
strings, `k` a scale, `d` a dialect. Domains are checked by `Instr.wf` and by each meaning. -/
inductive Instr where
  -- host operations: CRC generator (40_crc16.md)
  | crcInit
  | crcUpdate (b : Byte)
  | crcRead
  | crc16 (s : Bytes)
  -- host operations: field codec (41_field_codec.md)
  | fcClear
  | fcLoad (s : Bytes)
  | fcSkip (n : Int)
  | appendUint8 (v : Int)
  | getUint8
  | appendBool (v : Bool)
  | getBool
  | appendInt16 (v : Int)
  | appendUint16 (v : Int)
  | appendInt32 (v : Int)
  | appendUint32 (v : Int)
  | getInt16
  | getUint16
  | getInt32
  | getUint32
  | appendFloat16 (v : FloatIn) (k : Rat)
  | appendFloat32 (v : FloatIn) (k : Rat)
  | getFloat16 (k : Rat)
  | getFloat32 (k : Rat)
  -- host operations: frame codec, receiver, dispatcher, control
  | pack
  | unpack (raw : Bytes)
  | receive
  | decode (d : Dialect) (p : Bytes)
  | setNunchuck (x y : Int) (lower upper : Bool)
  | reset
  -- pseudo-operations (R102)
  | send (p : Bytes)
  | exchange (d : Dialect)
  | crcOver (s : Bytes)
  -- wire rows: the byte step that classifies a candidate (second byte `b`) or stores the end marker
  | frameShort (len : Byte)
  | frameLong (b : Byte)
  | startInvalid (start : Byte) (b : Byte)
  | endMark
  -- payload rows: the payload is the command's id followed by `fields`
  | cmdFwVersion (fields : Bytes)
  | cmdGetValuesSetupSelective (fields : Bytes)
  | cmdGetDecodedPpm (fields : Bytes)
  | cmdBmsGetValues (fields : Bytes)
  | cmdBmsGetBmsCells (fields : Bytes)
  | cmdForwardToPeer (fields : Bytes)
  | cmdSetChuckData (fields : Bytes)
  | cmdSetCurrent (fields : Bytes)
  | cmdSetCurrentBrake (fields : Bytes)
  | cmdSetRpm (fields : Bytes)
  | cmdSetDuty (fields : Bytes)
  | cmdUnknown (d : Dialect) (p : Bytes)
deriving DecidableEq, Repr, Inhabited

end Sys2Proof
end

