-- ==== Sys2Proof/Machine/Operands.lean ====
section
/-! DEFINITION. The operand forms: the domain of each operand (30_encoding.md R100, 41_field_codec.md), the
big-endian layout of fields (20_memory.md R61), the signed and unsigned readings (00_scope.md R13), the
rounding of the scaled encoder (41_field_codec.md R148), and the dispatcher's readers over a byte string
(41_field_codec.md R154). Nothing here reads or writes the machine's state. -/

namespace Sys2Proof.Machine

/-! ## Operand domains -/

/-- The domain of a u8 integer operand, 0..255 (R136, R250). -/
def inU8 (v : Int) : Bool := decide (0 ≤ v) && decide (v ≤ 255)

/-- The domain of a u16 integer operand, 0..65535 (R141). -/
def inU16 (v : Int) : Bool := decide (0 ≤ v) && decide (v ≤ 65535)

/-- The domain of a u32 integer operand, 0..2^32 − 1 (R143). -/
def inU32 (v : Int) : Bool := decide (0 ≤ v) && decide (v ≤ 4294967295)

/-- The signed 16-bit range, −32768..32767 (R140, R148). -/
def inS16 (v : Int) : Bool := decide (-32768 ≤ v) && decide (v ≤ 32767)

/-- The signed 32-bit range, −2^31..2^31 − 1 (R142, R148). -/
def inS32 (v : Int) : Bool := decide (-2147483648 ≤ v) && decide (v ≤ 2147483647)

/-- FC_SKIP's operand: 0..256 (R135). -/
def inSkip (n : Int) : Bool := decide (0 ≤ n) && decide (n ≤ 256)

/-- FC_LOAD's operand: at most PB_CAP = 256 bytes (R134). -/
def inLoad (s : Bytes) : Bool := decide (s.length ≤ 256)

/-- A payload operand: at most PAYLOAD_MAX = 255 bytes (R230, R102). -/
def inPayload (p : Bytes) : Bool := decide (p.length ≤ 255)

/-- The fields of a payload row: the payload is one id byte longer (R86, R230). -/
def inFields (f : Bytes) : Bool := decide (f.length ≤ 254)

/-- A scale is a finite rational greater than zero (R11, R148). -/
def inScale (k : Rat) : Bool := decide (0 < k)

/-- The start bytes of START_INVALID: neither START_SHORT nor START_LONG (R85). -/
def isInvalidStart (b : Byte) : Bool := b != 0x02#8 && b != 0x03#8

/-! ## Big-endian fields (R61) -/

/-- hi8(v) = v[15:8] (R12). -/
def hi8 (v : Half) : Byte := v.extractLsb' 8 8

/-- lo8(v) = v[7:0] (R12). -/
def lo8 (v : Half) : Byte := v.extractLsb' 0 8

/-- bytes16(v): the two bytes of v, most significant first (R14). -/
def bytes16 (v : Half) : Bytes := [hi8 v, lo8 v]

/-- bytes32(v): the four bytes of v, most significant first (R14). -/
def bytes32 (v : Word) : Bytes :=
  [v.extractLsb' 24 8, v.extractLsb' 16 8, v.extractLsb' 8 8, v.extractLsb' 0 8]

/-- be16: the 16-bit word of two bytes, the first the more significant (R14). -/
def be16 (b0 b1 : Byte) : Half := b0 ++ b1

/-- be32: the 32-bit word of four bytes, the first the most significant (R14). -/
def be32 (b0 b1 b2 b3 : Byte) : Word := b0 ++ b1 ++ b2 ++ b3

/-- wrap16(x): x mod 2^16 as a 16-bit field (R13). -/
def wrap16 (x : Int) : Half := BitVec.ofInt 16 x

/-- wrap32(x): x mod 2^32 as a 32-bit field (R13). -/
def wrap32 (x : Int) : Word := BitVec.ofInt 32 x

/-- wrap8(x): x mod 2^8 as a byte (R13). -/
def wrap8 (x : Int) : Byte := BitVec.ofInt 8 x

/-! ## Encodings of the operands of APPEND_* (R87) -/

/-- u8: one byte (R136). -/
def encodeU8 (v : Int) : Bytes := [wrap8 v]

/-- bool: 0x01 for true, 0x00 for false (R138). -/
def encodeBool (v : Bool) : Bytes := [if v then 0x01#8 else 0x00#8]

/-- int16 and uint16: bytes16(wrap16(v)) (R140, R141). -/
def encode16 (v : Int) : Bytes := bytes16 (wrap16 v)

/-- int32 and uint32: bytes32(wrap32(v)) (R142, R143). -/
def encode32 (v : Int) : Bytes := bytes32 (wrap32 v)

/-! ## Readings of the bytes GET_* reads (R87)
Each is total on byte strings; a GET_* gives it exactly the bytes its width asks for. -/

/-- u8(b0) (R137). -/
def readU8 (bs : Bytes) : Nat := (bs.getD 0 0).toNat

/-- A bool byte reads as true when it is nonzero (R139, decision D12). -/
def readBool (bs : Bytes) : Bool := bs.getD 0 0 != 0x00#8

/-- u16(be16) (R145). -/
def readU16 (bs : Bytes) : Nat := (be16 (bs.getD 0 0) (bs.getD 1 0)).toNat

/-- s16(be16): the two's-complement value (R144). -/
def readS16 (bs : Bytes) : Int := (be16 (bs.getD 0 0) (bs.getD 1 0)).toInt

/-- u32(be32) (R147). -/
def readU32 (bs : Bytes) : Nat := (be32 (bs.getD 0 0) (bs.getD 1 0) (bs.getD 2 0) (bs.getD 3 0)).toNat

/-- s32(be32): the two's-complement value (R146). -/
def readS32 (bs : Bytes) : Int := (be32 (bs.getD 0 0) (bs.getD 1 0) (bs.getD 2 0) (bs.getD 3 0)).toInt

/-! ## Scaled fixed-point (R148) -/

/-- Round to nearest, ties away from zero: round(2.5) = 3, round(−2.5) = −3 (R148). -/
def roundNearestAway (x : Rat) : Int :=
  if 0 ≤ x.num then (2 * x.num + x.den) / (2 * x.den)
  else -((2 * (-x.num) + x.den) / (2 * x.den))

/-- Round toward zero (R10, SCALE_ROUND = TowardZero). -/
def roundTowardZero (x : Rat) : Int := x.num.tdiv x.den

/-- The rounding SCALE_ROUND selects (R148). -/
def roundScaled (m : ScaleRound) (x : Rat) : Int :=
  match m with
  | .nearestTiesAway => roundNearestAway x
  | .towardZero => roundTowardZero x

/-! ## The dispatcher's readers over a byte string (R154)
Each is used only where its bytes lie inside `p`: the dispatcher checks the payload's length first (R235). -/

/-- u8at(p, i) = u8(p[i]), as the byte itself. -/
def u8at (p : Bytes) (i : Nat) : Byte := p.getD i 0

/-- s16at(p, i) = s16(be16(p[i..i+2))). -/
def s16at (p : Bytes) (i : Nat) : Int := readS16 (p.drop i)

/-- s32at(p, i) = s32(be32(p[i..i+4))). -/
def s32at (p : Bytes) (i : Nat) : Int := readS32 (p.drop i)

end Sys2Proof.Machine
end

