-- ==== Sys2Proof/WellFormed.lean ====
section
/-! DEFINITION. Well-formed operations: every operand in its stated domain (30_encoding.md R100,
41_field_codec.md: "An operand outside its stated domain is refused by the well-formedness check"). -/

namespace Sys2Proof

/-- The well-formedness check, one line per constructor. -/
def Instr.wf : Instr → Bool
  | .crcInit => true
  | .crcUpdate _ => true
  | .crcRead => true
  | .crc16 _ => true
  | .fcClear => true
  | .fcLoad s => Machine.inLoad s
  | .fcSkip n => Machine.inSkip n
  | .appendUint8 v => Machine.inU8 v
  | .getUint8 => true
  | .appendBool _ => true
  | .getBool => true
  | .appendInt16 v => Machine.inS16 v
  | .appendUint16 v => Machine.inU16 v
  | .appendInt32 v => Machine.inS32 v
  | .appendUint32 v => Machine.inU32 v
  | .getInt16 => true
  | .getUint16 => true
  | .getInt32 => true
  | .getUint32 => true
  | .appendFloat16 _ k => Machine.inScale k
  | .appendFloat32 _ k => Machine.inScale k
  | .getFloat16 k => Machine.inScale k
  | .getFloat32 k => Machine.inScale k
  | .pack => true
  | .unpack _ => true
  | .receive => true
  | .decode _ p => Machine.inPayload p
  | .setNunchuck x y _ _ => Machine.inU8 x && Machine.inU8 y
  | .reset => true
  | .send p => Machine.inPayload p
  | .exchange _ => true
  | .crcOver _ => true
  | .frameShort _ => true
  | .frameLong _ => true
  | .startInvalid start _ => Machine.isInvalidStart start
  | .endMark => true
  | .cmdFwVersion f => Machine.inFields f
  | .cmdGetValuesSetupSelective f => Machine.inFields f
  | .cmdGetDecodedPpm f => Machine.inFields f
  | .cmdBmsGetValues f => Machine.inFields f
  | .cmdBmsGetBmsCells f => Machine.inFields f
  | .cmdForwardToPeer f => Machine.inFields f
  | .cmdSetChuckData f => Machine.inFields f
  | .cmdSetCurrent f => Machine.inFields f
  | .cmdSetCurrentBrake f => Machine.inFields f
  | .cmdSetRpm f => Machine.inFields f
  | .cmdSetDuty f => Machine.inFields f
  | .cmdUnknown _ p => Machine.inPayload p

end Sys2Proof
end

