-- ==== Sys2Proof/Decode.lean ====
section
/-! DEFINITION. Decoding and encoding.
The block has three encodings and no opcode word. (1) A host operation is a line of text in the assembly
syntax of 30_encoding.md rule R101: "A program's encoding is its text in the syntax of R101"
(95_test_vectors.md section 3); here a line is its ASCII bytes. (2) The wire rows are told by the bytes at
the start and the end of a frame (R85, R199). (3) The payload rows are told by the dialect and the command
id, which the configuration gives (R88, R232). Each decoder is total on any bytes and rejects by name; the
encoder stands after them. -/

namespace Sys2Proof

/-- Why a code word is no operation. -/
inductive DecodeError where
  /-- The line's first word is no mnemonic of R100 or R102. -/
  | unknownMnemonic
  /-- The mnemonic has another number of operands. -/
  | operandCount
  | badByte
  | badString
  | badInteger
  | badBool
  | badFloat
  | badScale
  | badDialect
  /-- The line begins with INQ and is not `INQ <- [..]`. -/
  | badDelivery
  /-- The line states a delivery or nothing at all: it holds no operation. -/
  | noOperation
  /-- The byte at a frame's end is not END_MARK (R199, R202). -/
  | notEndMark
deriving DecidableEq, Repr, Inhabited

/-! ## Lines of text (R101) -/

/-- A line of text as its ASCII codes. -/
abbrev Text := List Nat

/-- The codes of a list of characters. -/
def txt (cs : List Char) : Text := cs.map Char.toNat

/-- The codes of the bytes of a line. -/
def codesOf (l : Bytes) : Text := l.map (·.toNat)

/-- The bytes of a text. -/
def bytesOf (t : Text) : Bytes := t.map (BitVec.ofNat 8)

/-- "A comment starts with `;`" (R101). -/
def stripComment (t : Text) : Text := t.takeWhile (· != 59)

/-- Drop the spaces at both ends. -/
def trim (t : Text) : Text := ((t.dropWhile (· == 32)).reverse.dropWhile (· == 32)).reverse

/-- Split at every occurrence of the code `c`. -/
def splitAtCode (c : Nat) : Text → List Text
  | [] => [[]]
  | x :: xs =>
    if x = c then [] :: splitAtCode c xs
    else
      match splitAtCode c xs with
      | [] => [[x]]
      | w :: ws => (x :: w) :: ws

/-- The words of a text: its pieces between spaces, the empty ones dropped. -/
def wordsOf (t : Text) : List Text := (splitAtCode 32 t).filter (· != [])

/-- "operands separated by commas" (R101). -/
def operandsOf (t : Text) : List Text := if t = [] then [] else (splitAtCode 44 t).map trim

/-! ### Numbers -/

/-- The value of a decimal digit's code. -/
def decDigit (c : Nat) : Option Nat := if 48 ≤ c ∧ c ≤ 57 then some (c - 48) else none

/-- The value of a hex digit's code, of either case. -/
def hexDigit (c : Nat) : Option Nat :=
  if 48 ≤ c ∧ c ≤ 57 then some (c - 48)
  else if 65 ≤ c ∧ c ≤ 70 then some (c - 55)
  else if 97 ≤ c ∧ c ≤ 102 then some (c - 87)
  else none

/-- The digits of a text, all of them or none. -/
def digitsOf (digit : Nat → Option Nat) : Text → Option (List Nat)
  | [] => some []
  | c :: cs =>
    match digit c, digitsOf digit cs with
    | some d, some ds => some (d :: ds)
    | _, _ => none

/-- The number the digits write in a base, the first digit the most significant. -/
def digitsVal (base : Nat) (ds : List Nat) : Nat := ds.foldl (fun a d => a * base + d) 0

/-- One or more decimal digits. -/
def parseNat (t : Text) : Option Nat :=
  if t = [] then none else (digitsOf decDigit t).map (digitsVal 10)

/-- One or more hex digits. -/
def parseHex (t : Text) : Option Nat :=
  if t = [] then none else (digitsOf hexDigit t).map (digitsVal 16)

/-- "A byte is two hex digits (`3F`) or `0x3F`" (R101). -/
def parseByte : Text → Option Byte
  | [a, b] =>
    match hexDigit a, hexDigit b with
    | some h, some l => some (BitVec.ofNat 8 (h * 16 + l))
    | _, _ => none
  | [48, 120, a, b] =>
    match hexDigit a, hexDigit b with
    | some h, some l => some (BitVec.ofNat 8 (h * 16 + l))
    | _, _ => none
  | _ => none

/-- All the bytes of a list of words, or none. -/
def parseBytes : List Text → Option Bytes
  | [] => some []
  | w :: ws =>
    match parseByte w, parseBytes ws with
    | some b, some bs => some (b :: bs)
    | _, _ => none

/-- "a byte string is `[b0 b1 ...]` with bytes separated by spaces, `[]` for the empty string" (R101). -/
def parseString : Text → Option Bytes
  | 91 :: r =>
    match r.reverse with
    | 93 :: m => parseBytes (wordsOf m.reverse)
    | _ => none
  | _ => none

/-- "an integer is decimal with optional sign or `0x` hex" (R101). -/
def parseInt : Text → Option Int
  | 45 :: t => (parseNat t).map (fun n => -(n : Int))
  | 43 :: t => (parseNat t).map (fun n => (n : Int))
  | 48 :: 120 :: t => (parseHex t).map (fun n => (n : Int))
  | t => (parseNat t).map (fun n => (n : Int))

/-- An unsigned decimal number (R101). DESIGN CHOICE (assumption 18): R101 does not say how one is written; the
model reads digits, or digits, a point and digits, both sides present (`.5` and `5.` are rejected), and no exponent.
DESIGN CHOICE (assumption 4): a fraction `a/b` of two unsigned integers is read too, so that every rational operand
can be written. -/
def parseUnsignedRat (t : Text) : Option Rat :=
  match splitAtCode 47 t with
  | [a, b] =>
    match parseNat a, parseNat b with
    | some n, some d => if d = 0 then none else some (mkRat n d)
    | _, _ => none
  | _ =>
    match splitAtCode 46 t with
    | [a] => (parseNat a).map (fun n => (n : Rat))
    | [a, b] =>
      match parseNat a, parseNat b with
      | some n, some f => some (mkRat (n * 10 ^ b.length + f) (10 ^ b.length))
      | _, _ => none
    | _ => none

/-- A decimal number with an optional sign, `+` or `-`. DESIGN CHOICE (assumption 18): R101 gives the sign to integers
and writes a negative floating operand; the model reads it on a scale too. -/
def parseRat : Text → Option Rat
  | 45 :: t => (parseUnsignedRat t).map (fun q => -q)
  | 43 :: t => parseUnsignedRat t
  | t => parseUnsignedRat t

/-- NaN and the infinities as operands; R101 gives them no spelling. DESIGN CHOICE (assumption 4). -/
def txtNaN : Text := txt ['N', 'a', 'N']
def txtPosInf : Text := txt ['+', 'i', 'n', 'f']
def txtNegInf : Text := txt ['-', 'i', 'n', 'f']

/-- A FloatIn operand: a decimal number (R101), one of the three spellings above, or `#` and the decimal number of a
bit pattern of the host's floating type. DESIGN CHOICE (assumption 4). -/
def parseFloat (t : Text) : Option FloatIn :=
  if t = txtNaN then some .nan
  else if t = txtPosInf then some .posInf
  else if t = txtNegInf then some .negInf
  else if t.head? = some 35 then (parseNat t.tail).map .pattern
  else (parseRat t).map .finite

/-- A bool operand is `true` or `false` (R250's example). -/
def txtTrue : Text := txt ['t', 'r', 'u', 'e']
def txtFalse : Text := txt ['f', 'a', 'l', 's', 'e']

def parseBool (t : Text) : Option Bool :=
  if t = txtTrue then some true else if t = txtFalse then some false else none

/-- "a dialect is `MC` or `BMS`" (R101). -/
def txtMc : Text := txt ['M', 'C']
def txtBms : Text := txt ['B', 'M', 'S']

def parseDialect (t : Text) : Option Dialect :=
  if t = txtMc then some .mc else if t = txtBms then some .bms else none

/-! ### Operands, each rejected by its own name -/

/-- The value, or the named rejection. -/
def orReject {α : Type} (e : DecodeError) : Option α → Except DecodeError α
  | some a => .ok a
  | none => .error e

def parseByteOperand (t : Text) : Except DecodeError Byte := orReject .badByte (parseByte t)
def parseStringOperand (t : Text) : Except DecodeError Bytes := orReject .badString (parseString t)
def parseIntOperand (t : Text) : Except DecodeError Int := orReject .badInteger (parseInt t)
def parseBoolOperand (t : Text) : Except DecodeError Bool := orReject .badBool (parseBool t)
def parseFloatOperand (t : Text) : Except DecodeError FloatIn := orReject .badFloat (parseFloat t)
def parseScaleOperand (t : Text) : Except DecodeError Rat := orReject .badScale (parseRat t)
def parseDialectOperand (t : Text) : Except DecodeError Dialect := orReject .badDialect (parseDialect t)

/-- How a mnemonic's operands are read. -/
abbrev Build := List Text → Except DecodeError Instr

def noOperand (i : Instr) : Build
  | [] => .ok i
  | _ => .error .operandCount

def oneOperand {α : Type} (p : Text → Except DecodeError α) (f : α → Instr) : Build
  | [a] =>
    match p a with
    | .ok x => .ok (f x)
    | .error e => .error e
  | _ => .error .operandCount

def twoOperands {α β : Type} (p : Text → Except DecodeError α) (q : Text → Except DecodeError β)
    (f : α → β → Instr) : Build
  | [a, b] =>
    match p a, q b with
    | .ok x, .ok y => .ok (f x y)
    | .error e, _ => .error e
    | _, .error e => .error e
  | _ => .error .operandCount

def fourOperands {α β γ δ : Type} (p : Text → Except DecodeError α) (q : Text → Except DecodeError β)
    (r : Text → Except DecodeError γ) (u : Text → Except DecodeError δ) (f : α → β → γ → δ → Instr) : Build
  | [a, b, c, d] =>
    match p a, q b, r c, u d with
    | .ok x, .ok y, .ok z, .ok w => .ok (f x y z w)
    | .error e, _, _, _ => .error e
    | _, .error e, _, _ => .error e
    | _, _, .error e, _ => .error e
    | _, _, _, .error e => .error e
  | _ => .error .operandCount

/-! ### The operation set (R100, R102) -/

/-- The name CRC_INIT (R100, R102). -/
def nameCrcInit : Text := txt ['C', 'R', 'C', '_', 'I', 'N', 'I', 'T']

/-- The name CRC_UPDATE (R100, R102). -/
def nameCrcUpdate : Text := txt ['C', 'R', 'C', '_', 'U', 'P', 'D', 'A', 'T', 'E']

/-- The name CRC_READ (R100, R102). -/
def nameCrcRead : Text := txt ['C', 'R', 'C', '_', 'R', 'E', 'A', 'D']

/-- The name CRC16 (R100, R102). -/
def nameCrc16 : Text := txt ['C', 'R', 'C', '1', '6']

/-- The name FC_CLEAR (R100, R102). -/
def nameFcClear : Text := txt ['F', 'C', '_', 'C', 'L', 'E', 'A', 'R']

/-- The name FC_LOAD (R100, R102). -/
def nameFcLoad : Text := txt ['F', 'C', '_', 'L', 'O', 'A', 'D']

/-- The name FC_SKIP (R100, R102). -/
def nameFcSkip : Text := txt ['F', 'C', '_', 'S', 'K', 'I', 'P']

/-- The name APPEND_UINT8 (R100, R102). -/
def nameAppendUint8 : Text := txt ['A', 'P', 'P', 'E', 'N', 'D', '_', 'U', 'I', 'N', 'T', '8']

/-- The name GET_UINT8 (R100, R102). -/
def nameGetUint8 : Text := txt ['G', 'E', 'T', '_', 'U', 'I', 'N', 'T', '8']

/-- The name APPEND_BOOL (R100, R102). -/
def nameAppendBool : Text := txt ['A', 'P', 'P', 'E', 'N', 'D', '_', 'B', 'O', 'O', 'L']

/-- The name GET_BOOL (R100, R102). -/
def nameGetBool : Text := txt ['G', 'E', 'T', '_', 'B', 'O', 'O', 'L']

/-- The name APPEND_INT16 (R100, R102). -/
def nameAppendInt16 : Text := txt ['A', 'P', 'P', 'E', 'N', 'D', '_', 'I', 'N', 'T', '1', '6']

/-- The name APPEND_UINT16 (R100, R102). -/
def nameAppendUint16 : Text := txt ['A', 'P', 'P', 'E', 'N', 'D', '_', 'U', 'I', 'N', 'T', '1', '6']

/-- The name APPEND_INT32 (R100, R102). -/
def nameAppendInt32 : Text := txt ['A', 'P', 'P', 'E', 'N', 'D', '_', 'I', 'N', 'T', '3', '2']

/-- The name APPEND_UINT32 (R100, R102). -/
def nameAppendUint32 : Text := txt ['A', 'P', 'P', 'E', 'N', 'D', '_', 'U', 'I', 'N', 'T', '3', '2']

/-- The name GET_INT16 (R100, R102). -/
def nameGetInt16 : Text := txt ['G', 'E', 'T', '_', 'I', 'N', 'T', '1', '6']

/-- The name GET_UINT16 (R100, R102). -/
def nameGetUint16 : Text := txt ['G', 'E', 'T', '_', 'U', 'I', 'N', 'T', '1', '6']

/-- The name GET_INT32 (R100, R102). -/
def nameGetInt32 : Text := txt ['G', 'E', 'T', '_', 'I', 'N', 'T', '3', '2']

/-- The name GET_UINT32 (R100, R102). -/
def nameGetUint32 : Text := txt ['G', 'E', 'T', '_', 'U', 'I', 'N', 'T', '3', '2']

/-- The name APPEND_FLOAT16 (R100, R102). -/
def nameAppendFloat16 : Text := txt ['A', 'P', 'P', 'E', 'N', 'D', '_', 'F', 'L', 'O', 'A', 'T', '1', '6']

/-- The name APPEND_FLOAT32 (R100, R102). -/
def nameAppendFloat32 : Text := txt ['A', 'P', 'P', 'E', 'N', 'D', '_', 'F', 'L', 'O', 'A', 'T', '3', '2']

/-- The name GET_FLOAT16 (R100, R102). -/
def nameGetFloat16 : Text := txt ['G', 'E', 'T', '_', 'F', 'L', 'O', 'A', 'T', '1', '6']

/-- The name GET_FLOAT32 (R100, R102). -/
def nameGetFloat32 : Text := txt ['G', 'E', 'T', '_', 'F', 'L', 'O', 'A', 'T', '3', '2']

/-- The name PACK (R100, R102). -/
def namePack : Text := txt ['P', 'A', 'C', 'K']

/-- The name UNPACK (R100, R102). -/
def nameUnpack : Text := txt ['U', 'N', 'P', 'A', 'C', 'K']

/-- The name RECEIVE (R100, R102). -/
def nameReceive : Text := txt ['R', 'E', 'C', 'E', 'I', 'V', 'E']

/-- The name DECODE (R100, R102). -/
def nameDecode : Text := txt ['D', 'E', 'C', 'O', 'D', 'E']

/-- The name SET_NUNCHUCK (R100, R102). -/
def nameSetNunchuck : Text := txt ['S', 'E', 'T', '_', 'N', 'U', 'N', 'C', 'H', 'U', 'C', 'K']

/-- The name RESET (R100, R102). -/
def nameReset : Text := txt ['R', 'E', 'S', 'E', 'T']

/-- The name SEND (R100, R102). -/
def nameSend : Text := txt ['S', 'E', 'N', 'D']

/-- The name EXCHANGE (R100, R102). -/
def nameExchange : Text := txt ['E', 'X', 'C', 'H', 'A', 'N', 'G', 'E']

/-- The name CRC_OVER (R100, R102). -/
def nameCrcOver : Text := txt ['C', 'R', 'C', '_', 'O', 'V', 'E', 'R']

/-- Rows of the operation set (R100, R102). -/
def rowsCrcAndBuffer : List (Text × Build) :=
  [(nameCrcInit, noOperand .crcInit),
   (nameCrcUpdate, oneOperand parseByteOperand .crcUpdate),
   (nameCrcRead, noOperand .crcRead),
   (nameCrc16, oneOperand parseStringOperand .crc16),
   (nameFcClear, noOperand .fcClear),
   (nameFcLoad, oneOperand parseStringOperand .fcLoad),
   (nameFcSkip, oneOperand parseIntOperand .fcSkip),
   (nameAppendUint8, oneOperand parseIntOperand .appendUint8)]

/-- Rows of the operation set (R100, R102). -/
def rowsIntegers : List (Text × Build) :=
  [(nameGetUint8, noOperand .getUint8),
   (nameAppendBool, oneOperand parseBoolOperand .appendBool),
   (nameGetBool, noOperand .getBool),
   (nameAppendInt16, oneOperand parseIntOperand .appendInt16),
   (nameAppendUint16, oneOperand parseIntOperand .appendUint16),
   (nameAppendInt32, oneOperand parseIntOperand .appendInt32),
   (nameAppendUint32, oneOperand parseIntOperand .appendUint32),
   (nameGetInt16, noOperand .getInt16)]

/-- Rows of the operation set (R100, R102). -/
def rowsScaledAndFrame : List (Text × Build) :=
  [(nameGetUint16, noOperand .getUint16),
   (nameGetInt32, noOperand .getInt32),
   (nameGetUint32, noOperand .getUint32),
   (nameAppendFloat16, twoOperands parseFloatOperand parseScaleOperand .appendFloat16),
   (nameAppendFloat32, twoOperands parseFloatOperand parseScaleOperand .appendFloat32),
   (nameGetFloat16, oneOperand parseScaleOperand .getFloat16),
   (nameGetFloat32, oneOperand parseScaleOperand .getFloat32),
   (namePack, noOperand .pack)]

/-- Rows of the operation set (R100, R102). -/
def rowsOtherAndPseudo : List (Text × Build) :=
  [(nameUnpack, oneOperand parseStringOperand .unpack),
   (nameReceive, noOperand .receive),
   (nameDecode, twoOperands parseDialectOperand parseStringOperand .decode),
   (nameSetNunchuck, fourOperands parseIntOperand parseIntOperand parseBoolOperand parseBoolOperand .setNunchuck),
   (nameReset, noOperand .reset),
   (nameSend, oneOperand parseStringOperand .send),
   (nameExchange, oneOperand parseDialectOperand .exchange),
   (nameCrcOver, oneOperand parseStringOperand .crcOver)]

/-- The operation set, complete: every mnemonic with how its operands are read (R100, R102). -/
def lineTable : List (Text × Build) :=
  rowsCrcAndBuffer ++ rowsIntegers ++ rowsScaledAndFrame ++ rowsOtherAndPseudo

/-- The row of a mnemonic. -/
def findRow (m : Text) : List (Text × Build) → Option Build
  | [] => none
  | (n, b) :: rows => if n = m then some b else findRow m rows

/-- What a line of a program says. -/
inductive Line where
  /-- An operation (R101: one per line). -/
  | op (i : Instr)
  /-- `INQ <- [..]`: not an operation; it states bytes the stream agent delivers (R101). -/
  | deliver (bs : Bytes)
  /-- Only a comment, or nothing. -/
  | blank
deriving DecidableEq, Repr

/-- The word INQ and the arrow of a delivery line (R101). -/
def nameInq : Text := txt ['I', 'N', 'Q']
def txtArrow : Text := txt ['<', '-']

/-- Byte strings joined by `++`, cut at each `+` (P8 of 95_test_vectors.md writes a delivery so). -/
def parseJoined : List Text → Option Bytes
  | [a] => parseString (trim a)
  | a :: [] :: rest =>
    match parseString (trim a), parseJoined rest with
    | some x, some y => some (x ++ y)
    | _, _ => none
  | _ => none

/-- What follows the word INQ: the arrow and a byte string, or several joined by `++`. -/
def parseDelivery (t : Text) : Except DecodeError Line :=
  match orReject .badDelivery (parseJoined (splitAtCode 43 (t.drop 2))) with
  | .ok bs => if t.take 2 = txtArrow then .ok (.deliver bs) else .error .badDelivery
  | .error e => .error e

/-- The decoder of a line (R101): the mnemonic, a space, operands separated by commas. -/
def decodeLine (l : Bytes) : Except DecodeError Line :=
  let t := trim (stripComment (codesOf l))
  let name := t.takeWhile (· != 32)
  let rest := trim (t.dropWhile (· != 32))
  if t = [] then .ok .blank
  else if name = nameInq then parseDelivery rest
  else
    match findRow name lineTable with
    | none => .error .unknownMnemonic
    | some build =>
      match build (operandsOf rest) with
      | .ok i => .ok (.op i)
      | .error e => .error e

/-! ## Wire rows (R85, R199) -/

/-- START_SHORT, START_LONG and END_MARK (R9). -/
def startShort : Byte := 0x02#8
def startLong : Byte := 0x03#8
def endMarkByte : Byte := 0x03#8

/-- A candidate is classified when its second byte has arrived, by its start byte (R85, R193 to R195). -/
def decodeStart (start second : Byte) : Instr :=
  if start = startShort then .frameShort second
  else if start = startLong then .frameLong second
  else .startInvalid start second

/-- The byte at a frame's declared end (R199). -/
def decodeEnd (b : Byte) : Except DecodeError Instr :=
  if b = endMarkByte then .ok .endMark else .error .notEndMark

/-! ## Payload rows (R88, R232) -/

/-- The five commands DECODE decodes (R232). -/
inductive Command where
  | fwVersion
  | getValuesSetupSelective
  | getDecodedPpm
  | bmsGetValues
  | bmsGetBmsCells
deriving DecidableEq, Repr

/-- The dispatch table, exhaustive over (dialect, command id) (R232, R234). -/
def dispatch (c : Config) (d : Dialect) (id : Byte) : Option Command :=
  match d with
  | .mc =>
    if id = c.cmdFwVersion then some .fwVersion
    else if id = c.cmdGetValuesSetupSelective then some .getValuesSetupSelective
    else if id = c.cmdGetDecodedPpm then some .getDecodedPpm
    else none
  | .bms =>
    if id = c.cmdBmsGetValues then some .bmsGetValues
    else if id = c.cmdBmsGetBmsCells then some .bmsGetBmsCells
    else none

/-- The payload row of an id no row of R232 has: an outbound id in the MC dialect (R249), or unknown (R234). -/
def decodeUndispatched (c : Config) (d : Dialect) (id : Byte) (fields : Bytes) : Instr :=
  match d with
  | .mc =>
    if id = c.cmdForwardToPeer then .cmdForwardToPeer fields
    else if id = c.cmdSetChuckData then .cmdSetChuckData fields
    else if id = c.cmdSetCurrent then .cmdSetCurrent fields
    else if id = c.cmdSetCurrentBrake then .cmdSetCurrentBrake fields
    else if id = c.cmdSetRpm then .cmdSetRpm fields
    else if id = c.cmdSetDuty then .cmdSetDuty fields
    else .cmdUnknown d (id :: fields)
  | .bms => .cmdUnknown d (id :: fields)

/-- The payload row a payload belongs to, from its dialect and its first byte (R86, R88, R231). -/
def decodePayload (c : Config) (d : Dialect) : Bytes → Instr
  | [] => .cmdUnknown d []
  | id :: fields =>
    match dispatch c d id with
    | some .fwVersion => .cmdFwVersion fields
    | some .getValuesSetupSelective => .cmdGetValuesSetupSelective fields
    | some .getDecodedPpm => .cmdGetDecodedPpm fields
    | some .bmsGetValues => .cmdBmsGetValues fields
    | some .bmsGetBmsCells => .cmdBmsGetBmsCells fields
    | none => decodeUndispatched c d id fields

/-- The command ids of a dialect, decoded and outbound (R88). -/
def Config.idsOf (c : Config) : Dialect → List Byte
  | .mc =>
    [c.cmdFwVersion, c.cmdGetValuesSetupSelective, c.cmdGetDecodedPpm, c.cmdForwardToPeer, c.cmdSetChuckData,
      c.cmdSetCurrent, c.cmdSetCurrentBrake, c.cmdSetRpm, c.cmdSetDuty]
  | .bms => [c.cmdBmsGetValues, c.cmdBmsGetBmsCells]

/-! ## Code words of every kind -/

/-- Where an operation is written: a line of text, the two bytes that classify a candidate, the byte at a
frame's declared end, or a payload with the dialect it is decoded in. -/
inductive CodeWord where
  | line (text : Bytes)
  | start (first second : Byte)
  | frameEnd (b : Byte)
  | payload (d : Dialect) (p : Bytes)
deriving DecidableEq, Repr

/-- The decoder: total, every rejection named. -/
def decode (c : Config) : CodeWord → Except DecodeError Instr
  | .line text =>
    match decodeLine text with
    | .ok (.op i) => .ok i
    | .ok _ => .error .noOperation
    | .error e => .error e
  | .start a b => .ok (decodeStart a b)
  | .frameEnd b => decodeEnd b
  | .payload d p => .ok (decodePayload c d p)

/-- The bytes of a table word, the first byte in its least significant bits. -/
def tableBytes : Nat → Nat → Bytes
  | 0, _ => []
  | n + 1, w => BitVec.ofNat 8 w :: tableBytes n (w / 256)

/-- The instruction the decoder reads from a word as spec/opcode_table.json numbers it. The table gives
bits only to the wire rows, 8 each: a word of one byte is a start byte, followed by a zero byte
(assumption 6: END_MARK's byte 0x03 at a frame's start is FRAME_LONG's). A longer word is a line of text,
its first character in the lowest byte. -/
def decodeTableWord (nbits w : Nat) : Option Instr :=
  if nbits ≤ 8 then some (decodeStart (BitVec.ofNat 8 w) (BitVec.ofNat 8 (w / 256)))
  else
    match decodeLine (tableBytes (nbits / 8) w) with
    | .ok (.op i) => some i
    | _ => none

/-! ## The encoder -/

/-- Decimal digits, most significant first, in front of `acc`; `fuel` bounds their number. -/
def showNatAux : Nat → Nat → Text → Text
  | 0, _, acc => acc
  | fuel + 1, n, acc =>
    if n < 10 then (48 + n) :: acc else showNatAux fuel (n / 10) ((48 + n % 10) :: acc)

/-- An unsigned integer in decimal. -/
def showNat (n : Nat) : Text := showNatAux (n.log2 + 1) n []

/-- Exactly `m` decimal digits of `n`, most significant first. -/
def showFixed : Nat → Nat → Text
  | 0, _ => []
  | m + 1, n => (48 + n / 10 ^ m % 10) :: showFixed m n

def showInt (v : Int) : Text := if v < 0 then 45 :: showNat v.natAbs else showNat v.natAbs

/-- The code of a hex digit, upper case. -/
def showHexDigit (d : Nat) : Nat := if d < 10 then 48 + d else 55 + d

def showByte (b : Byte) : Text := [showHexDigit (b.toNat / 16), showHexDigit (b.toNat % 16)]

/-- The bytes of a string with a space between each two. -/
def showBytes : Bytes → Text
  | [] => []
  | [b] => showByte b
  | b :: bs => showByte b ++ 32 :: showBytes bs

def showString (s : Bytes) : Text := 91 :: (showBytes s ++ [93])

/-- The least number of decimal places, at least `m`, that writes a denominator exactly. -/
def decimalPlaces (den : Nat) : Nat → Nat → Option Nat
  | 0, _ => none
  | fuel + 1, m => if 10 ^ m % den = 0 then some m else decimalPlaces den fuel (m + 1)

/-- A non-negative rational: as a decimal number where it has one (R101), else as a fraction
(assumption 4). -/
def showUnsignedRat (num den : Nat) : Text :=
  match decimalPlaces den (den.log2 + 1) 0 with
  | none => showNat num ++ 47 :: showNat den
  | some 0 => showNat num
  | some (m + 1) =>
    let n := num * (10 ^ (m + 1) / den)
    showNat (n / 10 ^ (m + 1)) ++ 46 :: showFixed (m + 1) (n % 10 ^ (m + 1))

def showRat (q : Rat) : Text :=
  if q.num < 0 then 45 :: showUnsignedRat q.num.natAbs q.den else showUnsignedRat q.num.natAbs q.den

def showFloat : FloatIn → Text
  | .pattern bits => 35 :: showNat bits
  | .finite q => showRat q
  | .nan => txtNaN
  | .posInf => txtPosInf
  | .negInf => txtNegInf

def showBool (v : Bool) : Text := if v then txtTrue else txtFalse

def showDialect : Dialect → Text
  | .mc => txtMc
  | .bms => txtBms

/-- Operands separated by a comma and a space, as R101's example writes them. -/
def joinOperands : List Text → Text
  | [] => []
  | [t] => t
  | t :: ts => t ++ 44 :: 32 :: joinOperands ts

/-- A line: the mnemonic, a space, the operands (R101). -/
def lineOf (name : Text) (ops : List Text) : Bytes :=
  bytesOf (if ops = [] then name else name ++ 32 :: joinOperands ops)

/-- The encoder: the code word of an operation under a configuration. -/
def encode (c : Config) : Instr → CodeWord
  | .crcInit => .line (lineOf nameCrcInit [])
  | .crcUpdate a => .line (lineOf nameCrcUpdate [showByte a])
  | .crcRead => .line (lineOf nameCrcRead [])
  | .crc16 a => .line (lineOf nameCrc16 [showString a])
  | .fcClear => .line (lineOf nameFcClear [])
  | .fcLoad a => .line (lineOf nameFcLoad [showString a])
  | .fcSkip a => .line (lineOf nameFcSkip [showInt a])
  | .appendUint8 a => .line (lineOf nameAppendUint8 [showInt a])
  | .getUint8 => .line (lineOf nameGetUint8 [])
  | .appendBool a => .line (lineOf nameAppendBool [showBool a])
  | .getBool => .line (lineOf nameGetBool [])
  | .appendInt16 a => .line (lineOf nameAppendInt16 [showInt a])
  | .appendUint16 a => .line (lineOf nameAppendUint16 [showInt a])
  | .appendInt32 a => .line (lineOf nameAppendInt32 [showInt a])
  | .appendUint32 a => .line (lineOf nameAppendUint32 [showInt a])
  | .getInt16 => .line (lineOf nameGetInt16 [])
  | .getUint16 => .line (lineOf nameGetUint16 [])
  | .getInt32 => .line (lineOf nameGetInt32 [])
  | .getUint32 => .line (lineOf nameGetUint32 [])
  | .appendFloat16 a b => .line (lineOf nameAppendFloat16 [showFloat a, showRat b])
  | .appendFloat32 a b => .line (lineOf nameAppendFloat32 [showFloat a, showRat b])
  | .getFloat16 a => .line (lineOf nameGetFloat16 [showRat a])
  | .getFloat32 a => .line (lineOf nameGetFloat32 [showRat a])
  | .pack => .line (lineOf namePack [])
  | .unpack a => .line (lineOf nameUnpack [showString a])
  | .receive => .line (lineOf nameReceive [])
  | .decode a b => .line (lineOf nameDecode [showDialect a, showString b])
  | .setNunchuck a b c d => .line (lineOf nameSetNunchuck [showInt a, showInt b, showBool c, showBool d])
  | .reset => .line (lineOf nameReset [])
  | .send a => .line (lineOf nameSend [showString a])
  | .exchange a => .line (lineOf nameExchange [showDialect a])
  | .crcOver a => .line (lineOf nameCrcOver [showString a])
  | .frameShort len => .start startShort len
  | .frameLong b => .start startLong b
  | .startInvalid s b => .start s b
  | .endMark => .frameEnd endMarkByte
  | .cmdFwVersion f => .payload .mc (c.cmdFwVersion :: f)
  | .cmdGetValuesSetupSelective f => .payload .mc (c.cmdGetValuesSetupSelective :: f)
  | .cmdGetDecodedPpm f => .payload .mc (c.cmdGetDecodedPpm :: f)
  | .cmdBmsGetValues f => .payload .bms (c.cmdBmsGetValues :: f)
  | .cmdBmsGetBmsCells f => .payload .bms (c.cmdBmsGetBmsCells :: f)
  | .cmdForwardToPeer f => .payload .mc (c.cmdForwardToPeer :: f)
  | .cmdSetChuckData f => .payload .mc (c.cmdSetChuckData :: f)
  | .cmdSetCurrent f => .payload .mc (c.cmdSetCurrent :: f)
  | .cmdSetCurrentBrake f => .payload .mc (c.cmdSetCurrentBrake :: f)
  | .cmdSetRpm f => .payload .mc (c.cmdSetRpm :: f)
  | .cmdSetDuty f => .payload .mc (c.cmdSetDuty :: f)
  | .cmdUnknown d p => .payload d p

end Sys2Proof
end

