-- ==== Sys2Proof/Machine/State.lean ====
section
/-! DEFINITION. The state of the block (10_state.md), the reasons a step can stop, and the state after reset.
Plain data throughout. PB and RB are memories in one canonical form: strictly rising addresses, an unwritten
cell (`none`, R18) being an address the list does not hold. -/

namespace Sys2Proof.Machine

/-- A byte-addressed store: its written cells, addresses strictly rising. An address that is not listed
holds `none`: nothing has written it (R18, R22, R25). -/
abbrev Memory := List Host.Cell

/-- Status codes (R270). -/
inductive Status where
  | ok
  | invalidStartMarker
  | unsupportedFrameType
  | bufferOverflow
  | timeout
  | checksumMismatch
  | unsupportedCommand
  | malformedFrame
  | payloadTooLong
  | payloadTooShort
deriving DecidableEq, Repr, Inhabited

/-- Fault reasons, complete (R275): the values the FAULT register can hold. -/
inductive FaultReason where
  | overrun
  | unwritten
  | notFinite
  | range
deriving DecidableEq, Repr, Inhabited

/-- Values of RX_STATE (R24). -/
inductive RxState where
  | inactive
  | idle
  | header
  | body
  | hunt
deriving DecidableEq, Repr, Inhabited

/-- RX_DIAG: two sticky bits (R28). -/
structure RxDiag where
  seenInvalidStart : Bool
  seenLongFrame : Bool
deriving DecidableEq, Repr

/-- Diagnostic events (R278). -/
inductive DiagEvent where
  | invalidStartMarker
  | unsupportedFrameType
deriving DecidableEq, Repr

/-- MC_SNAP (R32): raw values as decoded; `none` until a DECODE writes the field (R31). -/
structure McSnap where
  fwMajor : Option Byte
  fwMinor : Option Byte
  tempMotor : Option Int
  avgMotorCurrent : Option Int
  avgInputCurrent : Option Int
  rpm : Option Int
  inputVoltage : Option Int
  wattHours : Option Int
  wattHoursCharged : Option Int
  faultCode : Option Byte
  throttle : Option Int
deriving DecidableEq, Repr

/-- BMS_SNAP (R33). -/
structure BmsSnap where
  soc : Option Byte
  cellCount : Option Byte
  cellVoltage : Vector (Option Int) 12
deriving DecidableEq, Repr

/-- NUNCHUCK (R35). -/
structure Nunchuck where
  x : Byte
  y : Byte
  lowerButton : Bool
  upperButton : Bool
deriving DecidableEq, Repr

/-- What a completed operation hands the host beside its status (R16, R100, "result" column). -/
inductive OpResult where
  /-- No result value. -/
  | none
  /-- CRC_READ and CRC16: a u16. -/
  | crc (c : Half)
  /-- GET_UINT8, GET_UINT16, GET_UINT32: an unsigned value. -/
  | unsigned (v : Nat)
  /-- GET_INT16, GET_INT32: a signed value. -/
  | signed (v : Int)
  /-- GET_BOOL. -/
  | bool (v : Bool)
  /-- GET_FLOAT16, GET_FLOAT32: the pair (raw, k); its exact value is raw / k (R151). -/
  | scaled (raw : Int) (k : Rat)
  /-- PACK: the frame length L + 5. -/
  | length (n : Nat)
  /-- UNPACK: a status and, for OK only, a payload. -/
  | unpacked (st : Status) (payload : Option Bytes)
  /-- RECEIVE: the results are the registers RX_RESULT and RX_DIAG themselves (R203). -/
  | received
  /-- DECODE: a status and the touched set, empty unless the status is OK (R230, R237). -/
  | decoded (st : Status) (touched : List TelemetryField)
  /-- The host's read of a telemetry field: its raw value and its scale (R20, R30). -/
  | telemetry (raw : Int) (scale : Rat)
deriving DecidableEq, Repr

/-- One item of the host's program. An operation whose line has been read stands in it by itself: the rest of a
pseudo-operation's expansion (R102). -/
inductive HostItem where
  /-- A line of text still to be issued (R101). -/
  | line (text : Bytes)
  /-- An operation of an expansion still to be issued (R102). -/
  | op (i : Instr)
  /-- A read of a telemetry field (R20, R18). -/
  | readField (f : TelemetryField)
  /-- The second half of EXCHANGE d: if RX_RESULT's status is OK with payload p, DECODE d, p (R102). -/
  | decodeIfOk (d : Dialect)
deriving DecidableEq, Repr

/-- One entry of the schedule: which agent moves in a step (R77, R191, R216). -/
inductive Turn where
  /-- An external agent moves. -/
  | world (m : WorldMove)
  /-- The block's turn; if a byte and the deadline are both pending, the byte step is taken. -/
  | byteFirst
  /-- The block's turn; if a byte and the deadline are both pending, the deadline step is taken. -/
  | deadlineFirst
deriving DecidableEq, Repr

/-- The state: the registers of R20, the external queues of R39, the clock, and the plain data that says
what the external agents do. -/
structure State where
  /-- CRC_ACC (R21). -/
  crcAcc : Half
  /-- PB[0..256) (R22). -/
  pb : Memory
  /-- CUR, 0..256 (R23). -/
  cur : Nat
  /-- RX_STATE (R24). -/
  rxState : RxState
  /-- RB[0..261) (R25). -/
  rb : Memory
  /-- RX_COUNT, 0..261 (R26). -/
  rxCount : Nat
  /-- RX_EXPECT, none or 5..260 (R27). -/
  rxExpect : Option Nat
  /-- RX_DIAG (R28). -/
  rxDiag : RxDiag
  /-- RX_RESULT: none, or a status and, for OK only, a payload (R29). -/
  rxResult : Option (Status × Option Bytes)
  /-- MC_SNAP (R32). -/
  mcSnap : McSnap
  /-- BMS_SNAP (R33). -/
  bmsSnap : BmsSnap
  /-- NUNCHUCK (R35). -/
  nunchuck : Nunchuck
  /-- STATUS (R37). -/
  status : Status
  /-- FAULT (R37). -/
  fault : Option FaultReason
  /-- The result value of the last completed operation (R16, R100). -/
  result : OpResult
  /-- INQ, oldest byte first (R39). -/
  inq : Bytes
  /-- OUTQ, oldest byte first (R39). -/
  outq : Bytes
  /-- DIAGQ, oldest event first (R39). -/
  diagq : List DiagEvent
  /-- The clock agent's now(), in ticks (R8, R284). -/
  now : Nat
  /-- t0, the start of the current or last attempt (R190). -/
  t0 : Nat
  /-- The configuration of this instance (R10, R38): no operation changes it. -/
  cfg : Config
  /-- The host's program: what it has still to issue, in order (R7, R36). -/
  host : List HostItem
  /-- What the next steps are, where the order of the agents matters (R77). The model's own field. -/
  schedule : List Turn
  /-- How many free values steps have used (assumption 5). The model's own field. -/
  freeIdx : Nat
deriving DecidableEq, Repr

/-- Why the machine stops with a fault. -/
inductive Fault where
  /-- Raised by every operation other than RESET, and by every step of an attempt, while FAULT ≠ none: the
  block has no step (R277). Safe: the block is stuck, as the spec says. -/
  | faulted (r : FaultReason)
  /-- Raised by the byte step in BODY when RX_COUNT is above 260: RB has no such cell (R25, R60). No run
  from a state of the invariant reaches it (R206). Safe: the machine stops. -/
  | noSuchCell
deriving DecidableEq, Repr

/-- Why the model gives no meaning. -/
inductive Refusal where
  /-- Raised by an arm of exec whose instruction has no meaning yet. Safe. -/
  | notModelled (mnemonic : String)
  /-- Raised by every step and operation under a configuration with two equal decoded ids in one dialect:
  "A configuration that breaks this is refused" (R10). Safe. -/
  | configuration
  /-- Raised by an operation with an operand outside its stated domain: it "is refused by the
  well-formedness check, not executed" (41_field_codec.md). Safe. -/
  | operandDomain
  /-- Raised by a host operation other than RESET during an attempt: the host issues nothing then (R7). No
  step of the machine does it. Safe. -/
  | hostBlocked
  /-- Raised by a wire row where the receiver is not in the state its rule names (R193 to R195, R199): that
  byte step is not enabled. No step of the machine does it. Safe. -/
  | notEnabled
  /-- Raised by a step that fetches a line that is no operation of R100 to R102. Safe. -/
  | undecodable (e : DecodeError)
deriving DecidableEq, Repr

/-- The three outcomes of a step of this machine. -/
abbrev Out := Host.Outcome State Fault Refusal

/-- MC_SNAP after reset: every field none (R300). -/
def McSnap.reset : McSnap where
  fwMajor := .none
  fwMinor := .none
  tempMotor := .none
  avgMotorCurrent := .none
  avgInputCurrent := .none
  rpm := .none
  inputVoltage := .none
  wattHours := .none
  wattHoursCharged := .none
  faultCode := .none
  throttle := .none

/-- BMS_SNAP after reset: every field none (R300). -/
def BmsSnap.reset : BmsSnap where
  soc := .none
  cellCount := .none
  cellVoltage := Vector.replicate 12 .none

/-- NUNCHUCK's default {127, 127, false, false} (R35, R300). -/
def Nunchuck.reset : Nunchuck where
  x := 127
  y := 127
  lowerButton := false
  upperButton := false

/-- The state when the block first exists (R301): every register as RESET leaves it (R300); the queues empty,
the clock at 0, nothing scheduled and no program issued (assumption 2); the configuration Config.reference
(assumption 1). -/
def State.reset : State where
  crcAcc := 0x0000
  pb := []
  cur := 0
  rxState := .inactive
  rb := []
  rxCount := 0
  rxExpect := .none
  rxDiag := ⟨false, false⟩
  rxResult := .none
  mcSnap := McSnap.reset
  bmsSnap := BmsSnap.reset
  nunchuck := Nunchuck.reset
  status := .ok
  fault := .none
  result := .none
  inq := []
  outq := []
  diagq := []
  now := 0
  t0 := 0
  cfg := Config.reference
  host := []
  schedule := []
  freeIdx := 0

end Sys2Proof.Machine
end

