-- ==== Sys2Proof/Machine/Flags.lean ====
section
/-! DEFINITION. The status side of an operation: STATUS and its codes (60_exceptions.md R270), the fault
reasons (R275), the diagnostic bits and events (R28, R278). -/

namespace Sys2Proof.Machine

/-- The number of a status (R270). -/
def Status.code : Status → Nat
  | .ok => 0
  | .invalidStartMarker => 1
  | .unsupportedFrameType => 2
  | .bufferOverflow => 3
  | .timeout => 4
  | .checksumMismatch => 5
  | .unsupportedCommand => 6
  | .malformedFrame => 7
  | .payloadTooLong => 8
  | .payloadTooShort => 9

/-- The number of a fault reason (R275). -/
def FaultReason.code : FaultReason → Nat
  | .overrun => 1
  | .unwritten => 2
  | .notFinite => 3
  | .range => 4

/-- The operation completes: STATUS <- st, and the result goes to the host (R16, R37, R272). -/
def State.complete (st : Status) (res : OpResult) (s : State) : State :=
  { s with status := st, result := res }

/-- DIAGQ after an event is sent: the sink's queue with the event at its end, or unchanged where no sink is
connected: "events are dropped" (R278). -/
def State.diagqAfter (e : DiagEvent) (s : State) : List DiagEvent :=
  if s.cfg.sinkConnected then s.diagq ++ [e] else s.diagq

/-- The step that classifies an invalid candidate sets the bit and sends the event (R195, R278). -/
def State.noteInvalidStart (s : State) : State :=
  { s with
    rxDiag := { s.rxDiag with seenInvalidStart := true }
    diagq := s.diagqAfter .invalidStartMarker }

/-- The step that classifies a long-frame candidate sets the bit and sends the event (R194, R278). -/
def State.noteLongFrame (s : State) : State :=
  { s with
    rxDiag := { s.rxDiag with seenLongFrame := true }
    diagq := s.diagqAfter .unsupportedFrameType }

end Sys2Proof.Machine
end

