-- ==== Sys2Proof/Machine/Ops.lean ====
section
/-! DEFINITION. The named operations: the memories PB and RB, the conditions under which an operation runs,
sequencing, taking a fault, and RESET's effect on the registers. -/

namespace Sys2Proof.Machine

/-! ## Memories (R18, R22, R25) -/

/-- The canonical form: strictly rising addresses. Every listed cell holds a byte and an unlisted one reads
`none`, so no entry can equal what an unlisted address reads as. -/
abbrev Memory.wf (m : Memory) : Prop := m.Pairwise (fun x y => x.1 < y.1)

/-- Every listed address lies below the capacity (R60). -/
abbrev Memory.below (n : Nat) (m : Memory) : Prop := ∀ c ∈ m, c.1 < n

/-- The content of a cell: `none` where nothing has written it (R18). -/
def Memory.read : Memory → Nat → Option Byte
  | [], _ => none
  | (k, v) :: m, a => if k = a then some v else Memory.read m a

/-- Write one cell. -/
def Memory.write : Memory → Nat → Byte → Memory
  | [], a, b => [(a, b)]
  | (k, v) :: m, a, b =>
    if a < k then (a, b) :: (k, v) :: m
    else if a = k then (a, b) :: m
    else (k, v) :: Memory.write m a b

/-- Set one cell to `none` (R196). -/
def Memory.erase (m : Memory) (a : Nat) : Memory := m.filter (fun c => c.1 != a)

/-- MemWrite(buf, a, |bs|, bs) (R14). -/
def Memory.writeBytes : Memory → Nat → Bytes → Memory
  | m, _, [] => m
  | m, a, b :: bs => Memory.writeBytes (Memory.write m a b) (a + 1) bs

/-- MemRead(buf, a, n) (R14): `none` when one of the cells holds `none`. -/
def Memory.readBytes (m : Memory) : Nat → Nat → Option Bytes
  | _, 0 => some []
  | a, n + 1 =>
    match Memory.read m a, Memory.readBytes m (a + 1) n with
    | some b, some bs => some (b :: bs)
    | _, _ => none

/-- The memory that holds the string from address `a` on, and nothing else. -/
def Memory.ofBytesFrom : Nat → Bytes → Memory
  | _, [] => []
  | a, b :: bs => (a, b) :: Memory.ofBytesFrom (a + 1) bs

/-- The memory that holds the string from index 0 on, and nothing else (R134). -/
def Memory.ofBytes (bs : Bytes) : Memory := Memory.ofBytesFrom 0 bs

/-! ## When an operation runs -/

/-- PB_CAP (R9). -/
def pbCap : Nat := 256

/-- RX_CAP (R9). -/
def rxCap : Nat := 261

/-- A host operation other than RESET: the configuration must have a meaning (R10), its operands lie in
their domains, FAULT is none (R277, R280), and no attempt is in progress (R7). Then it does `f`. -/
def hostOp (domain : Bool) (s : State) (f : State → Out) : Out :=
  if s.cfg.valid = false then .refused .configuration
  else if domain = false then .refused .operandDomain
  else
    match s.fault with
    | some r => .fault (.faulted r)
    | none => if s.rxState = .inactive then f s else .refused .hostBlocked

/-- A byte step: the configuration must have a meaning, FAULT is none (R277), and the receiver is where the
step's rule says. Then it does `f`. -/
def wireOp (enabled : Bool) (s : State) (f : State → Out) : Out :=
  if s.cfg.valid = false then .refused .configuration
  else
    match s.fault with
    | some r => .fault (.faulted r)
    | none => if enabled then f s else .refused .notEnabled

/-- The next operation runs where the one before it completed (R72). -/
def andThen (o : Out) (f : State → Out) : Out :=
  match o with
  | .next s => f s
  | .fault r => .fault r
  | .refused r => .refused r

/-- A pseudo-operation (R102): its first operation's outcome, and the rest of its expansion as the host's next
items, each issued in a step of its own (R6). -/
def expandTo (first : Out) (rest : List Instr) : Out :=
  andThen first fun s => .next { s with host := rest.map HostItem.op ++ s.host }

/-- A sequence of operations, each on the state the one before it left (R72). -/
def runAll : List (State → Out) → State → Out
  | [], s => .next s
  | f :: fs, s => andThen (f s) (runAll fs)

/-! ## Taking a fault (R276), and RESET (R300), which alone clears it -/

/-- The state after fault entry: "if FAULT = none then FAULT <- some reason", nothing else (R276). -/
def State.enterFault (r : FaultReason) (s : State) : State :=
  { s with fault := some (s.fault.getD r) }

/-- raise Fault(r): taking a fault, the one exception this block has (R276, R282). Its return is RESET
(R277). -/
def raiseFault (r : FaultReason) (s : State) : Out := .next (s.enterFault r)

/-- Every register at its reset value; INQ, OUTQ, DIAGQ, the configuration, the clock and the external
agents' own data unchanged (R39, R300). -/
def State.resetRegisters (s : State) : State :=
  { s with
    crcAcc := 0x0000
    pb := []
    cur := 0
    rxState := .inactive
    rb := []
    rxCount := 0
    rxExpect := none
    rxDiag := ⟨false, false⟩
    rxResult := none
    mcSnap := McSnap.reset
    bmsSnap := BmsSnap.reset
    nunchuck := Nunchuck.reset
    status := .ok
    fault := none
    result := .none }

end Sys2Proof.Machine
end

