-- ==== Sys2Proof/Machine/Dispatcher.lean ====
section
/-! DEFINITION. The command payload dispatcher (44_command_decoder.md): DECODE and the payload rows. -/

namespace Sys2Proof.Machine

/-- The minimum payload length of a command (R232). -/
def minLen : Command → Nat
  | .fwVersion => 3
  | .getValuesSetupSelective => 30
  | .getDecodedPpm => 5
  | .bmsGetValues => 10
  | .bmsGetBmsCells => 26

/-- The touched set of a command, in the order of its rule (R238 to R246). -/
def touchedBy : Command → List TelemetryField
  | .fwVersion => [.fwMajor, .fwMinor]
  | .getValuesSetupSelective =>
    [.tempMotor, .avgMotorCurrent, .avgInputCurrent, .rpm, .inputVoltage, .wattHours, .wattHoursCharged,
      .faultCode]
  | .getDecodedPpm => [.throttle]
  | .bmsGetValues => [.soc]
  | .bmsGetBmsCells => .cellCount :: (List.finRange 12).map .cellVoltage

/-- FW_VERSION's fields (R89, R238). -/
def writeFwVersion (p : Bytes) (m : McSnap) : McSnap :=
  { m with fwMajor := some (u8at p 1), fwMinor := some (u8at p 2) }

/-- GET_VALUES_SETUP_SELECTIVE's fields; the mask p[1..5) is skipped whatever its value (R90, R240, R241). -/
def writeSetupSelective (p : Bytes) (m : McSnap) : McSnap :=
  { m with
    tempMotor := some (s16at p 5)
    avgMotorCurrent := some (s32at p 7)
    avgInputCurrent := some (s32at p 11)
    rpm := some (s32at p 15)
    inputVoltage := some (s16at p 19)
    wattHours := some (s32at p 21)
    wattHoursCharged := some (s32at p 25)
    faultCode := some (u8at p 29) }

/-- GET_DECODED_PPM's field (R91, R242). -/
def writeDecodedPpm (p : Bytes) (m : McSnap) : McSnap := { m with throttle := some (s32at p 1) }

/-- BMS GET_VALUES's field; p[1..9) is skipped (R92, R244). -/
def writeBmsValues (p : Bytes) (m : BmsSnap) : BmsSnap := { m with soc := some (u8at p 9) }

/-- GET_BMS_CELLS's fields: the count as received and all 12 cells whatever it says (R93, R246, R247). -/
def writeBmsCells (p : Bytes) (m : BmsSnap) : BmsSnap :=
  { m with
    cellCount := some (u8at p 1)
    cellVoltage := Vector.ofFn fun i : Fin 12 => some (s16at p (2 + 2 * i.val)) }

/-- Write the fields of a command in its dialect's snapshot, all at once (R230, R233, R248). -/
def writeFields (c : Command) (p : Bytes) (s : State) : State :=
  match c with
  | .fwVersion => { s with mcSnap := writeFwVersion p s.mcSnap }
  | .getValuesSetupSelective => { s with mcSnap := writeSetupSelective p s.mcSnap }
  | .getDecodedPpm => { s with mcSnap := writeDecodedPpm p s.mcSnap }
  | .bmsGetValues => { s with bmsSnap := writeBmsValues p s.bmsSnap }
  | .bmsGetBmsCells => { s with bmsSnap := writeBmsCells p s.bmsSnap }

/-! ## What a telemetry field means (R30, R32, R33) -/

/-- The fixed scale of a field, 1 where its row gives none (R32, R33). -/
def scaleOf : TelemetryField → Rat
  | .fwMajor => 1
  | .fwMinor => 1
  | .tempMotor => 10
  | .avgMotorCurrent => 100
  | .avgInputCurrent => 100
  | .rpm => 1
  | .inputVoltage => 10
  | .wattHours => 10000
  | .wattHoursCharged => 10000
  | .faultCode => 1
  | .throttle => 10000
  | .soc => 1
  | .cellCount => 1
  | .cellVoltage _ => 1000

/-- The raw value a field holds, none until a DECODE writes it (R31). -/
def rawOf (f : TelemetryField) (s : State) : Option Int :=
  match f with
  | .fwMajor => s.mcSnap.fwMajor.map (fun b => (b.toNat : Int))
  | .fwMinor => s.mcSnap.fwMinor.map (fun b => (b.toNat : Int))
  | .tempMotor => s.mcSnap.tempMotor
  | .avgMotorCurrent => s.mcSnap.avgMotorCurrent
  | .avgInputCurrent => s.mcSnap.avgInputCurrent
  | .rpm => s.mcSnap.rpm
  | .inputVoltage => s.mcSnap.inputVoltage
  | .wattHours => s.mcSnap.wattHours
  | .wattHoursCharged => s.mcSnap.wattHoursCharged
  | .faultCode => s.mcSnap.faultCode.map (fun b => (b.toNat : Int))
  | .throttle => s.mcSnap.throttle
  | .soc => s.bmsSnap.soc.map (fun b => (b.toNat : Int))
  | .cellCount => s.bmsSnap.cellCount.map (fun b => (b.toNat : Int))
  | .cellVoltage i => s.bmsSnap.cellVoltage[i]

/-- A field's meaning, the exact rational raw / scale (R30). -/
def telemetryValue (f : TelemetryField) (s : State) : Option Rat :=
  (rawOf f s).map (fun raw => (raw : Rat) / scaleOf f)

/-- The host's floating value of a field: the open function toFloat of its raw value and scale (R30). -/
def telemetryFloat (f : TelemetryField) (s : State) : Option Nat :=
  (rawOf f s).map (fun raw => s.cfg.toFloat raw (scaleOf f))

/-- The host reads a telemetry field (R20): its raw value and scale, or Fault(Unwritten) where it holds none (R18,
R302). DESIGN CHOICE (assumption 19): it is issued like an operation, and writes no STATUS. -/
def readField (f : TelemetryField) (s : State) : Out :=
  hostOp true s fun s =>
    match rawOf f s with
    | none => raiseFault .unwritten s
    | some raw => .next { s with result := .telemetry raw (scaleOf f) }

/-! ## DECODE -/

/-- UnsupportedCommand: no snapshot field changes (R231, R234). -/
def State.unsupported (s : State) : State :=
  s.complete .unsupportedCommand (.decoded .unsupportedCommand [])

/-- DECODE after its command is known: a payload shorter than the command's minimum writes nothing (R235);
bytes beyond it are ignored (R236). -/
def runCommand (c : Command) (p : Bytes) (s : State) : State :=
  if p.length < minLen c then s.complete .payloadTooShort (.decoded .payloadTooShort [])
  else (writeFields c p s).complete .ok (.decoded .ok (touchedBy c))

/-- The body of DECODE d, p (R230). -/
def decodeBody (d : Dialect) (p : Bytes) (s : State) : State :=
  match p with
  | [] => s.unsupported
  | id :: _ =>
    match dispatch s.cfg d id with
    | none => s.unsupported
    | some c => runCommand c p s

/-- DECODE d, p (R230). -/
def execDecode (d : Dialect) (p : Bytes) (s : State) : Out :=
  hostOp (inPayload p) s fun s => .next (decodeBody d p s)

/-- A payload with FW_VERSION's id in the MC dialect (R238). -/
def execCmdFwVersion (fields : Bytes) (s : State) : Out :=
  hostOp (inFields fields) s fun s => .next (runCommand .fwVersion (s.cfg.cmdFwVersion :: fields) s)

/-- A payload with GET_VALUES_SETUP_SELECTIVE's id in the MC dialect (R240). -/
def execCmdGetValuesSetupSelective (fields : Bytes) (s : State) : Out :=
  hostOp (inFields fields) s fun s =>
    .next (runCommand .getValuesSetupSelective (s.cfg.cmdGetValuesSetupSelective :: fields) s)

/-- A payload with GET_DECODED_PPM's id in the MC dialect (R242). -/
def execCmdGetDecodedPpm (fields : Bytes) (s : State) : Out :=
  hostOp (inFields fields) s fun s => .next (runCommand .getDecodedPpm (s.cfg.cmdGetDecodedPpm :: fields) s)

/-- A payload with GET_VALUES's id in the BMS dialect (R244). -/
def execCmdBmsGetValues (fields : Bytes) (s : State) : Out :=
  hostOp (inFields fields) s fun s => .next (runCommand .bmsGetValues (s.cfg.cmdBmsGetValues :: fields) s)

/-- A payload with GET_BMS_CELLS's id in the BMS dialect (R246). -/
def execCmdBmsGetBmsCells (fields : Bytes) (s : State) : Out :=
  hostOp (inFields fields) s fun s => .next (runCommand .bmsGetBmsCells (s.cfg.cmdBmsGetBmsCells :: fields) s)

/-- A payload that starts with an outbound id, decoded in the MC dialect: UnsupportedCommand, unless the id
value equals a decoded id of that dialect (R249). -/
def outboundBody (id : Byte) (fields : Bytes) (s : State) : State := decodeBody .mc (id :: fields) s

/-- FORWARD_TO_PEER's id (R249). -/
def execCmdForwardToPeer (fields : Bytes) (s : State) : Out :=
  hostOp (inFields fields) s fun s => .next (outboundBody s.cfg.cmdForwardToPeer fields s)

/-- SET_CHUCK_DATA's id (R249). -/
def execCmdSetChuckData (fields : Bytes) (s : State) : Out :=
  hostOp (inFields fields) s fun s => .next (outboundBody s.cfg.cmdSetChuckData fields s)

/-- SET_CURRENT's id (R249). -/
def execCmdSetCurrent (fields : Bytes) (s : State) : Out :=
  hostOp (inFields fields) s fun s => .next (outboundBody s.cfg.cmdSetCurrent fields s)

/-- SET_CURRENT_BRAKE's id (R249). -/
def execCmdSetCurrentBrake (fields : Bytes) (s : State) : Out :=
  hostOp (inFields fields) s fun s => .next (outboundBody s.cfg.cmdSetCurrentBrake fields s)

/-- SET_RPM's id (R249). -/
def execCmdSetRpm (fields : Bytes) (s : State) : Out :=
  hostOp (inFields fields) s fun s => .next (outboundBody s.cfg.cmdSetRpm fields s)

/-- SET_DUTY's id (R249). -/
def execCmdSetDuty (fields : Bytes) (s : State) : Out :=
  hostOp (inFields fields) s fun s => .next (outboundBody s.cfg.cmdSetDuty fields s)

/-- No row of R232 has the payload's (dialect, id) pair, or the payload is empty (R231, R234). -/
def isUnknown (c : Config) (d : Dialect) (p : Bytes) : Bool :=
  match p with
  | [] => true
  | id :: _ => (dispatch c d id).isNone

/-- CMD_UNKNOWN: a payload without a decoded row (R231, R234). A payload with one is not in this row's
domain. -/
def execCmdUnknown (d : Dialect) (p : Bytes) (s : State) : Out :=
  hostOp (inPayload p && isUnknown s.cfg d p) s fun s => .next s.unsupported

end Sys2Proof.Machine
end

