-- ==== Sys2Proof/Machine/FieldCodec.lean ====
section
/-! DEFINITION. The field codec (41_field_codec.md): PB and CUR. -/

namespace Sys2Proof.Machine

/-- The check CUR + w ≤ PB_CAP before an operation moves or skips w bytes (R131). -/
def withRoom (w : Nat) (s : State) (f : State → Out) : Out :=
  if s.cur + w ≤ pbCap then f s else raiseFault .overrun s

/-- Write the bytes at CUR and advance CUR by their number (R130). -/
def State.putBytes (bs : Bytes) (s : State) : State :=
  { s with pb := s.pb.writeBytes s.cur bs, cur := s.cur + bs.length }

/-- An APPEND_* of the bytes of one field (R130, R131). -/
def appendField (bs : Bytes) (s : State) : Out :=
  withRoom bs.length s fun s => .next ((s.putBytes bs).complete .ok .none)

/-- A GET_* of one field of `w` bytes: the bound check, then the unwritten check, then the value and the
advance of CUR (R130 to R132). -/
def getField (w : Nat) (value : Bytes → OpResult) (s : State) : Out :=
  withRoom w s fun s =>
    match s.pb.readBytes s.cur w with
    | none => raiseFault .unwritten s
    | some bs => .next ({ s with cur := s.cur + w }.complete .ok (value bs))

/-- scaledRaw(v, k, N), N given by its signed range: the exact product, rounded as SCALE_ROUND says, or the
fault (R148). -/
def scaledRaw (c : Config) (inRange : Int → Bool) (v : FloatIn) (k : Rat) : Except FaultReason Int :=
  match v.toRat c with
  | none => .error .notFinite
  | some q =>
    let r := roundScaled c.scaleRound (q * k)
    if inRange r then .ok r else .error .range

/-- An APPEND_FLOAT of `w` bytes; faults in the order Overrun, NotFinite, Range (R149, R280). -/
def appendScaled (w : Nat) (inRange : Int → Bool) (bytes : Int → Bytes) (v : FloatIn) (k : Rat)
    (s : State) : Out :=
  withRoom w s fun s =>
    match scaledRaw s.cfg inRange v k with
    | .error e => raiseFault e s
    | .ok r => appendField (bytes r) s

/-- FC_CLEAR (R133). -/
def execFcClear (s : State) : Out :=
  hostOp true s fun s => .next ({ s with pb := [], cur := 0 }.complete .ok .none)

/-- FC_LOAD s (R134). -/
def execFcLoad (str : Bytes) (s : State) : Out :=
  hostOp (inLoad str) s fun s => .next ({ s with pb := Memory.ofBytes str, cur := 0 }.complete .ok .none)

/-- FC_SKIP n (R135): PB is unchanged. -/
def execFcSkip (n : Int) (s : State) : Out :=
  hostOp (inSkip n) s fun s =>
    withRoom n.toNat s fun s => .next ({ s with cur := s.cur + n.toNat }.complete .ok .none)

/-- APPEND_UINT8 v (R136). -/
def execAppendUint8 (v : Int) (s : State) : Out := hostOp (inU8 v) s (appendField (encodeU8 v))

/-- GET_UINT8 (R137). -/
def execGetUint8 (s : State) : Out := hostOp true s (getField 1 fun bs => .unsigned (readU8 bs))

/-- APPEND_BOOL v (R138). -/
def execAppendBool (v : Bool) (s : State) : Out := hostOp true s (appendField (encodeBool v))

/-- GET_BOOL (R139). -/
def execGetBool (s : State) : Out := hostOp true s (getField 1 fun bs => .bool (readBool bs))

/-- APPEND_INT16 v (R140). -/
def execAppendInt16 (v : Int) (s : State) : Out := hostOp (inS16 v) s (appendField (encode16 v))

/-- APPEND_UINT16 v (R141). -/
def execAppendUint16 (v : Int) (s : State) : Out := hostOp (inU16 v) s (appendField (encode16 v))

/-- APPEND_INT32 v (R142). -/
def execAppendInt32 (v : Int) (s : State) : Out := hostOp (inS32 v) s (appendField (encode32 v))

/-- APPEND_UINT32 v (R143). -/
def execAppendUint32 (v : Int) (s : State) : Out := hostOp (inU32 v) s (appendField (encode32 v))

/-- GET_INT16 (R144). -/
def execGetInt16 (s : State) : Out := hostOp true s (getField 2 fun bs => .signed (readS16 bs))

/-- GET_UINT16 (R145). -/
def execGetUint16 (s : State) : Out := hostOp true s (getField 2 fun bs => .unsigned (readU16 bs))

/-- GET_INT32 (R146). -/
def execGetInt32 (s : State) : Out := hostOp true s (getField 4 fun bs => .signed (readS32 bs))

/-- GET_UINT32 (R147). -/
def execGetUint32 (s : State) : Out := hostOp true s (getField 4 fun bs => .unsigned (readU32 bs))

/-- APPEND_FLOAT16 v, k (R149). -/
def execAppendFloat16 (v : FloatIn) (k : Rat) (s : State) : Out :=
  hostOp (inScale k) s (appendScaled 2 inS16 encode16 v k)

/-- APPEND_FLOAT32 v, k (R150). -/
def execAppendFloat32 (v : FloatIn) (k : Rat) (s : State) : Out :=
  hostOp (inScale k) s (appendScaled 4 inS32 encode32 v k)

/-- GET_FLOAT16 k (R151). -/
def execGetFloat16 (k : Rat) (s : State) : Out :=
  hostOp (inScale k) s (getField 2 fun bs => .scaled (readS16 bs) k)

/-- GET_FLOAT32 k (R152). -/
def execGetFloat32 (k : Rat) (s : State) : Out :=
  hostOp (inScale k) s (getField 4 fun bs => .scaled (readS32 bs) k)

/-- The exact value of a scaled result, raw / k (R151). -/
def scaledValue (raw : Int) (k : Rat) : Rat := raw / k

/-- The host's floating value of a scaled result: the open function toFloat(raw, k) (R151). -/
def scaledFloat (c : Config) (raw : Int) (k : Rat) : Nat := c.toFloat raw k

end Sys2Proof.Machine
end

