-- ==== Sys2Proof/Machine/Crc.lean ====
section
/-! DEFINITION. The CRC-16 generator (40_crc16.md). -/

namespace Sys2Proof.Machine

/-- CRC_POLY (R9, R110). -/
def crcPoly : Half := 0x1021

/-- CRC_INIT, the initial value (R9, R110). -/
def crcInitValue : Half := 0x0000

/-- CRC_XOROUT (R9, R110). -/
def crcXorOut : Half := 0x0000

/-- One bit of the division, most significant bit first (R112). -/
def crcShift (c : Half) : Half := if c.msb then (c <<< 1) ^^^ crcPoly else c <<< 1

/-- The body of CRC_UPDATE: one byte (R112). -/
def crcUpdate (c : Half) (b : Byte) : Half :=
  Nat.repeat crcShift 8 (c ^^^ (b.setWidth 16 <<< 8))

/-- The running value over a string, from any start (R114, R116). -/
def crcFold (c : Half) (s : Bytes) : Half := s.foldl crcUpdate c

/-- crc16(s) (R114). -/
def crc16 (s : Bytes) : Half := crcFold crcInitValue s ^^^ crcXorOut

/-- T[i] = update(0x0000, i) (R115). -/
def crcTable (i : Byte) : Half := crcUpdate 0x0000 i

/-- CRC_INIT (R111). -/
def execCrcInit (s : State) : Out :=
  hostOp true s fun s => .next ({ s with crcAcc := crcInitValue }.complete .ok .none)

/-- CRC_UPDATE b (R112). -/
def execCrcUpdate (b : Byte) (s : State) : Out :=
  hostOp true s fun s => .next ({ s with crcAcc := crcUpdate s.crcAcc b }.complete .ok .none)

/-- CRC_READ (R113). -/
def execCrcRead (s : State) : Out :=
  hostOp true s fun s => .next (s.complete .ok (.crc s.crcAcc))

/-- CRC16 s (R114): CRC_ACC is neither read nor written. -/
def execCrc16 (str : Bytes) (s : State) : Out :=
  hostOp true s fun s => .next (s.complete .ok (.crc (crc16 str)))

end Sys2Proof.Machine
end

