-- ==== Sys2Proof/Machine/FrameCodec.lean ====
section
/-! DEFINITION. The frame codec: PACK and UNPACK (42_frame_codec.md). -/

namespace Sys2Proof.Machine

/-- PAYLOAD_MAX (R9). -/
def payloadMax : Nat := 255

/-- FRAME_OVERHEAD: start, length, two CRC bytes, end (R9). -/
def frameOverhead : Nat := 5

/-- frame(p) (R80, R170). -/
def frame (p : Bytes) : Bytes :=
  [startShort, BitVec.ofNat 8 p.length] ++ p ++ bytes16 (crc16 p) ++ [endMarkByte]

/-- UNPACK's envelope: length 5..260, the start marker, the length byte, the end marker (R173, R174). -/
def envelopeOk (raw : Bytes) : Bool :=
  decide (5 ≤ raw.length) && decide (raw.length ≤ 260)
    && raw.getD 0 0 == startShort
    && (raw.getD 1 0).toNat == raw.length - 5
    && raw.getD (raw.length - 1) 0 == endMarkByte

/-- The payload bytes raw[2 .. n − 3) (R173). -/
def framePayload (raw : Bytes) : Bytes := (raw.drop 2).take (raw.length - 5)

/-- The CRC field be16(raw[n−3 .. n−1)) (R173). -/
def frameCrc (raw : Bytes) : Half :=
  be16 (raw.getD (raw.length - 3) 0) (raw.getD (raw.length - 2) 0)

/-- unpack(raw): a status and, for OK only, the payload (R173 to R175). -/
def unpack (raw : Bytes) : Status × Option Bytes :=
  if envelopeOk raw = false then (.malformedFrame, none)
  else if crc16 (framePayload raw) ≠ frameCrc raw then (.checksumMismatch, none)
  else (.ok, some (framePayload raw))

/-- PACK (R171, R172): PB and CUR are unchanged, CRC_ACC is not used (R176). -/
def execPack (s : State) : Out :=
  hostOp true s fun s =>
    if s.cur > payloadMax then .next (s.complete .payloadTooLong .none)
    else
      match s.pb.readBytes 0 s.cur with
      | none => raiseFault .unwritten s
      | some p => .next ({ s with outq := s.outq ++ frame p }.complete .ok (.length (s.cur + frameOverhead)))

/-- UNPACK raw (R173). -/
def execUnpack (raw : Bytes) (s : State) : Out :=
  hostOp true s fun s => .next (s.complete (unpack raw).1 (.unpacked (unpack raw).1 (unpack raw).2))

end Sys2Proof.Machine
end

