-- ==== Sys2Proof/Machine/Receiver.lean ====
section
/-! DEFINITION. The frame receiver (43_frame_receiver.md): starting an attempt, the byte step, the deadline
step, and the end of an attempt. The byte steps that classify a candidate or store the end marker are the
wire rows of the opcode table; the byte itself has been taken from INQ by the step that fetched it. -/

namespace Sys2Proof.Machine

/-- The registers at the start of an attempt; t0 is read from the clock (R190). -/
def State.startAttempt (s : State) : State :=
  { s with
    rb := []
    rxCount := 0
    rxExpect := none
    rxDiag := ⟨false, false⟩
    rxResult := none
    t0 := s.now
    rxState := .idle }

/-- RECEIVE (R190). STATUS is written at the attempt's end (R203). -/
def execReceive (s : State) : Out := hostOp true s fun s => .next s.startAttempt

/-- end_attempt(st, pl) (R203). -/
def State.endAttempt (st : Status) (pl : Option Bytes) (s : State) : State :=
  { s with rxResult := some (st, pl), status := st, rxState := .inactive, result := .received }

/-- RB holds only the candidate start byte `b` (R192, R196, R197). -/
def State.startCandidate (b : Byte) (s : State) : State :=
  { s with rb := s.rb.write 0 b, rxCount := 1, rxState := .header }

/-- The second byte of a candidate is stored (R193 to R195). -/
def State.storeSecond (b : Byte) (s : State) : State :=
  { s with rb := s.rb.write 1 b, rxCount := 2 }

/-- Reject the candidate; the second byte is examined again as a hunt byte (R196). -/
def State.rejectCandidate (b : Byte) (s : State) : State :=
  let s' := { s with rb := (s.rb.erase 0).erase 1, rxCount := 0, rxExpect := none }
  if b = startShort then s'.startCandidate b else { s' with rxState := .hunt }

/-- Store a body byte at RX_COUNT (R198). -/
def State.storeBody (b : Byte) (s : State) : State :=
  { s with rb := s.rb.write s.rxCount b, rxCount := s.rxCount + 1 }

/-- The receiver is in HEADER and RB[0] satisfies the test. -/
def headerWith (test : Byte → Bool) (s : State) : Bool :=
  decide (s.rxState = .header) && (s.rb.read 0).any test

/-- The byte about to be stored is the frame's last: in BODY, RX_COUNT + 1 = RX_EXPECT (R199). -/
def atFrameEnd (s : State) : Bool :=
  decide (s.rxState = .body) && decide (s.rxExpect = some (s.rxCount + 1))

/-- FRAME_SHORT: the byte step in HEADER with start byte 0x02 (R193). -/
def execFrameShort (len : Byte) (s : State) : Out :=
  wireOp (headerWith (· == startShort) s) s fun s =>
    .next { s.storeSecond len with rxExpect := some (len.toNat + frameOverhead), rxState := .body }

/-- FRAME_LONG: the byte step in HEADER with start byte 0x03 (R194). -/
def execFrameLong (b : Byte) (s : State) : Out :=
  wireOp (headerWith (· == startLong) s) s fun s =>
    .next (((s.storeSecond b).noteLongFrame).rejectCandidate b)

/-- START_INVALID: the byte step in HEADER with any other start byte (R195). -/
def execStartInvalid (start b : Byte) (s : State) : Out :=
  wireOp (isInvalidStart start && headerWith (· == start) s) s fun s =>
    .next (((s.storeSecond b).noteInvalidStart).rejectCandidate b)

/-- Complete: with the last byte stored, UNPACK of RB[0 .. RX_COUNT) and the end of the attempt with its
result (R200). A cell that holds `none` is an unwritten read (R18), and a fault changes nothing else (R276);
no run from a state of the invariant meets one. -/
def completeFrame (s : State) : Out :=
  match (s.storeBody endMarkByte).rb.readBytes 0 (s.rxCount + 1) with
  | none => raiseFault .unwritten s
  | some raw => .next ((s.storeBody endMarkByte).endAttempt (unpack raw).1 (unpack raw).2)

/-- END_MARK: the byte step in BODY that stores 0x03 as the frame's last byte (R198 to R200). -/
def execEndMark (s : State) : Out :=
  wireOp (atFrameEnd s) s fun s =>
    if s.rxCount < rxCap then completeFrame s else .fault .noSuchCell

/-- The byte step in IDLE (R192). -/
def idleByte (b : Byte) (s : State) : Out := .next (s.startCandidate b)

/-- The byte step in HUNT (R197). -/
def huntByte (b : Byte) (s : State) : Out :=
  if b = startShort then .next (s.startCandidate b) else .next s

/-- The byte step in HEADER: the start byte in RB[0] selects the wire row (R193 to R195, R210). -/
def headerByte (b : Byte) (s : State) : Out :=
  match s.rb.read 0 with
  | none => raiseFault .unwritten s
  | some start =>
    match decodeStart start b with
    | .frameShort len => execFrameShort len s
    | .frameLong b' => execFrameLong b' s
    | _ => execStartInvalid start b s

/-- The byte step in BODY when the byte is not the frame's last: store it, then the overflow check (R198,
R205; the check never fires, R206). -/
def innerByte (b : Byte) (s : State) : Out :=
  if s.rxCount < rxCap then
    let s' := s.storeBody b
    if s'.rxCount = rxCap then .next (s'.endAttempt .bufferOverflow none) else .next s'
  else .fault .noSuchCell

/-- The byte step in BODY that stores a last byte other than 0x03 (R202). -/
def malformedByte (b : Byte) (s : State) : Out :=
  if s.rxCount < rxCap then .next ((s.storeBody b).endAttempt .malformedFrame none) else .fault .noSuchCell

/-- The byte step in BODY (R198, R199, R210). -/
def bodyByte (b : Byte) (s : State) : Out :=
  if atFrameEnd s then
    match decodeEnd b with
    | .ok _ => execEndMark s
    | .error _ => malformedByte b s
  else innerByte b s

/-- The byte step in full, the byte taken (R210). -/
def rxByteStep (b : Byte) (s : State) : Out :=
  match s.rxState with
  | .inactive => .refused .notEnabled
  | .idle => idleByte b s
  | .header => headerByte b s
  | .hunt => huntByte b s
  | .body => bodyByte b s

/-- The deadline has passed: now() ≥ t0 + RX_DEADLINE (R213). -/
def deadlinePassed (s : State) : Bool := decide (s.t0 + s.cfg.rxDeadline ≤ s.now)

/-- The deadline step (R213). -/
def deadlineStep (s : State) : Out := .next (s.endAttempt .timeout none)

end Sys2Proof.Machine
end

