-- ==== Sys2Proof/Machine/Control.lean ====
section
/-! DEFINITION. SET_NUNCHUCK, RESET, and the pseudo-operations (44_command_decoder.md R250,
70_reset_and_hazards.md R300, 30_encoding.md R102). -/

namespace Sys2Proof.Machine

/-- SET_NUNCHUCK x, y, lower, upper (R250). -/
def execSetNunchuck (x y : Int) (lower upper : Bool) (s : State) : Out :=
  hostOp (inU8 x && inU8 y) s fun s =>
    .next ({ s with nunchuck := ⟨wrap8 x, wrap8 y, lower, upper⟩ }.complete .ok .none)

/-- RESET (R300): at any step, during an attempt and while FAULT is set. -/
def execReset (s : State) : Out :=
  if s.cfg.valid = false then .refused .configuration else .next s.resetRegisters

/-- SEND p: FC_LOAD p ; FC_SKIP |p| ; PACK (R102). DESIGN CHOICE (assumption 7): its first operation runs in this
step and the others are the host's next items. -/
def execSend (p : Bytes) (s : State) : Out :=
  hostOp (inPayload p) s fun s => expandTo (execFcLoad p s) [.fcSkip p.length, .pack]

/-- EXCHANGE d: RECEIVE ; then, if RX_RESULT's status is OK with payload p, DECODE d, p (R102). The attempt
starts in this step and the host's next item is the conditional DECODE. -/
def execExchange (d : Dialect) (s : State) : Out :=
  andThen (execReceive s) fun s => .next { s with host := .decodeIfOk d :: s.host }

/-- CRC_OVER s: CRC_INIT ; CRC_UPDATE s[0] ; ... ; CRC_READ (R102): its first operation runs in this step and the
others are the host's next items (assumption 7). -/
def execCrcOver (str : Bytes) (s : State) : Out :=
  expandTo (execCrcInit s) (str.map .crcUpdate ++ [.crcRead])

end Sys2Proof.Machine
end

