-- ==== Sys2Proof/Machine/Dispatch.lean ====
section
/-! DEFINITION. The dispatch of an operation to its meaning: one arm per constructor. -/

namespace Sys2Proof.Machine

def exec (i : Instr) (s : State) : Host.Outcome State Fault Refusal :=
  match i with
  | .crcInit => Sys2Proof.Machine.execCrcInit s
  | .crcUpdate b => Sys2Proof.Machine.execCrcUpdate b s
  | .crcRead => Sys2Proof.Machine.execCrcRead s
  | .crc16 str => Sys2Proof.Machine.execCrc16 str s
  | .fcClear => Sys2Proof.Machine.execFcClear s
  | .fcLoad str => Sys2Proof.Machine.execFcLoad str s
  | .fcSkip n => Sys2Proof.Machine.execFcSkip n s
  | .appendUint8 v => Sys2Proof.Machine.execAppendUint8 v s
  | .getUint8 => Sys2Proof.Machine.execGetUint8 s
  | .appendBool v => Sys2Proof.Machine.execAppendBool v s
  | .getBool => Sys2Proof.Machine.execGetBool s
  | .appendInt16 v => Sys2Proof.Machine.execAppendInt16 v s
  | .appendUint16 v => Sys2Proof.Machine.execAppendUint16 v s
  | .appendInt32 v => Sys2Proof.Machine.execAppendInt32 v s
  | .appendUint32 v => Sys2Proof.Machine.execAppendUint32 v s
  | .getInt16 => Sys2Proof.Machine.execGetInt16 s
  | .getUint16 => Sys2Proof.Machine.execGetUint16 s
  | .getInt32 => Sys2Proof.Machine.execGetInt32 s
  | .getUint32 => Sys2Proof.Machine.execGetUint32 s
  | .appendFloat16 v k => Sys2Proof.Machine.execAppendFloat16 v k s
  | .appendFloat32 v k => Sys2Proof.Machine.execAppendFloat32 v k s
  | .getFloat16 k => Sys2Proof.Machine.execGetFloat16 k s
  | .getFloat32 k => Sys2Proof.Machine.execGetFloat32 k s
  | .pack => Sys2Proof.Machine.execPack s
  | .unpack raw => Sys2Proof.Machine.execUnpack raw s
  | .receive => Sys2Proof.Machine.execReceive s
  | .decode d p => Sys2Proof.Machine.execDecode d p s
  | .setNunchuck x y lower upper => Sys2Proof.Machine.execSetNunchuck x y lower upper s
  | .reset => Sys2Proof.Machine.execReset s
  | .send p => Sys2Proof.Machine.execSend p s
  | .exchange d => Sys2Proof.Machine.execExchange d s
  | .crcOver str => Sys2Proof.Machine.execCrcOver str s
  | .frameShort len => Sys2Proof.Machine.execFrameShort len s
  | .frameLong b => Sys2Proof.Machine.execFrameLong b s
  | .startInvalid start b => Sys2Proof.Machine.execStartInvalid start b s
  | .endMark => Sys2Proof.Machine.execEndMark s
  | .cmdFwVersion fields => Sys2Proof.Machine.execCmdFwVersion fields s
  | .cmdGetValuesSetupSelective fields => Sys2Proof.Machine.execCmdGetValuesSetupSelective fields s
  | .cmdGetDecodedPpm fields => Sys2Proof.Machine.execCmdGetDecodedPpm fields s
  | .cmdBmsGetValues fields => Sys2Proof.Machine.execCmdBmsGetValues fields s
  | .cmdBmsGetBmsCells fields => Sys2Proof.Machine.execCmdBmsGetBmsCells fields s
  | .cmdForwardToPeer fields => Sys2Proof.Machine.execCmdForwardToPeer fields s
  | .cmdSetChuckData fields => Sys2Proof.Machine.execCmdSetChuckData fields s
  | .cmdSetCurrent fields => Sys2Proof.Machine.execCmdSetCurrent fields s
  | .cmdSetCurrentBrake fields => Sys2Proof.Machine.execCmdSetCurrentBrake fields s
  | .cmdSetRpm fields => Sys2Proof.Machine.execCmdSetRpm fields s
  | .cmdSetDuty fields => Sys2Proof.Machine.execCmdSetDuty fields s
  | .cmdUnknown d p => Sys2Proof.Machine.execCmdUnknown d p s

end Sys2Proof.Machine
end

