-- ==== Sys2Proof/Machine/Agents.lean ====
section
/-! DEFINITION. Who moves in a step (00_scope.md R6 to R8, 20_memory.md R77, 43_frame_receiver.md R191): the
external agents, the host's next operation, the receiver's byte step or the deadline step; and how a program
is placed where the machine fetches. -/

namespace Sys2Proof.Machine

/-- A move of an external agent (R8). RESET is the host's one operation that may come at any step (R300). -/
def worldStep (m : WorldMove) (s : State) : Out :=
  match m with
  | .arrive b => .next { s with inq := s.inq ++ [b] }
  | .drainOut n => .next { s with outq := s.outq.drop n }
  | .drainDiag n => .next { s with diagq := s.diagq.drop n }
  | .elapse d => .next { s with now := s.now + d }
  | .issue line => .next { s with host := s.host ++ [.line line] }
  | .read f => .next { s with host := s.host ++ [.readField f] }
  | .reset => exec .reset s

/-- The block has no step (R191, R288): it waits. In a scheduled turn nothing happens; with nothing scheduled
the outside world makes a move of its own, a free value (assumption 5). -/
def waitStep (scheduled : Bool) (s : State) : Out :=
  if scheduled then .next s
  else worldStep (Config.worldMove s.freeIdx) { s with freeIdx := s.freeIdx + 1 }

/-- The byte step: take the head of INQ, then R210. -/
def takeByte (b : Byte) (rest : Bytes) (s : State) : Out := rxByteStep b { s with inq := rest }

/-- A byte and the deadline are both pending: either step may be taken (R191, R216). The schedule says which;
with nothing scheduled the choice is a free value (assumption 5). -/
def raceStep (deadlineWins : Option Bool) (b : Byte) (rest : Bytes) (s : State) : Out :=
  match deadlineWins with
  | some true => deadlineStep s
  | some false => takeByte b rest s
  | none =>
    if Config.raceDeadlineWins s.freeIdx then deadlineStep { s with freeIdx := s.freeIdx + 1 }
    else takeByte b rest { s with freeIdx := s.freeIdx + 1 }

/-- A step of an attempt (R191). While FAULT is set there is none (R277). -/
def attemptStep (deadlineWins : Option Bool) (s : State) : Out :=
  match s.fault with
  | some r => .fault (.faulted r)
  | none =>
    match s.inq, deadlinePassed s with
    | [], false => waitStep deadlineWins.isSome s
    | [], true => deadlineStep s
    | b :: rest, false => takeByte b rest s
    | b :: rest, true => raceStep deadlineWins b rest s

/-- What becomes of what the host issued in `s`. While FAULT is set nothing but RESET executes (R277); the host then
goes on to its next item, as program P6 of 95_test_vectors.md does ("does not execute: FAULT is set"; assumption 8). -/
def passFaulted (s : State) (o : Out) : Out :=
  match o with
  | .fault (.faulted _) => .next s
  | o => o

/-- The host issues an operation. -/
def issueOp (i : Instr) (s : State) : Out := passFaulted s (exec i s)

/-- The host reads a telemetry field (R20). -/
def issueRead (f : TelemetryField) (s : State) : Out := passFaulted s (readField f s)

/-- The host's next line is issued (R7, R101): an operation runs, a delivery line puts its bytes in INQ, a
blank line does nothing. -/
def issueLine (text : Bytes) (s : State) : Out :=
  match decodeLine text with
  | .error e => .refused (.undecodable e)
  | .ok (.op i) => issueOp i s
  | .ok (.deliver bs) => .next { s with inq := s.inq ++ bs }
  | .ok .blank => .next s

/-- The second half of EXCHANGE d (R102, R273): DECODE d, p when the attempt ended OK with p, else nothing. -/
def exchangeDecode (d : Dialect) (s : State) : Out :=
  match s.rxResult with
  | some (.ok, some p) => issueOp (.decode d p) s
  | _ => .next s

/-- The host's turn, no attempt being in progress: its next item, or the wait for one (R7, R303). -/
def hostStep (scheduled : Bool) (s : State) : Out :=
  match s.host with
  | [] => waitStep scheduled s
  | .line text :: rest => issueLine text { s with host := rest }
  | .op i :: rest => issueOp i { s with host := rest }
  | .readField f :: rest => issueRead f { s with host := rest }
  | .decodeIfOk d :: rest => exchangeDecode d { s with host := rest }

/-- The block's own turn: the host's next operation, or a step of the attempt in progress (R7). -/
def blockStep (deadlineWins : Option Bool) (s : State) : Out :=
  if s.rxState = .inactive then hostStep deadlineWins.isSome s else attemptStep deadlineWins s

/-- One step: the scheduled turn, or the block's own where nothing is scheduled. -/
def stepTurn (s : State) : Out :=
  match s.schedule with
  | [] => blockStep none s
  | .world m :: ts => worldStep m { s with schedule := ts }
  | .byteFirst :: ts => blockStep (some false) { s with schedule := ts }
  | .deadlineFirst :: ts => blockStep (some true) { s with schedule := ts }

/-- One step of a block whose configuration has a meaning (R10). -/
def stepAgents (s : State) : Out :=
  if s.cfg.valid = false then .refused .configuration else stepTurn s

/-- A line of text as the host's next item, the host free to issue it. -/
def State.placeLine (text : Bytes) (s : State) : State :=
  { s with rxState := .inactive, schedule := [], host := .line text :: s.host }

/-- A candidate's start byte in RB and its second byte next in INQ, the deadline not yet passed or not taken:
the next byte step classifies it. -/
def State.placeStart (start second : Byte) (s : State) : State :=
  { s.startAttempt.startCandidate start with inq := second :: s.inq, schedule := [.byteFirst] }

/-- A table word placed where the machine fetches, read as decodeTableWord reads it. -/
def State.placeWord (nbits w : Nat) (s : State) : State :=
  if nbits ≤ 8 then s.placeStart (BitVec.ofNat 8 w) (BitVec.ofNat 8 (w / 256))
  else s.placeLine (tableBytes (nbits / 8) w)

end Sys2Proof.Machine
end

