-- ==== Sys2Proof/Machine/Step.lean ====
section
/-! DEFINITION. The step of the machine. -/

namespace Sys2Proof.Machine

/-- One step (R6): one host operation, one byte taken from the input stream, one deadline event, or one move
of an external agent. -/
def step (s : State) : Host.Outcome State Fault Refusal := stepAgents s

/-- `s` with a table word placed where the next step fetches (assumption 6). -/
def State.withFetchWord (s : State) (nbits w : Nat) : State := s.placeWord nbits w

end Sys2Proof.Machine
end

