-- ==== Sys2Proof/Safety.lean ====
section
/-! DEFINITION. What a state of a run is like: the invariant every step keeps, the state in which a host
operation runs, and the fairness bound of the timeout property (which no step checks). -/

namespace Sys2Proof.Machine

/-- A host operation other than RESET runs in this state: the configuration has a meaning (R10), FAULT is
none (R277) and no attempt is in progress (R7). -/
def State.Ready (s : State) : Prop := s.cfg.valid = true ∧ s.fault = none ∧ s.rxState = .inactive

/-- A byte step of an attempt runs in this state, the receiver being where its rule says. -/
def State.InAttempt (s : State) : Prop := s.cfg.valid = true ∧ s.fault = none ∧ s.rxState ≠ .inactive

/-- What RB, RX_COUNT and RX_EXPECT hold in each state of the receiver (R24 to R27). -/
def State.RxCoherent (s : State) : Prop :=
  match s.rxState with
  | .inactive => True
  | .idle => s.rb = [] ∧ s.rxCount = 0 ∧ s.rxExpect = none
  | .header => (∃ b, s.rb = [(0, b)]) ∧ s.rxCount = 1 ∧ s.rxExpect = none
  | .hunt => s.rb = [] ∧ s.rxCount = 0 ∧ s.rxExpect = none
  | .body =>
    ∃ held : Bytes, s.rb = Memory.ofBytes held ∧ s.rxCount = held.length ∧ 2 ≤ held.length
      ∧ held.getD 0 0 = startShort ∧ s.rxExpect = some ((held.getD 1 0).toNat + 5)
      ∧ held.length < (held.getD 1 0).toNat + 5

/-- RX_RESULT is none, or a status that can end an attempt and a payload of at most 255 bytes for OK only
(R29, R208); BufferOverflow is not among them (R206). -/
def rxResultOk : Option (Status × Option Bytes) → Prop
  | none => True
  | some (.ok, some p) => p.length ≤ 255
  | some (.timeout, none) => True
  | some (.checksumMismatch, none) => True
  | some (.malformedFrame, none) => True
  | some _ => False

/-- A raw value of type s16, where one is held (R32, R33). -/
def rawS16 (v : Option Int) : Prop := ∀ x ∈ v, -32768 ≤ x ∧ x ≤ 32767

/-- A raw value of type s32, where one is held (R32). -/
def rawS32 (v : Option Int) : Prop := ∀ x ∈ v, -2147483648 ≤ x ∧ x ≤ 2147483647

/-- MC_SNAP's fields lie in the ranges of their raw types (R32). -/
structure McSnap.InRange (m : McSnap) : Prop where
  tempMotor : rawS16 m.tempMotor
  avgMotorCurrent : rawS32 m.avgMotorCurrent
  avgInputCurrent : rawS32 m.avgInputCurrent
  rpm : rawS32 m.rpm
  inputVoltage : rawS16 m.inputVoltage
  wattHours : rawS32 m.wattHours
  wattHoursCharged : rawS32 m.wattHoursCharged
  throttle : rawS32 m.throttle

/-- BMS_SNAP's cell voltages lie in the range of s16 (R33). -/
def BmsSnap.InRange (m : BmsSnap) : Prop := ∀ i : Fin 12, rawS16 m.cellVoltage[i]

/-- The invariant of a run. -/
structure State.Inv (s : State) : Prop where
  /-- PB is in canonical form and holds only cells 0..255 (R22, R60). -/
  pbWf : s.pb.wf
  pbBelow : s.pb.below 256
  /-- CUR is 0..256 (R23). -/
  curLe : s.cur ≤ 256
  /-- RB is in canonical form and holds only cells 0..260 (R25, R60). -/
  rbWf : s.rb.wf
  rbBelow : s.rb.below 261
  /-- RX_COUNT is 0..261 (R26). -/
  countLe : s.rxCount ≤ 261
  /-- RX_EXPECT is none or 5..260 (R27). -/
  expectRange : ∀ n ∈ s.rxExpect, 5 ≤ n ∧ n ≤ 260
  rxCoherent : s.RxCoherent
  resultOk : rxResultOk s.rxResult
  /-- During an attempt RX_RESULT is none (R29), FAULT is none (R276, R277) and the clock has not gone back. -/
  attemptOpen : s.rxState ≠ .inactive → s.rxResult = none ∧ s.fault = none ∧ s.t0 ≤ s.now
  /-- STATUS is never a status that is a diagnostic event only (R270), nor BufferOverflow (R206). -/
  statusFinal : s.status ≠ .invalidStartMarker ∧ s.status ≠ .unsupportedFrameType ∧ s.status ≠ .bufferOverflow
  mcRange : s.mcSnap.InRange
  bmsRange : s.bmsSnap.InRange

/-- The fairness assumption of R214: while an attempt waits on an empty stream, the clock does not pass
t0 + RX_DEADLINE + RX_EPSILON. No step checks it; a claim that needs the upper bound assumes it. DESIGN CHOICE
(assumption 17): ε counts from t0 + RX_DEADLINE, also where INQ became empty only after that instant, for which R214
("once enabled and INQ stays empty") does not say from when it counts. -/
def State.Timely (s : State) : Prop :=
  s.rxState ≠ .inactive → s.inq = [] → s.now ≤ s.t0 + s.cfg.rxDeadline + s.cfg.rxEpsilon

/-- A safe step: it does not stop with a fault. -/
def State.StepSafe (s : State) : Prop := ∀ f, step s ≠ .fault f

end Sys2Proof.Machine
end

