-- ==== Sys2Proof/Certificates/Slice0/Obligations.lean ====
section
/-! DEFINITION. The statements for the provers. The first part says in plain arithmetic what the rules of the
spec compute (the CRC, the two's-complement readings, the wire frame, rounding), with no use of the model's own
functions; the statements compare the machine with it. -/

namespace Sys2Proof.Claims

open Sys2Proof.Machine

/-! ## The rules' own computations -/

/-- One round of R112's loop on a natural number below 2^16. -/
def crcRound (c : Nat) : Nat := if 32768 ≤ c then (2 * c % 65536) ^^^ 0x1021 else 2 * c % 65536

/-- R112's update of a running value by one byte. -/
def crcByte (c : Nat) (b : Byte) : Nat := Nat.repeat crcRound 8 (c ^^^ (b.toNat * 256))

/-- R114's crc16(s). -/
def crcBytes (s : Bytes) : Nat := s.foldl crcByte 0

/-- s16(be16) of two bytes (R13, R14). -/
def s16 (b0 b1 : Byte) : Int :=
  if b0.toNat < 128 then b0.toNat * 256 + b1.toNat else (b0.toNat * 256 + b1.toNat : Int) - 65536

/-- u32(be32) of four bytes (R13, R14). -/
def u32 (b0 b1 b2 b3 : Byte) : Nat := b0.toNat * 16777216 + b1.toNat * 65536 + b2.toNat * 256 + b3.toNat

/-- s32(be32) of four bytes (R13, R14). -/
def s32 (b0 b1 b2 b3 : Byte) : Int :=
  if b0.toNat < 128 then u32 b0 b1 b2 b3 else (u32 b0 b1 b2 b3 : Int) - 4294967296

/-- The two big-endian bytes of v mod 2^16 (R61, R87). -/
def two (v : Int) : Bytes := [BitVec.ofInt 8 (v / 256), BitVec.ofInt 8 v]

/-- The four big-endian bytes of v mod 2^32 (R61, R87). -/
def four (v : Int) : Bytes :=
  [BitVec.ofInt 8 (v / 16777216), BitVec.ofInt 8 (v / 65536), BitVec.ofInt 8 (v / 256), BitVec.ofInt 8 v]

/-- The short frame of a payload, byte by byte (R80). -/
def wireFrame (p : Bytes) : Bytes :=
  [0x02, BitVec.ofNat 8 p.length] ++ p
    ++ [BitVec.ofNat 8 (crcBytes p / 256), BitVec.ofNat 8 (crcBytes p % 256), 0x03]

/-- UNPACK's envelope holds (R173): the length, the start marker, the length byte, the end marker. -/
def Envelope (raw : Bytes) : Prop :=
  5 ≤ raw.length ∧ raw.length ≤ 260 ∧ raw[0]? = some 0x02
    ∧ (∃ l : Byte, raw[1]? = some l ∧ l.toNat = raw.length - 5) ∧ raw[raw.length - 1]? = some 0x03

/-- The payload slice of a raw frame (R173). -/
def payloadOf (raw : Bytes) : Bytes := (raw.drop 2).take (raw.length - 5)

/-- The CRC field of a raw frame, high byte first (R62, R173). -/
def crcFieldOf (raw : Bytes) : Nat :=
  (raw.getD (raw.length - 3) 0).toNat * 256 + (raw.getD (raw.length - 2) 0).toNat

/-- UNPACK of `raw` gives the status `st` and the payload `pl` (R173, R175). -/
def Unpacks (raw : Bytes) (st : Status) (pl : Option Bytes) : Prop :=
  (¬ Envelope raw ∧ st = .malformedFrame ∧ pl = none)
    ∨ (Envelope raw ∧ crcBytes (payloadOf raw) ≠ crcFieldOf raw ∧ st = .checksumMismatch ∧ pl = none)
    ∨ (Envelope raw ∧ crcBytes (payloadOf raw) = crcFieldOf raw ∧ st = .ok ∧ pl = some (payloadOf raw))

/-- `r` is `x` rounded as SCALE_ROUND says (R10, R148): to nearest with ties away from zero, or toward zero. -/
def Rounds (m : ScaleRound) (x : Rat) (r : Int) : Prop :=
  match m with
  | .nearestTiesAway => |x - r| ≤ 1 / 2 ∧ (|x - r| = 1 / 2 → |x| < |(r : Rat)|)
  | .towardZero => |(r : Rat)| ≤ |x| ∧ |x - r| < 1 ∧ 0 ≤ x * r

/-! ## What an operation does, said through the reads of one byte -/

/-- The operation faults with `r` and changes nothing else (R276). -/
def Faults (i : Instr) (r : FaultReason) (s : State) : Prop := exec i s = .next { s with fault := some r }

/-- The operation completes, stores `bs` at CUR and advances CUR by their number; every other byte of PB and
every other register is unchanged. -/
def Stores (i : Instr) (bs : Bytes) (s : State) : Prop :=
  ∃ t, exec i s = .next t
    ∧ (∀ a, t.pb.read a = if s.cur ≤ a ∧ a < s.cur + bs.length then bs[a - s.cur]? else s.pb.read a)
    ∧ t = { s with pb := t.pb, cur := s.cur + bs.length, status := .ok, result := .none }

/-- An APPEND_* of `bs` (R130, R131): Overrun where they do not fit, else the store. -/
def Appends (i : Instr) (bs : Bytes) : Prop :=
  ∀ s : State, s.Ready →
    (256 < s.cur + bs.length → Faults i .overrun s) ∧ (s.cur + bs.length ≤ 256 → Stores i bs s)

/-- A GET_* of `w` bytes with the result `value` (R130 to R132): Overrun first, then Unwritten, else the value;
PB is unchanged. -/
def Gets (i : Instr) (w : Nat) (value : Bytes → OpResult) : Prop :=
  ∀ s : State, s.Ready →
    (256 < s.cur + w → Faults i .overrun s)
    ∧ (s.cur + w ≤ 256 → (∃ j, j < w ∧ s.pb.read (s.cur + j) = none) → Faults i .unwritten s)
    ∧ (s.cur + w ≤ 256 → ∀ bs : Bytes, bs.length = w → (∀ j, j < w → s.pb.read (s.cur + j) = bs[j]?) →
        exec i s = .next { s with cur := s.cur + w, status := .ok, result := value bs })

/-- The operand has the exact value `q` (R10): it is written so, or its bit pattern has it. -/
def HasValue (c : Config) (v : FloatIn) (q : Rat) : Prop :=
  v = .finite q ∨ ∃ bits, v = .pattern bits ∧ c.toRat bits = some q

/-- The operand is NaN or an infinity (R10). -/
def NoValue (c : Config) (v : FloatIn) : Prop :=
  v = .nan ∨ v = .posInf ∨ v = .negInf ∨ ∃ bits, v = .pattern bits ∧ c.toRat bits = none

/-- An APPEND_FLOAT of `w` bytes into the signed range `lo .. hi` (R148, R149): Overrun, NotFinite, Range in this
order, else the store of the rounded product; a scale that is not above zero is refused. -/
def AppendsScaled (op : FloatIn → Rat → Instr) (w : Nat) (lo hi : Int) (bytes : Int → Bytes) : Prop :=
  (∀ (s : State) (k : Rat), s.Ready → 0 < k →
    (256 < s.cur + w → ∀ v, Faults (op v k) .overrun s)
    ∧ (s.cur + w ≤ 256 → ∀ v, NoValue s.cfg v → Faults (op v k) .notFinite s)
    ∧ (s.cur + w ≤ 256 → ∀ (v : FloatIn) (q : Rat) (r : Int), HasValue s.cfg v q →
        Rounds s.cfg.scaleRound (q * k) r →
        (r < lo ∨ hi < r → Faults (op v k) .range s) ∧ (lo ≤ r → r ≤ hi → Stores (op v k) (bytes r) s)))
  ∧ ∀ (s : State) (v : FloatIn) (k : Rat), s.Ready → k ≤ 0 → exec (op v k) s = .refused .operandDomain

/-- The operation completes with UnsupportedCommand and changes STATUS and the result only (R231, R234). -/
def Unsupported (i : Instr) (s : State) : Prop :=
  exec i s = .next { s with status := .unsupportedCommand, result := .decoded .unsupportedCommand [] }

/-- The ids DECODE decodes in a dialect (R232). -/
def decodedIds (c : Config) : Dialect → List Byte
  | .mc => [c.cmdFwVersion, c.cmdGetValuesSetupSelective, c.cmdGetDecodedPpm]
  | .bms => [c.cmdBmsGetValues, c.cmdBmsGetBmsCells]

/-- The rows of R232: dialect, id, minimum payload length, and the row's operation. -/
def decodedRows (c : Config) : List (Dialect × Byte × Nat × (Bytes → Instr)) :=
  [(.mc, c.cmdFwVersion, 3, .cmdFwVersion),
   (.mc, c.cmdGetValuesSetupSelective, 30, .cmdGetValuesSetupSelective),
   (.mc, c.cmdGetDecodedPpm, 5, .cmdGetDecodedPpm),
   (.bms, c.cmdBmsGetValues, 10, .cmdBmsGetValues),
   (.bms, c.cmdBmsGetBmsCells, 26, .cmdBmsGetBmsCells)]

/-- The outbound ids and their rows (R88, R249). -/
def outboundRows (c : Config) : List (Byte × (Bytes → Instr)) :=
  [(c.cmdForwardToPeer, .cmdForwardToPeer), (c.cmdSetChuckData, .cmdSetChuckData),
   (c.cmdSetCurrent, .cmdSetCurrent), (c.cmdSetCurrentBrake, .cmdSetCurrentBrake),
   (c.cmdSetRpm, .cmdSetRpm), (c.cmdSetDuty, .cmdSetDuty)]

/-- A payload with this id and fewer than `min` bytes completes with PayloadTooShort and writes nothing (R235), by DECODE
and by the row's own operation. -/
def TooShort (d : Dialect) (id : Config → Byte) (min : Nat) (op : Bytes → Instr) : Prop :=
  ∀ (s : State) (fields : Bytes) (i : Instr), s.Ready → fields.length + 1 < min →
    i = .decode d (id s.cfg :: fields) ∨ i = op fields →
    exec i s = .next { s with status := .payloadTooShort, result := .decoded .payloadTooShort [] }

/-- How many bytes the operation moves or skips at CUR (R130). -/
def width : Instr → Option Nat
  | .fcSkip n => some n.toNat
  | .appendUint8 _ | .appendBool _ | .getUint8 | .getBool => some 1
  | .appendInt16 _ | .appendUint16 _ | .appendFloat16 _ _ | .getInt16 | .getUint16 | .getFloat16 _ => some 2
  | .appendInt32 _ | .appendUint32 _ | .appendFloat32 _ _ | .getInt32 | .getUint32 | .getFloat32 _ => some 4
  | _ => none

/-! ## Whose turn it is -/

/-- The block's own turn; `ts` is what is scheduled after it. -/
def BlockTurn (s : State) (ts : List Turn) : Prop :=
  (s.schedule = [] ∧ ts = []) ∨ s.schedule = .byteFirst :: ts ∨ s.schedule = .deadlineFirst :: ts

/-- A byte step is taken (R191): a byte is pending, and the deadline is not, or the schedule takes the byte first.
`u` is the state with the byte taken from INQ. -/
def ByteTurn (s : State) (b : Byte) (u : State) : Prop :=
  s.InAttempt ∧ ∃ rest ts, s.inq = b :: rest ∧ u = { s with inq := rest, schedule := ts }
    ∧ (s.schedule = .byteFirst :: ts ∨ (s.now < s.t0 + s.cfg.rxDeadline ∧ BlockTurn s ts))

/-- An attempt that has taken no byte yet, as RECEIVE leaves it (R190). -/
def FreshAttempt (s : State) : Prop :=
  s.cfg.valid = true ∧ s.fault = none ∧ s.rxState = .idle ∧ s.rb = [] ∧ s.rxCount = 0 ∧ s.rxExpect = none
    ∧ s.rxDiag = ⟨false, false⟩

/-- RB with `b` stored at `a`, every other cell as it was. -/
def RbStores (s : State) (a : Nat) (b : Byte) (t : State) : Prop :=
  ∀ x, t.rb.read x = if x = a then some b else s.rb.read x

/-- DIAGQ after an event: at its end, or dropped where no sink is connected (R278). -/
def sent (s : State) (es : List DiagEvent) : List DiagEvent := if s.cfg.sinkConnected then s.diagq ++ es else s.diagq

/-- The state after a rejected candidate (R196) with the diagnostic bits `d` and the event `e` sent: RB without its
first two cells; a 0x02 as the second byte starts the next candidate. -/
def Rejected (s : State) (b : Byte) (d : RxDiag) (e : DiagEvent) (t : State) : Prop :=
  (∀ x, t.rb.read x = if x = 0 then (if b = 0x02 then some b else none) else if x = 1 then none else s.rb.read x)
    ∧ t = { s with
        rb := t.rb
        rxCount := if b = 0x02 then 1 else 0
        rxExpect := none
        rxState := if b = 0x02 then .header else .hunt
        rxDiag := d
        diagq := sent s [e] }

/-- The block has the next `n` turns; `ts` is what is scheduled after them. -/
def BlockTurns (s : State) (n : Nat) (ts : List Turn) : Prop :=
  s.schedule = List.replicate n .byteFirst ++ ts ∨ (s.schedule = [] ∧ ts = [])

/-- The telemetry fields with what they hold and their scales, 1 where none is given (R32, R33). -/
def telemetryRows (s : State) : List (TelemetryField × Option Int × Rat) :=
  let u8 : Option Byte → Option Int := Option.map fun b => (b.toNat : Int)
  let named : List (TelemetryField × Option Int × Rat) :=
    [(.fwMajor, u8 s.mcSnap.fwMajor, 1), (.fwMinor, u8 s.mcSnap.fwMinor, 1), (.tempMotor, s.mcSnap.tempMotor, 10),
     (.avgMotorCurrent, s.mcSnap.avgMotorCurrent, 100), (.avgInputCurrent, s.mcSnap.avgInputCurrent, 100),
     (.rpm, s.mcSnap.rpm, 1), (.inputVoltage, s.mcSnap.inputVoltage, 10), (.wattHours, s.mcSnap.wattHours, 10000),
     (.wattHoursCharged, s.mcSnap.wattHoursCharged, 10000), (.faultCode, u8 s.mcSnap.faultCode, 1),
     (.throttle, s.mcSnap.throttle, 10000), (.soc, u8 s.bmsSnap.soc, 1), (.cellCount, u8 s.bmsSnap.cellCount, 1)]
  named ++ (List.finRange 12).map fun j => (TelemetryField.cellVoltage j, s.bmsSnap.cellVoltage[j], (1000 : Rat))

/-- The operation starts an attempt (R190, R102). -/
def startsAttempt (i : Instr) : Prop := i = .receive ∨ ∃ d, i = .exchange d

/-- The operation is the byte step that rejects a candidate (R194, R195). -/
def rejects (i : Instr) : Prop := (∃ b, i = .frameLong b) ∨ ∃ a b, i = .startInvalid a b

/-- The operation is an APPEND_* (R20). -/
def appends : Instr → Bool
  | .appendUint8 _ | .appendBool _ | .appendInt16 _ | .appendUint16 _ | .appendInt32 _ | .appendUint32 _
  | .appendFloat16 _ _ | .appendFloat32 _ _ => true
  | _ => false

/-- A turn in which the stream agent delivers nothing and the host issues nothing. -/
def quiet : Turn → Bool
  | .byteFirst | .deadlineFirst => true
  | .world (.elapse _) | .world (.drainOut _) | .world (.drainDiag _) => true
  | .world _ => false

end Sys2Proof.Claims

open Sys2Proof Sys2Proof.Machine Sys2Proof.Claims

/-! ## Reset -/

/-- R300: RESET completes from every state, during an attempt and while FAULT is set, and leaves every register at
its reset value; INQ, OUTQ, DIAGQ and the configuration are not changed. It may occur at any step, whoever's turn it
would be, and no other operation executes while FAULT is set. The turn is said by the model's own `schedule`
(assumption 5); of the clock, t0, the host's program and the model's own fields R300 says nothing, and this statement
neither: PowerOnIsReset says what the model does. -/
def Obligations.ResetCompletes : Prop :=
  ∀ s : State, s.cfg.valid = true →
    (∃ t, exec .reset s = .next t ∧ t = { s with
      crcAcc := 0x0000, pb := [], cur := 0, rxState := .inactive, rb := [], rxCount := 0, rxExpect := none,
      rxDiag := ⟨false, false⟩, rxResult := none,
      mcSnap := ⟨none, none, none, none, none, none, none, none, none, none, none⟩,
      bmsSnap := ⟨none, none, #v[none, none, none, none, none, none, none, none, none, none, none, none]⟩,
      nunchuck := ⟨127, 127, false, false⟩, status := .ok, fault := none,
      now := t.now, t0 := t.t0, result := t.result, host := t.host, schedule := t.schedule, freeIdx := t.freeIdx })
    ∧ (∀ ts, s.schedule = .world .reset :: ts → step s = exec .reset { s with schedule := ts })
    ∧ (s.fault ≠ none → ∀ (i : Instr) (t : State), i ≠ .reset → exec i s ≠ .next t)

/-- The power-on state is the state RESET gives (R301), and after RESET every cell of PB and RB and every telemetry field
holds none (R302). That State.reset has empty queues, clock 0 and Config.reference are the model's choices (assumptions
1 and 2); that RESET leaves the clock, t0, the host's program, the schedule and the counter of free values is DEDUCED
(assumption 12); `result` is the model's own (assumption 9). -/
def Obligations.PowerOnIsReset : Prop :=
  exec .reset State.reset = .next State.reset
    ∧ ∀ s : State, s.cfg.valid = true → ∃ t, exec .reset s = .next t
      ∧ (∀ a, t.pb.read a = none ∧ t.rb.read a = none) ∧ (∀ f, rawOf f t = none)
      ∧ t = { State.reset with
          inq := s.inq, outq := s.outq, diagq := s.diagq, now := s.now, t0 := s.t0, cfg := s.cfg,
          host := s.host, schedule := s.schedule, freeIdx := s.freeIdx }

/-! ## CRC generator -/

/-- R111 to R113: CRC_INIT, CRC_UPDATE and CRC_READ, each with all that it leaves unchanged. -/
def Obligations.CrcRegisterOps : Prop :=
  ∀ s : State, s.Ready →
    exec .crcInit s = .next { s with crcAcc := 0x0000, status := .ok, result := .none }
    ∧ (∀ b : Byte, exec (.crcUpdate b) s = .next { s with
        crcAcc := BitVec.ofNat 16 (crcByte s.crcAcc.toNat b), status := .ok, result := .none })
    ∧ exec .crcRead s = .next { s with status := .ok, result := .crc s.crcAcc }

/-- R114: CRC16 gives crc16(s) for a string of any length and neither reads nor writes CRC_ACC. -/
def Obligations.Crc16Pure : Prop :=
  ∀ (s : State) (str : Bytes), s.Ready →
    exec (.crc16 str) s = .next { s with status := .ok, result := .crc (BitVec.ofNat 16 (crcBytes str)) }

/-- R115: the table-driven form, T[i] being update(0x0000, i). -/
def Obligations.CrcTableDriven : Prop :=
  ∀ (c : Half) (b : Byte), crcUpdate c b = (c <<< 8) ^^^ crcTable ((c >>> 8).setWidth 8 ^^^ b)

/-- R102, R116: CRC_OVER completes with CRC_INIT done and the rest of its expansion as the host's next items (assumption
7); when the block has had a turn for each, CRC_ACC and the result are crc16(s). -/
def Obligations.CrcOverIsCrc16 : Prop :=
  ∀ (s : State) (str : Bytes) (ts : List Turn), s.Ready →
    ∃ t, exec (.crcOver str) s = .next t
      ∧ t = { s with crcAcc := 0x0000, status := .ok, result := .none,
                     host := str.map (fun b => .op (.crcUpdate b)) ++ .op .crcRead :: s.host }
      ∧ (BlockTurns s (str.length + 1) ts → Host.Core.run core (str.length + 1) t = .next { s with
          crcAcc := BitVec.ofNat 16 (crcBytes str), status := .ok, result := .crc (BitVec.ofNat 16 (crcBytes str)),
          schedule := ts })

/-- R117: the empty string, one byte, leading zero bytes, linearity, and the zero residue. -/
def Obligations.CrcAlgebra : Prop :=
  crc16 [] = 0x0000
    ∧ (∀ b : Byte, crc16 [b] = crcTable b)
    ∧ (∀ (k : Nat) (s : Bytes), crc16 (List.replicate k 0x00 ++ s) = crc16 s)
    ∧ (∀ s t : Bytes, s.length = t.length → crc16 (List.zipWith (· ^^^ ·) s t) = crc16 s ^^^ crc16 t)
    ∧ (∀ s : Bytes, crc16 (s ++ [(crc16 s).extractLsb' 8 8, (crc16 s).extractLsb' 0 8]) = 0x0000)

/-- R119: every single-bit error in a string changes its CRC. -/
def Obligations.CrcSingleBitError : Prop :=
  ∀ (s : Bytes) (i j : Nat), i < s.length → j < 8 →
    crc16 (s.set i (s.getD i 0 ^^^ ((1 : Byte) <<< j))) ≠ crc16 s

/-! ## Field codec -/

/-- R133 to R135: FC_CLEAR, FC_LOAD and FC_SKIP; a string or a number outside its domain is refused. -/
def Obligations.BufferOps : Prop :=
  ∀ s : State, s.Ready →
    (∃ t, exec .fcClear s = .next t ∧ (∀ a, t.pb.read a = none)
      ∧ t = { s with pb := t.pb, cur := 0, status := .ok, result := .none })
    ∧ (∀ str : Bytes, str.length ≤ 256 → ∃ t, exec (.fcLoad str) s = .next t ∧ (∀ a, t.pb.read a = str[a]?)
        ∧ t = { s with pb := t.pb, cur := 0, status := .ok, result := .none })
    ∧ (∀ str : Bytes, 256 < str.length → exec (.fcLoad str) s = .refused .operandDomain)
    ∧ exec (.fcLoad []) s = exec .fcClear s
    ∧ (∀ n : Int, n < 0 ∨ 256 < n → exec (.fcSkip n) s = .refused .operandDomain)
    ∧ (∀ n : Int, 0 ≤ n → n ≤ 256 →
        (256 < (s.cur : Int) + n → Faults (.fcSkip n) .overrun s)
        ∧ ((s.cur : Int) + n ≤ 256 →
            exec (.fcSkip n) s = .next { s with cur := s.cur + n.toNat, status := .ok, result := .none }))

/-- R136, R138, R140 to R143: the integer and bool APPENDs, each with its bytes, most significant first. -/
def Obligations.AppendIntegers : Prop :=
  (∀ v : Int, 0 ≤ v → v ≤ 255 → Appends (.appendUint8 v) [BitVec.ofInt 8 v])
    ∧ (∀ v : Bool, Appends (.appendBool v) [if v then 0x01 else 0x00])
    ∧ (∀ v : Int, -32768 ≤ v → v ≤ 32767 → Appends (.appendInt16 v) (two v))
    ∧ (∀ v : Int, 0 ≤ v → v ≤ 65535 → Appends (.appendUint16 v) (two v))
    ∧ (∀ v : Int, -2147483648 ≤ v → v ≤ 2147483647 → Appends (.appendInt32 v) (four v))
    ∧ (∀ v : Int, 0 ≤ v → v ≤ 4294967295 → Appends (.appendUint32 v) (four v))

/-- R132, R137, R139, R144 to R147: the integer and bool GETs, each with its reading of the bytes at CUR. -/
def Obligations.GetIntegers : Prop :=
  Gets .getUint8 1 (fun bs => .unsigned (bs.getD 0 0).toNat)
    ∧ Gets .getBool 1 (fun bs => .bool (decide ((bs.getD 0 0).toNat ≠ 0)))
    ∧ Gets .getInt16 2 (fun bs => .signed (s16 (bs.getD 0 0) (bs.getD 1 0)))
    ∧ Gets .getUint16 2 (fun bs => .unsigned ((bs.getD 0 0).toNat * 256 + (bs.getD 1 0).toNat))
    ∧ Gets .getInt32 4 (fun bs => .signed (s32 (bs.getD 0 0) (bs.getD 1 0) (bs.getD 2 0) (bs.getD 3 0)))
    ∧ Gets .getUint32 4 (fun bs => .unsigned (u32 (bs.getD 0 0) (bs.getD 1 0) (bs.getD 2 0) (bs.getD 3 0)))

/-- R131: every operation that moves or skips w bytes checks CUR + w ≤ 256 before anything else; where the check
fails it raises Overrun and changes neither PB nor CUR. -/
def Obligations.OverrunCheckedFirst : Prop :=
  ∀ (i : Instr) (w : Nat) (s : State), width i = some w → i.wf = true → s.Ready → 256 < s.cur + w →
    Faults i .overrun s

/-- R64: a field read back with the width it was written with is the value written; read with another width it is
the big-endian bytes at the cursor. -/
def Obligations.ReadBackWritten : Prop :=
  ∀ s : State, s.Ready →
    (∀ v : Int, -32768 ≤ v → v ≤ 32767 → s.cur + 2 ≤ 256 → ∃ t u, exec (.appendInt16 v) s = .next t
      ∧ exec .getInt16 { t with cur := s.cur } = .next u ∧ u.result = .signed v ∧ u.cur = t.cur)
    ∧ (∀ v : Int, -2147483648 ≤ v → v ≤ 2147483647 → s.cur + 4 ≤ 256 → ∃ t u, exec (.appendInt32 v) s = .next t
      ∧ exec .getInt32 { t with cur := s.cur } = .next u ∧ u.result = .signed v ∧ u.cur = t.cur)
    ∧ (∀ n : Nat, n ≤ 65535 → s.cur + 2 ≤ 256 → ∃ t u, exec (.appendUint16 n) s = .next t
      ∧ exec .getInt16 { t with cur := s.cur } = .next u
      ∧ u.result = .signed (if n < 32768 then (n : Int) else n - 65536))
    ∧ (∀ n : Nat, n ≤ 4294967295 → s.cur + 4 ≤ 256 → ∃ t u x, exec (.appendUint32 n) s = .next t
      ∧ exec .getUint16 { t with cur := s.cur } = .next u ∧ u.result = .unsigned (n / 65536)
      ∧ exec .getUint16 u = .next x ∧ x.result = .unsigned (n % 65536))

/-- R148 to R150: the scaled APPENDs, for an operand written by its exact value or by its bit pattern, round the exact
product as SCALE_ROUND says and fault in the order Overrun, NotFinite, Range; every product has exactly one rounding. -/
def Obligations.AppendScaled : Prop :=
  AppendsScaled .appendFloat16 2 (-32768) 32767 two
    ∧ AppendsScaled .appendFloat32 4 (-2147483648) 2147483647 four
    ∧ ∀ (m : ScaleRound) (x : Rat), ∃ r : Int, Rounds m x r ∧ ∀ r' : Int, Rounds m x r' → r' = r

/-- R151, R152: the scaled GETs give the pair (raw, k), whose exact value is raw / k and whose floating value is the
open function toFloat's. -/
def Obligations.GetScaled : Prop :=
  (∀ k : Rat, 0 < k →
    Gets (.getFloat16 k) 2 (fun bs => .scaled (s16 (bs.getD 0 0) (bs.getD 1 0)) k)
    ∧ Gets (.getFloat32 k) 4 (fun bs => .scaled (s32 (bs.getD 0 0) (bs.getD 1 0) (bs.getD 2 0) (bs.getD 3 0)) k))
    ∧ ∀ (c : Config) (raw : Int) (k : Rat), scaledValue raw k = (raw : Rat) / k ∧ scaledFloat c raw k = c.toFloat raw k

/-- R153: where a scaled APPEND does not fault, the value read back differs from the value written by at most
1/(2k) when SCALE_ROUND is to nearest, and by less than 1/k when it is toward zero. -/
def Obligations.QuantisationBound : Prop :=
  ∀ (s t : State) (v : FloatIn) (q k : Rat), s.Ready → 0 < k → HasValue s.cfg v q →
    (exec (.appendFloat16 v k) s = .next t → t.fault = none → ∃ u r,
      exec (.getFloat16 k) { t with cur := s.cur } = .next u ∧ u.result = .scaled r k
      ∧ (s.cfg.scaleRound = .nearestTiesAway → |(r : Rat) / k - q| ≤ 1 / (2 * k))
      ∧ (s.cfg.scaleRound = .towardZero → |(r : Rat) / k - q| < 1 / k))
    ∧ (exec (.appendFloat32 v k) s = .next t → t.fault = none → ∃ u r,
      exec (.getFloat32 k) { t with cur := s.cur } = .next u ∧ u.result = .scaled r k
      ∧ (s.cfg.scaleRound = .nearestTiesAway → |(r : Rat) / k - q| ≤ 1 / (2 * k))
      ∧ (s.cfg.scaleRound = .towardZero → |(r : Rat) / k - q| < 1 / k))

/-! ## Frame codec -/

/-- R171, R172: PACK's three outcomes, in the order of its checks; PB, CUR and CRC_ACC are unchanged in each. -/
def Obligations.PackOutcomes : Prop :=
  ∀ s : State, s.Ready →
    (255 < s.cur → exec .pack s = .next { s with status := .payloadTooLong, result := .none })
    ∧ (s.cur ≤ 255 → (∃ a, a < s.cur ∧ s.pb.read a = none) → Faults .pack .unwritten s)
    ∧ (s.cur ≤ 255 → ∀ p : Bytes, p.length = s.cur → (∀ a, a < s.cur → s.pb.read a = p[a]?) →
        exec .pack s = .next { s with
          outq := s.outq ++ wireFrame p, status := .ok, result := .length (s.cur + 5) })

/-- R173 to R176: UNPACK completes on every byte string, with the status and payload the rule gives. -/
def Obligations.UnpackOutcomes : Prop :=
  ∀ (s : State) (raw : Bytes), s.Ready → ∃ st pl, Unpacks raw st pl
    ∧ exec (.unpack raw) s = .next { s with status := st, result := .unpacked st pl }

/-- R177: UNPACK of a frame returns its payload, for every payload of length 0 to 255. -/
def Obligations.UnpackOfFrame : Prop :=
  ∀ (s : State) (p : Bytes), s.Ready → p.length ≤ 255 →
    exec (.unpack (wireFrame p)) s = .next { s with status := .ok, result := .unpacked .ok (some p) }

/-- R178: flipping any one bit of a frame makes UNPACK fail: ChecksumMismatch for a payload or CRC byte,
MalformedFrame for the start marker, the length byte or the end marker. -/
def Obligations.UnpackDetectsBitFlip : Prop :=
  ∀ (s : State) (p : Bytes) (i j : Nat), s.Ready → p.length ≤ 255 → i < p.length + 5 → j < 8 →
    ∃ st, st = (if 2 ≤ i ∧ i ≤ p.length + 3 then Status.checksumMismatch else Status.malformedFrame)
      ∧ exec (.unpack ((wireFrame p).set i ((wireFrame p).getD i 0 ^^^ ((1 : Byte) <<< j)))) s
          = .next { s with status := st, result := .unpacked st none }

/-- R102, SEND: it completes with FC_LOAD done and FC_SKIP and PACK as the host's next items (assumption 7); when the
block has had a turn for each, the frame of its payload is emitted. -/
def Obligations.SendEmitsFrame : Prop :=
  ∀ (s : State) (p : Bytes) (ts : List Turn), s.Ready → p.length ≤ 255 →
    ∃ t, exec (.send p) s = .next t ∧ (∀ a, t.pb.read a = p[a]?)
      ∧ t = { s with pb := t.pb, cur := 0, status := .ok, result := .none,
                     host := .op (.fcSkip p.length) :: .op .pack :: s.host }
      ∧ (BlockTurns s 2 ts → Host.Core.run core 2 t = .next { s with
          pb := t.pb, cur := p.length, outq := s.outq ++ wireFrame p, status := .ok,
          result := .length (p.length + 5), schedule := ts })

/-! ## Frame receiver -/

/-- R190: RECEIVE starts an attempt: RB without bytes, the receiver's registers cleared, t0 read from the clock. The host
is then blocked: a step of the attempt issues nothing of its program, and an operation but RESET does not run. -/
def Obligations.ReceiveStartsAttempt : Prop :=
  ∀ s : State, s.Ready → ∃ t, exec .receive s = .next t ∧ (∀ a, t.rb.read a = none)
    ∧ t = { s with rb := t.rb, rxCount := 0, rxExpect := none, rxDiag := ⟨false, false⟩, rxResult := none,
                   t0 := s.now, rxState := .idle }
    ∧ (∀ (u v : State) (ts : List Turn), u.rxState ≠ .inactive → BlockTurn u ts →
        u.inq ≠ [] ∨ u.t0 + u.cfg.rxDeadline ≤ u.now → step u = .next v → v.host = u.host)
    ∧ ∀ (u v : State) (text : Bytes) (i : Instr), u.rxState ≠ .inactive → decodeLine text = .ok (.op i) → i ≠ .reset →
        exec i u ≠ .next v

/-- R193: FRAME_SHORT where the candidate's start byte is 0x02, on the byte the byte step takes. -/
def Obligations.FrameShortRow : Prop :=
  ∀ (s : State) (len : Byte), s.cfg.valid = true → s.fault = none →
    (s.rxState = .header → s.rb.read 0 = some 0x02 → ∃ t, exec (.frameShort len) s = .next t
      ∧ RbStores s 1 len t
      ∧ t = { s with rb := t.rb, rxCount := 2, rxExpect := some (len.toNat + 5), rxState := .body })
    ∧ (s.rxState = .header → s.rb.read 0 = some 0x02 → ∀ u, ByteTurn s len u → step s = exec (.frameShort len) u)

/-- R194 to R196: FRAME_LONG and START_INVALID where the candidate's start byte is theirs: the bit, the event, and
the rejection, on the byte the byte step takes. Where no sink is connected the event is dropped and the rest is the same
(R278). -/
def Obligations.RejectRows : Prop :=
  ∀ (s : State) (b : Byte), s.cfg.valid = true → s.fault = none →
    (s.rxState = .header → s.rb.read 0 = some 0x03 → ∃ t, exec (.frameLong b) s = .next t
      ∧ Rejected s b { s.rxDiag with seenLongFrame := true } .unsupportedFrameType t)
    ∧ (s.rxState = .header → s.rb.read 0 = some 0x03 → ∀ u, ByteTurn s b u → step s = exec (.frameLong b) u)
    ∧ (∀ a : Byte, a ≠ 0x02 → a ≠ 0x03 →
        (s.rxState = .header → s.rb.read 0 = some a → ∃ t, exec (.startInvalid a b) s = .next t
          ∧ Rejected s b { s.rxDiag with seenInvalidStart := true } .invalidStartMarker t)
        ∧ (s.rxState = .header → s.rb.read 0 = some a → ∀ u, ByteTurn s b u → step s = exec (.startInvalid a b) u))

/-- R200: END_MARK, taken by the byte step where 0x03 is a frame's last byte, stores it and ends the attempt with what
UNPACK of RB gives. -/
def Obligations.EndMarkRow : Prop :=
  ∀ s : State, s.cfg.valid = true → s.fault = none →
    (s.rxState = .body → s.rxExpect = some (s.rxCount + 1) → s.rxCount < 261 → ∀ raw : Bytes,
      raw.length = s.rxCount + 1 → (∀ j, j < s.rxCount → s.rb.read j = raw[j]?) → raw[s.rxCount]? = some 0x03 →
      ∃ t st pl, exec .endMark s = .next t ∧ Unpacks raw st pl ∧ RbStores s s.rxCount 0x03 t
        ∧ t = { s with rb := t.rb, rxCount := s.rxCount + 1, rxResult := some (st, pl), status := st,
                       rxState := .inactive, result := .received })
    ∧ (s.rxState = .body → s.rxExpect = some (s.rxCount + 1) → ∀ u, ByteTurn s 0x03 u → step s = exec .endMark u)

/-- R192, R197, R202, R205 and what R210 puts together: the byte step in full. It takes the head of INQ; in HEADER the
start byte in RB selects the row that runs, at a frame's end 0x03 runs END_MARK. -/
def Obligations.ByteStepInFull : Prop :=
  ∀ (s : State) (b : Byte) (u : State), ByteTurn s b u →
    (s.rxState = .idle ∨ (s.rxState = .hunt ∧ b = 0x02) →
      ∃ t, step s = .next t ∧ RbStores s 0 b t ∧ t = { u with rb := t.rb, rxCount := 1, rxState := .header })
    ∧ (s.rxState = .hunt → b ≠ 0x02 → step s = .next u)
    ∧ (s.rxState = .header → ∀ a : Byte, s.rb.read 0 = some a →
        step s = exec (if a = 0x02 then .frameShort b else if a = 0x03 then .frameLong b else .startInvalid a b) u)
    ∧ (s.rxState = .body → s.rxExpect = some (s.rxCount + 1) → b = 0x03 → step s = exec .endMark u)
    ∧ (s.rxState = .body → s.rxExpect = some (s.rxCount + 1) → b ≠ 0x03 → s.rxCount < 261 →
        ∃ t, step s = .next t ∧ RbStores s s.rxCount b t
          ∧ t = { u with rb := t.rb, rxCount := s.rxCount + 1, rxResult := some (.malformedFrame, none),
                         status := .malformedFrame, rxState := .inactive, result := .received })
    ∧ (s.rxState = .body → s.rxExpect ≠ some (s.rxCount + 1) → s.rxCount + 1 < 261 →
        ∃ t, step s = .next t ∧ RbStores s s.rxCount b t ∧ t = { u with rb := t.rb, rxCount := s.rxCount + 1 })
    ∧ (s.rxState = .body → s.rxExpect ≠ some (s.rxCount + 1) → s.rxCount + 1 = 261 →
        ∃ t, step s = .next t ∧ RbStores s s.rxCount b t
          ∧ t = { u with rb := t.rb, rxCount := 261, rxResult := some (.bufferOverflow, none),
                         status := .bufferOverflow, rxState := .inactive, result := .received })

/-- R213: the deadline step ends the attempt with (Timeout, none) and touches neither INQ nor RB; no attempt of a
run ends with Timeout before t0 + RX_DEADLINE. -/
def Obligations.DeadlineStep : Prop :=
  (∀ (s : State) (ts : List Turn), s.InAttempt → s.t0 + s.cfg.rxDeadline ≤ s.now →
    s.schedule = .deadlineFirst :: ts ∨ (s.inq = [] ∧ BlockTurn s ts) →
    step s = .next { s with schedule := ts, rxResult := some (.timeout, none), status := .timeout,
                            rxState := .inactive, result := .received })
    ∧ ∀ s t : State, s.Inv → s.rxState ≠ .inactive → step s = .next t → t.rxResult = some (.timeout, none) →
        s.t0 + s.cfg.rxDeadline ≤ s.now

/-- R216: with the last byte of a frame in INQ and the deadline passed, both orders are admitted: the attempt ends
(OK, p) in one and (Timeout, none) in the other, and with nothing scheduled it is one of the two. -/
def Obligations.DeadlineRace : Prop :=
  ∀ (s : State) (p rest : Bytes) (ts : List Turn), s.InAttempt → s.rxState = .body → p.length ≤ 255 →
    s.rxCount = p.length + 4 → s.rxExpect = some (p.length + 5) →
    (∀ a, a < p.length + 4 → s.rb.read a = (wireFrame p)[a]?) →
    s.inq = 0x03 :: rest → s.t0 + s.cfg.rxDeadline ≤ s.now →
    (∃ t, step { s with schedule := .byteFirst :: ts } = .next t ∧ t.rxResult = some (.ok, some p) ∧ t.inq = rest)
    ∧ (∃ t, step { s with schedule := .deadlineFirst :: ts } = .next t ∧ t.rxResult = some (.timeout, none)
        ∧ t.inq = s.inq)
    ∧ (∃ t, step { s with schedule := [] } = .next t
        ∧ (t.rxResult = some (.ok, some p) ∨ t.rxResult = some (.timeout, none)))

/-- R191, R303: with no byte and no deadline an attempt has no step, and with no line to issue an idle block has none:
a scheduled turn changes nothing, and otherwise the step is a move of the outside world. -/
def Obligations.WaitForTheWorld : Prop :=
  ∀ s : State, s.cfg.valid = true →
    (s.InAttempt ∧ s.inq = [] ∧ s.now < s.t0 + s.cfg.rxDeadline) ∨ (s.rxState = .inactive ∧ s.host = []) →
    (∀ ts, s.schedule = .byteFirst :: ts ∨ s.schedule = .deadlineFirst :: ts →
      step s = .next { s with schedule := ts })
    ∧ (s.schedule = [] → ∃ m : WorldMove,
        step s = step { s with schedule := [.world m], freeIdx := s.freeIdx + 1 })

/-- R8, R39, R20: what a move of the stream agent, the diagnostic sink, the clock agent or the host's queue changes, at any
time; RESET is the only operation that comes out of turn (R300). -/
def Obligations.WorldMoves : Prop :=
  ∀ (s : State) (ts : List Turn), s.cfg.valid = true →
    (∀ b, s.schedule = .world (.arrive b) :: ts → step s = .next { s with schedule := ts, inq := s.inq ++ [b] })
    ∧ (∀ n, s.schedule = .world (.drainOut n) :: ts →
        step s = .next { s with schedule := ts, outq := s.outq.drop n })
    ∧ (∀ n, s.schedule = .world (.drainDiag n) :: ts →
        step s = .next { s with schedule := ts, diagq := s.diagq.drop n })
    ∧ (∀ d, s.schedule = .world (.elapse d) :: ts → step s = .next { s with schedule := ts, now := s.now + d })
    ∧ (∀ l, s.schedule = .world (.issue l) :: ts →
        step s = .next { s with schedule := ts, host := s.host ++ [.line l] })
    ∧ (∀ f, s.schedule = .world (.read f) :: ts →
        step s = .next { s with schedule := ts, host := s.host ++ [.readField f] })
    ∧ (s.schedule = .world .reset :: ts → step s = exec .reset { s with schedule := ts })

/-- R215: an attempt whose INQ stays empty can only wait and then time out, with RX_DIAG = 00; once the block has had a
turn at or after t0 + RX_DEADLINE it has ended with (Timeout, none). -/
def Obligations.EmptyStreamTimesOut : Prop :=
  ∀ (s : State) (ts : List Turn), FreshAttempt s → s.inq = [] → s.host = [] → s.rxResult = none →
    s.schedule = ts → ts.all quiet = true →
    ∃ t : State, Host.Core.run core ts.length s = .next t ∧ t.rxDiag = ⟨false, false⟩ ∧ t.inq = []
      ∧ ((t.rxState = .idle ∧ t.rxResult = none)
        ∨ (t.rxState = .inactive ∧ t.rxResult = some (.timeout, none) ∧ t.status = .timeout
            ∧ s.t0 + s.cfg.rxDeadline ≤ t.now))
      ∧ ∀ (pre post : List Turn) (turn : Turn) (u : State), ts = pre ++ turn :: post →
          turn = .byteFirst ∨ turn = .deadlineFirst → Host.Core.run core pre.length s = .next u →
          s.t0 + s.cfg.rxDeadline ≤ u.now → t.rxState = .inactive ∧ t.rxResult = some (.timeout, none)

/-- R211, R204: from the start of an attempt, after any bytes other than 0x02, a frame is received whole: the attempt
ends (OK, p) at its last byte, the bytes after it stay in INQ, and exactly the first rejected byte, if there is one,
is reported (to a connected sink, R278). -/
def Obligations.ReceivesFrameAfterGarbage : Prop :=
  ∀ (s : State) (g p rest : Bytes) (ts : List Turn), FreshAttempt s → (∀ b ∈ g, b ≠ 0x02) → p.length ≤ 255 →
    s.inq = g ++ wireFrame p ++ rest →
    s.schedule = List.replicate (g.length + p.length + 5) .byteFirst ++ ts →
    ∃ t : State, Host.Core.run core (g.length + p.length + 5) s = .next t
      ∧ (∀ a, t.rb.read a = (wireFrame p)[a]?)
      ∧ t = { s with
          rb := t.rb, rxCount := p.length + 5, rxExpect := some (p.length + 5), rxState := .inactive,
          rxResult := some (.ok, some p), status := .ok, result := .received, inq := rest, schedule := ts,
          rxDiag := ⟨g.head?.any (· != 0x03), g.head?.any (· == 0x03)⟩,
          diagq := sent s
            (g.head?.map fun b => if b = 0x03 then DiagEvent.unsupportedFrameType else .invalidStartMarker).toList }

/-- R199 to R204, R84: a candidate with start byte 0x02 and length byte L takes L + 5 bytes, whatever they are, and the
attempt ends at the last of them: MalformedFrame where it is not 0x03, else as UNPACK says. -/
def Obligations.CandidateEndsAtDeclaredLength : Prop :=
  ∀ (s : State) (len : Byte) (body rest : Bytes) (e : Byte) (ts : List Turn), FreshAttempt s →
    body.length = len.toNat + 2 → s.inq = [0x02, len] ++ body ++ [e] ++ rest →
    s.schedule = List.replicate (len.toNat + 5) .byteFirst ++ ts →
    ∃ (t : State) (st : Status) (pl : Option Bytes), Host.Core.run core (len.toNat + 5) s = .next t
      ∧ (e ≠ 0x03 → st = .malformedFrame ∧ pl = none)
      ∧ (e = 0x03 → Unpacks ([0x02, len] ++ body ++ [e]) st pl ∧ st ≠ .malformedFrame)
      ∧ (∀ a, t.rb.read a = ([0x02, len] ++ body ++ [e])[a]?)
      ∧ t = { s with
          rb := t.rb, rxCount := len.toNat + 5, rxExpect := some (len.toNat + 5), rxState := .inactive,
          rxResult := some (st, pl), status := st, result := .received, inq := rest, schedule := ts }

/-- R206: BufferOverflow is unreachable, and no byte step of a run addresses a cell RB does not have. -/
def Obligations.OverflowUnreachable : Prop :=
  ∀ s : State, s.Inv → step s ≠ .fault .noSuchCell
    ∧ ∀ t, step s = .next t → t.status ≠ .bufferOverflow ∧ ∀ pl, t.rxResult ≠ some (.bufferOverflow, pl)

/-- R7, R20: on the block's turn an attempt's step issues nothing of the host's and changes only the receiver's
registers, STATUS, FAULT and the queues it takes from and reports to; STATUS and RX_RESULT change only at its end. -/
def Obligations.AttemptFrame : Prop :=
  ∀ (s t : State) (ts : List Turn), s.InAttempt → BlockTurn s ts →
    s.inq ≠ [] ∨ s.t0 + s.cfg.rxDeadline ≤ s.now → step s = .next t →
    t = { s with rxState := t.rxState, rb := t.rb, rxCount := t.rxCount, rxExpect := t.rxExpect, rxDiag := t.rxDiag,
                 rxResult := t.rxResult, status := t.status, fault := t.fault, result := t.result, inq := t.inq,
                 diagq := t.diagq, schedule := ts, freeIdx := t.freeIdx }
    ∧ (t.inq = s.inq ∨ ∃ b, s.inq = b :: t.inq)
    ∧ (∃ es, t.diagq = s.diagq ++ es)
    ∧ (t.rxState ≠ .inactive → t.status = s.status ∧ t.rxResult = s.rxResult ∧ t.result = s.result)

/-! ## Command dispatcher -/

/-- R238, R236: FW_VERSION, by DECODE and by its own row; trailing bytes are ignored. -/
def Obligations.DecodeFwVersion : Prop :=
  (∀ (s : State) (b1 b2 : Byte) (rest fields : Bytes) (i : Instr), s.Ready → fields = b1 :: b2 :: rest →
    fields.length ≤ 254 → i = .decode .mc (s.cfg.cmdFwVersion :: fields) ∨ i = .cmdFwVersion fields →
    exec i s = .next { s with
      mcSnap := { s.mcSnap with fwMajor := some b1, fwMinor := some b2 }
      status := .ok, result := .decoded .ok [.fwMajor, .fwMinor] })
    ∧ TooShort .mc Config.cmdFwVersion 3 .cmdFwVersion

/-- R240, R241, R30: GET_VALUES_SETUP_SELECTIVE, by DECODE and by its own row, whatever its mask m0..m3 and the bytes
after its fields; a scaled field means raw / scale. -/
def Obligations.DecodeSetupSelective : Prop :=
  (∀ (s : State) (m0 m1 m2 m3 h0 h1 a0 a1 a2 a3 i0 i1 i2 i3 r0 r1 r2 r3 v0 v1 w0 w1 w2 w3 c0 c1 c2 c3 f : Byte)
    (rest fields : Bytes) (i : Instr), s.Ready →
    fields = [m0, m1, m2, m3, h0, h1, a0, a1, a2, a3, i0, i1, i2, i3, r0, r1, r2, r3, v0, v1,
      w0, w1, w2, w3, c0, c1, c2, c3, f] ++ rest → fields.length ≤ 254 →
    i = .decode .mc (s.cfg.cmdGetValuesSetupSelective :: fields) ∨ i = .cmdGetValuesSetupSelective fields →
    ∃ t, exec i s = .next t
      ∧ t = { s with
          mcSnap := { s.mcSnap with
            tempMotor := some (s16 h0 h1), avgMotorCurrent := some (s32 a0 a1 a2 a3),
            avgInputCurrent := some (s32 i0 i1 i2 i3), rpm := some (s32 r0 r1 r2 r3),
            inputVoltage := some (s16 v0 v1), wattHours := some (s32 w0 w1 w2 w3),
            wattHoursCharged := some (s32 c0 c1 c2 c3), faultCode := some f }
          status := .ok
          result := .decoded .ok [.tempMotor, .avgMotorCurrent, .avgInputCurrent, .rpm, .inputVoltage, .wattHours,
            .wattHoursCharged, .faultCode] }
      ∧ telemetryValue .tempMotor t = some ((s16 h0 h1 : Rat) / 10)
      ∧ telemetryValue .avgMotorCurrent t = some ((s32 a0 a1 a2 a3 : Rat) / 100)
      ∧ telemetryValue .avgInputCurrent t = some ((s32 i0 i1 i2 i3 : Rat) / 100)
      ∧ telemetryValue .rpm t = some (s32 r0 r1 r2 r3 : Rat)
      ∧ telemetryValue .inputVoltage t = some ((s16 v0 v1 : Rat) / 10)
      ∧ telemetryValue .wattHours t = some ((s32 w0 w1 w2 w3 : Rat) / 10000)
      ∧ telemetryValue .wattHoursCharged t = some ((s32 c0 c1 c2 c3 : Rat) / 10000))
    ∧ TooShort .mc Config.cmdGetValuesSetupSelective 30 .cmdGetValuesSetupSelective

/-- R242, R30: GET_DECODED_PPM, by DECODE and by its own row. -/
def Obligations.DecodeDecodedPpm : Prop :=
  (∀ (s : State) (b0 b1 b2 b3 : Byte) (rest fields : Bytes) (i : Instr), s.Ready →
    fields = [b0, b1, b2, b3] ++ rest → fields.length ≤ 254 →
    i = .decode .mc (s.cfg.cmdGetDecodedPpm :: fields) ∨ i = .cmdGetDecodedPpm fields →
    ∃ t, exec i s = .next t
      ∧ t = { s with
          mcSnap := { s.mcSnap with throttle := some (s32 b0 b1 b2 b3) }
          status := .ok, result := .decoded .ok [.throttle] }
      ∧ telemetryValue .throttle t = some ((s32 b0 b1 b2 b3 : Rat) / 10000))
    ∧ TooShort .mc Config.cmdGetDecodedPpm 5 .cmdGetDecodedPpm

/-- R244: BMS GET_VALUES, by DECODE and by its own row; the eight skipped bytes and any after the ninth do not
matter, and the byte is stored as it is. -/
def Obligations.DecodeBmsValues : Prop :=
  (∀ (s : State) (skipped rest fields : Bytes) (b : Byte) (i : Instr), s.Ready → skipped.length = 8 →
    fields = skipped ++ b :: rest → fields.length ≤ 254 →
    i = .decode .bms (s.cfg.cmdBmsGetValues :: fields) ∨ i = .cmdBmsGetValues fields →
    exec i s = .next { s with
      bmsSnap := { s.bmsSnap with soc := some b }
      status := .ok, result := .decoded .ok [.soc] })
    ∧ TooShort .bms Config.cmdBmsGetValues 10 .cmdBmsGetValues

/-- R246, R247: GET_BMS_CELLS, by DECODE and by its own row: the count as received and all twelve cells whatever the
count says. -/
def Obligations.DecodeBmsCells : Prop :=
  (∀ (s : State) (n : Byte) (cells : Fin 12 → Byte × Byte) (rest fields : Bytes) (i : Instr), s.Ready →
    fields = n :: (List.finRange 12).flatMap (fun j => [(cells j).1, (cells j).2]) ++ rest →
    fields.length ≤ 254 →
    i = .decode .bms (s.cfg.cmdBmsGetBmsCells :: fields) ∨ i = .cmdBmsGetBmsCells fields →
    ∃ t, exec i s = .next t
      ∧ t = { s with
          bmsSnap := { s.bmsSnap with
            cellCount := some n, cellVoltage := Vector.ofFn fun j => some (s16 (cells j).1 (cells j).2) }
          status := .ok
          result := .decoded .ok (.cellCount :: (List.finRange 12).map .cellVoltage) }
      ∧ ∀ j : Fin 12, telemetryValue (.cellVoltage j) t = some ((s16 (cells j).1 (cells j).2 : Rat) / 1000))
    ∧ TooShort .bms Config.cmdBmsGetBmsCells 26 .cmdBmsGetBmsCells

/-- R235: a payload with a decoded id and fewer bytes than the command's minimum completes with PayloadTooShort and
writes nothing, by DECODE and by its own row. -/
def Obligations.ShortPayloadWritesNothing : Prop :=
  ∀ (s : State) (d : Dialect) (id : Byte) (min : Nat) (op : Bytes → Instr) (fields : Bytes) (i : Instr), s.Ready →
    (d, id, min, op) ∈ decodedRows s.cfg → fields.length + 1 < min →
    i = .decode d (id :: fields) ∨ i = op fields →
    exec i s = .next { s with status := .payloadTooShort, result := .decoded .payloadTooShort [] }

/-- R231, R234: an empty payload and a payload whose id its dialect does not decode complete with UnsupportedCommand and
change no snapshot field, by DECODE and by CMD_UNKNOWN. -/
def Obligations.UnsupportedChangesNothing : Prop :=
  ∀ (s : State) (d : Dialect) (p : Bytes), s.Ready → p.length ≤ 255 →
    (∀ id ∈ p.head?, id ∉ decodedIds s.cfg d) → Unsupported (.decode d p) s ∧ Unsupported (.cmdUnknown d p) s

/-- R249: a payload that starts with an outbound id is UnsupportedCommand, unless the id equals a decoded id of the
same dialect; its row is the DECODE of that payload. -/
def Obligations.OutboundRows : Prop :=
  ∀ (s : State) (id : Byte) (op : Bytes → Instr) (fields : Bytes), s.Ready → (id, op) ∈ outboundRows s.cfg →
    fields.length ≤ 254 →
    exec (op fields) s = exec (.decode .mc (id :: fields)) s
    ∧ (id ∉ decodedIds s.cfg .mc → Unsupported (op fields) s)

/-- R88, R232: DECODE of a payload is the row the payload belongs to, in every state. -/
def Obligations.DecodeIsItsRow : Prop :=
  ∀ (s : State) (d : Dialect) (p : Bytes), p.length ≤ 255 →
    exec (.decode d p) s = exec (decodePayload s.cfg d p) s

/-- R233, R237, R248: a DECODE writes every field of its touched set and no other, none where its status is not OK, and
only in its own dialect's snapshot; it changes nothing else but STATUS and the result. -/
def Obligations.DecodeAtomic : Prop :=
  ∀ (s t : State) (d : Dialect) (p : Bytes), exec (.decode d p) s = .next t →
    ∃ touched, t.result = .decoded t.status touched
      ∧ (t.status ≠ .ok → touched = [] ∧ t.mcSnap = s.mcSnap ∧ t.bmsSnap = s.bmsSnap)
      ∧ (∀ f ∈ touched, rawOf f t ≠ none) ∧ (∀ f, f ∉ touched → rawOf f t = rawOf f s)
      ∧ (d = .mc → t.bmsSnap = s.bmsSnap) ∧ (d = .bms → t.mcSnap = s.mcSnap)
      ∧ t = { s with mcSnap := t.mcSnap, bmsSnap := t.bmsSnap, status := t.status, result := t.result }

/-- R154: the dispatcher's readers compute what GET_UINT8, GET_INT16 and GET_INT32 compute after FC_LOAD p and
FC_SKIP i. -/
def Obligations.ReadersAgreeWithGets : Prop :=
  ∀ (s : State) (p : Bytes) (i : Nat), s.Ready → p.length ≤ 256 →
    (i + 1 ≤ p.length → ∃ t, runAll [exec (.fcLoad p), exec (.fcSkip i), exec .getUint8] s = .next t
      ∧ t.result = .unsigned (u8at p i).toNat)
    ∧ (i + 2 ≤ p.length → ∃ t, runAll [exec (.fcLoad p), exec (.fcSkip i), exec .getInt16] s = .next t
      ∧ t.result = .signed (s16at p i))
    ∧ (i + 4 ≤ p.length → ∃ t, runAll [exec (.fcLoad p), exec (.fcSkip i), exec .getInt32] s = .next t
      ∧ t.result = .signed (s32at p i))

/-! ## SET_NUNCHUCK, EXCHANGE -/

/-- R250: SET_NUNCHUCK writes the whole record and nothing else. -/
def Obligations.SetNunchuckCompletes : Prop :=
  ∀ (s : State) (x y : Nat) (lower upper : Bool), s.Ready → x ≤ 255 → y ≤ 255 →
    exec (.setNunchuck x y lower upper) s = .next { s with
      nunchuck := ⟨BitVec.ofNat 8 x, BitVec.ofNat 8 y, lower, upper⟩, status := .ok, result := .none }

/-- R102, R273: EXCHANGE starts an attempt and leaves the conditional DECODE as the host's next item; at the attempt's
end that item is DECODE d, p where the result is (OK, p), and changes nothing else. -/
def Obligations.ExchangeDecodesOnlyOk : Prop :=
  (∀ (s : State) (d : Dialect), s.Ready → ∃ t, exec (.exchange d) s = .next t ∧ (∀ a, t.rb.read a = none)
    ∧ t = { s with rb := t.rb, rxCount := 0, rxExpect := none, rxDiag := ⟨false, false⟩, rxResult := none,
                   t0 := s.now, rxState := .idle, host := .decodeIfOk d :: s.host })
    ∧ ∀ (s : State) (d : Dialect) (rest : List HostItem) (ts : List Turn), s.Ready →
        s.host = .decodeIfOk d :: rest → BlockTurn s ts →
        (∀ p, s.rxResult = some (.ok, some p) →
          step s = exec (.decode d p) { s with host := rest, schedule := ts })
        ∧ ((∀ p, s.rxResult ≠ some (.ok, some p)) → step s = .next { s with host := rest, schedule := ts })

/-! ## Faults and refusals -/

/-- R276: faults are precise, for every operation: the state after a fault is the state before it, plus FAULT. -/
def Obligations.FaultsArePrecise : Prop :=
  ∀ (i : Instr) (s t : State) (r : FaultReason), s.fault = none → exec i s = .next t → t.fault = some r →
    t = { s with fault := some r }

/-- R277: while FAULT is set no operation other than RESET executes, an attempt has no step, and whatever step is taken,
FAULT stays as it is or every register is as RESET leaves it. -/
def Obligations.FaultedBlockStops : Prop :=
  ∀ (s : State) (r : FaultReason), s.cfg.valid = true → s.fault = some r →
    (∀ (i : Instr), i ≠ .reset → i.wf = true →
      (∀ d p, i = .cmdUnknown d p → ∀ id ∈ p.head?, id ∉ decodedIds s.cfg d) → exec i s = .fault (.faulted r))
    ∧ (∀ (i : Instr) (t : State), i ≠ .reset → exec i s ≠ .next t)
    ∧ (∀ ts, s.rxState ≠ .inactive → BlockTurn s ts → step s = .fault (.faulted r))
    ∧ (∀ t, step s = .next t → t.fault = some r ∨ t = t.resetRegisters)

/-- The model's choice (assumption 8, after program P6 of 95_test_vectors.md: "does not execute: FAULT is set"): the host
of a faulted block goes on past an operation that does not execute, or past a read of a telemetry field, with nothing
changed; a RESET line runs. -/
def Obligations.FaultedHostGoesOn : Prop :=
  ∀ (s : State) (r : FaultReason) (ts : List Turn) (rest : List HostItem), s.cfg.valid = true → s.fault = some r →
    s.rxState = .inactive → BlockTurn s ts →
    (∀ (text : Bytes) (i : Instr), s.host = .line text :: rest → decodeLine text = .ok (.op i) → i ≠ .reset →
      i.wf = true → step s = .next { s with host := rest, schedule := ts })
    ∧ (∀ text : Bytes, s.host = .line text :: rest → decodeLine text = .ok (.op .reset) →
        step s = exec .reset { s with host := rest, schedule := ts })
    ∧ (∀ f, s.host = .readField f :: rest → step s = .next { s with host := rest, schedule := ts })

/-- 41_field_codec.md, R10: an operation with an operand outside its domain is refused, not executed; a configuration
with two equal decoded ids in one dialect is refused. -/
def Obligations.IllFormedRefused : Prop :=
  ∀ s : State,
    (∀ i : Instr, i.wf = false → s.cfg.valid = true → s.fault = none →
      exec i s = .refused .operandDomain ∨ exec i s = .refused .notEnabled)
    ∧ (s.cfg.cmdFwVersion = s.cfg.cmdGetValuesSetupSelective ∨ s.cfg.cmdFwVersion = s.cfg.cmdGetDecodedPpm
        ∨ s.cfg.cmdGetValuesSetupSelective = s.cfg.cmdGetDecodedPpm
        ∨ s.cfg.cmdBmsGetValues = s.cfg.cmdBmsGetBmsCells →
        step s = .refused .configuration ∧ ∀ i, exec i s = .refused .configuration)

/-- The model's choice (assumption 10): a wire row where the receiver is not at the byte step its rule names is not
enabled, END_MARK over cells that hold none (R18) or beyond RB stops, and CMD_UNKNOWN of a payload its dialect decodes is
outside its domain. No step of a run does any of these. -/
def Obligations.OutOfPlaceRowsStop : Prop :=
  ∀ s : State, s.cfg.valid = true → s.fault = none →
    (∀ b, ¬ (s.rxState = .header ∧ s.rb.read 0 = some 0x02) → exec (.frameShort b) s = .refused .notEnabled)
    ∧ (∀ b, ¬ (s.rxState = .header ∧ s.rb.read 0 = some 0x03) → exec (.frameLong b) s = .refused .notEnabled)
    ∧ (∀ a b, ¬ (s.rxState = .header ∧ s.rb.read 0 = some a ∧ a ≠ 0x02 ∧ a ≠ 0x03) →
        exec (.startInvalid a b) s = .refused .notEnabled)
    ∧ (¬ (s.rxState = .body ∧ s.rxExpect = some (s.rxCount + 1)) → exec .endMark s = .refused .notEnabled)
    ∧ (s.rxState = .body → s.rxExpect = some (s.rxCount + 1) → s.rxCount < 261 →
        (∃ j, j < s.rxCount ∧ s.rb.read j = none) → Faults .endMark .unwritten s)
    ∧ (s.rxState = .body → s.rxExpect = some (s.rxCount + 1) → 261 ≤ s.rxCount →
        exec .endMark s = .fault .noSuchCell)
    ∧ ∀ (d : Dialect) (p : Bytes), (∃ id ∈ p.head?, id ∈ decodedIds s.cfg d) →
        exec (.cmdUnknown d p) s = .refused .operandDomain

/-- R18, R20, R302: the host's read of a telemetry field answers the raw value and the scale of the field's row, and
raises Unwritten where the field holds none; nothing else changes, STATUS among it. After RESET every field holds none.
How the host issues a read, and the form of its result, are the model's choices (assumption 19). -/
def Obligations.TelemetryReads : Prop :=
  (∀ (s : State) (f : TelemetryField) (v : Option Int) (k : Rat) (rest : List HostItem) (ts : List Turn), s.Ready →
    (f, v, k) ∈ telemetryRows s → s.host = .readField f :: rest → BlockTurn s ts →
    (v = none → step s = .next { s with host := rest, schedule := ts, fault := some .unwritten })
    ∧ (∀ raw, v = some raw → step s = .next { s with host := rest, schedule := ts, result := .telemetry raw k }))
    ∧ (∀ (s : State) (f : TelemetryField), ∃ v k, (f, v, k) ∈ telemetryRows s)
    ∧ ∀ s : State, s.cfg.valid = true → ∃ t, exec .reset s = .next t ∧ ∀ r ∈ telemetryRows t, r.2.1 = none

/-! ## Whole-machine rules -/

/-- The reset state meets the invariant. -/
def Obligations.InvAtReset : Prop := State.reset.Inv

/-- Every step keeps the invariant: PB and RB in canonical form within their bounds (R22, R25, R60), CUR, RX_COUNT and
RX_EXPECT in their ranges (R23, R26, R27), RB, RX_COUNT and RX_EXPECT as RX_STATE says (R24), RX_RESULT one of the
ends of an attempt (R29, R208), the raw telemetry values in the ranges of their types (R32, R33). -/
def Obligations.StepKeepsInv : Prop := ∀ s t : State, s.Inv → step s = .next t → t.Inv

/-- R20, R38: over all operations but RESET, each register changes only in the operations the register table names for
it; STATUS only where an operation completes, FAULT only with nothing else; no operation changes the configuration, takes
a byte from INQ or moves the clock; and no step changes the configuration. SEND and CRC_OVER stand for the first
operation of their expansion (assumption 7). What byte steps and the deadline step change beside the wire rows is
AttemptFrame's. -/
def Obligations.OnlyWriters : Prop :=
  (∀ (i : Instr) (s t : State), exec i s = .next t → i ≠ .reset →
    (t.crcAcc ≠ s.crcAcc → i = .crcInit ∨ (∃ b, i = .crcUpdate b) ∨ ∃ str, i = .crcOver str)
    ∧ (t.pb ≠ s.pb → i = .fcClear ∨ (∃ str, i = .fcLoad str) ∨ appends i = true ∨ ∃ p, i = .send p)
    ∧ (t.cur ≠ s.cur → width i ≠ none ∨ i = .fcClear ∨ (∃ str, i = .fcLoad str) ∨ ∃ p, i = .send p)
    ∧ (t.rxState ≠ s.rxState ∨ t.rb ≠ s.rb ∨ t.rxCount ≠ s.rxCount →
        startsAttempt i ∨ (∃ b, i = .frameShort b) ∨ rejects i ∨ i = .endMark)
    ∧ (t.rxExpect ≠ s.rxExpect → startsAttempt i ∨ (∃ b, i = .frameShort b) ∨ rejects i)
    ∧ (t.rxDiag ≠ s.rxDiag → startsAttempt i ∨ rejects i)
    ∧ (t.rxResult ≠ s.rxResult → startsAttempt i ∨ i = .endMark)
    ∧ (t.t0 ≠ s.t0 → startsAttempt i)
    ∧ (t.nunchuck ≠ s.nunchuck → ∃ x y l u, i = .setNunchuck x y l u)
    ∧ (t.mcSnap ≠ s.mcSnap → ∃ f, i ∈ [.decode .mc f, .cmdFwVersion f, .cmdGetValuesSetupSelective f,
        .cmdGetDecodedPpm f, .cmdForwardToPeer f, .cmdSetChuckData f, .cmdSetCurrent f, .cmdSetCurrentBrake f,
        .cmdSetRpm f, .cmdSetDuty f])
    ∧ (t.bmsSnap ≠ s.bmsSnap → ∃ f, i ∈ [.decode .bms f, .cmdBmsGetValues f, .cmdBmsGetBmsCells f])
    ∧ (t.status ≠ s.status → t.fault = none ∧ ¬ (startsAttempt i ∨ (∃ b, i = .frameShort b) ∨ rejects i))
    ∧ (t.fault ≠ s.fault → t = { s with fault := t.fault })
    ∧ (t.outq ≠ s.outq → i = .pack)
    ∧ (t.diagq ≠ s.diagq → rejects i)
    ∧ t.cfg = s.cfg ∧ t.inq = s.inq ∧ t.now = s.now)
    ∧ ∀ s t : State, step s = .next t → t.cfg = s.cfg

/-! ## Encodings -/

/-- On the block's turn with no attempt in progress, a step issues the host's next item: where a line decodes to an
operation and FAULT is none the step is exec of that operation, past the line (R7, R101), and the same for an operation of
an expansion (R102). The model's choices: how lines are held (assumption 2); that a delivery line's bytes arrive when the
host comes to it (assumption 15); that a blank line does nothing (assumption 18); that a line that is none of these is
refused by name (assumption 14); that the rest of an expansion is the host's next items (assumption 7). -/
def Obligations.StepRunsDecodedLine : Prop :=
  ∀ (s : State) (rest : List HostItem) (ts : List Turn), s.cfg.valid = true → s.rxState = .inactive →
    BlockTurn s ts →
    (∀ text : Bytes, s.host = .line text :: rest →
      (s.fault = none → ∀ i, decodeLine text = .ok (.op i) → step s = exec i { s with host := rest, schedule := ts })
      ∧ (∀ bs, decodeLine text = .ok (.deliver bs) →
          step s = .next { s with host := rest, schedule := ts, inq := s.inq ++ bs })
      ∧ (decodeLine text = .ok .blank → step s = .next { s with host := rest, schedule := ts })
      ∧ (∀ e, decodeLine text = .error e → step s = .refused (.undecodable e)))
    ∧ (s.fault = none → ∀ i : Instr, s.host = .op i :: rest → step s = exec i { s with host := rest, schedule := ts })

/-- R85, R101: words written out from the spec's encodings decode to the operations they stand for. -/
def Obligations.KnownWordsDecode : Prop :=
  -- "PACK"
  decodeLine [0x50, 0x41, 0x43, 0x4B] = .ok (.op .pack)
    -- "GET_INT16 ; read"
    ∧ decodeLine [0x47, 0x45, 0x54, 0x5F, 0x49, 0x4E, 0x54, 0x31, 0x36, 0x20, 0x3B, 0x20, 0x72, 0x65, 0x61, 0x64]
        = .ok (.op .getInt16)
    -- "CRC_UPDATE 3F"
    ∧ decodeLine [0x43, 0x52, 0x43, 0x5F, 0x55, 0x50, 0x44, 0x41, 0x54, 0x45, 0x20, 0x33, 0x46]
        = .ok (.op (.crcUpdate 0x3F))
    -- "DECODE MC, [99 01]"
    ∧ decodeLine [0x44, 0x45, 0x43, 0x4F, 0x44, 0x45, 0x20, 0x4D, 0x43, 0x2C, 0x20, 0x5B, 0x39, 0x39, 0x20, 0x30,
        0x31, 0x5D] = .ok (.op (.decode .mc [0x99, 0x01]))
    -- "APPEND_INT16 -2"
    ∧ decodeLine [0x41, 0x50, 0x50, 0x45, 0x4E, 0x44, 0x5F, 0x49, 0x4E, 0x54, 0x31, 0x36, 0x20, 0x2D, 0x32]
        = .ok (.op (.appendInt16 (-2)))
    -- the bytes 02 05, 03 00 and AA 55 at a frame's start, and 03 at its end
    ∧ decodeStart 0x02 0x05 = .frameShort 0x05 ∧ decodeStart 0x03 0x00 = .frameLong 0x00
    ∧ decodeStart 0xAA 0x55 = .startInvalid 0xAA 0x55 ∧ decodeEnd 0x03 = .ok .endMark
    -- a payload that starts with FW_VERSION's id, under any configuration
    ∧ ∀ c : Config, decodePayload c .mc [c.cmdFwVersion, 0x05, 0x02] = .cmdFwVersion [0x05, 0x02]

/-- Decoding the encoding of a well-formed operation gives it back, for every operation and every operand, under every
configuration whose MotorController ids differ; a payload of CMD_UNKNOWN starts with no id of its dialect. -/
def Obligations.DecodeEncode : Prop :=
  ∀ (c : Config) (i : Instr), c.valid = true → (c.idsOf .mc).Nodup → i.wf = true →
    (∀ d p, i = .cmdUnknown d p → ∀ id ∈ p.head?, id ∉ c.idsOf d) → decode c (encode c i) = .ok i
end

