-- ==== Sys2Proof/Laws/Codec.lean ====
section
/-! SUPPORT. The field encodings: joining the bytes of a word gives it back, reading an encoded value gives
it back, and every reading lies in the range of its type (41_field_codec.md, 30_encoding.md R87). -/

namespace Sys2Proof.Machine

@[simp] theorem encodeU8_length (v : Int) : (encodeU8 v).length = 1 := rfl
@[simp] theorem encodeBool_length (v : Bool) : (encodeBool v).length = 1 := rfl
@[simp] theorem encode16_length (v : Int) : (encode16 v).length = 2 := rfl
@[simp] theorem encode32_length (v : Int) : (encode32 v).length = 4 := rfl
@[simp] theorem bytes16_length (v : Half) : (bytes16 v).length = 2 := rfl

theorem be16_hi_lo (v : Half) : be16 (hi8 v) (lo8 v) = v := by
  apply BitVec.eq_of_getLsbD_eq
  intro i hi
  simp only [be16, hi8, lo8, BitVec.getLsbD_append, BitVec.getLsbD_extractLsb']
  by_cases h : i < 8
  · simp [h]
  · simp [h, show i - 8 < 8 by omega, show 8 + (i - 8) = i by omega]

theorem be32_bytes (v : Word) :
    be32 (v.extractLsb' 24 8) (v.extractLsb' 16 8) (v.extractLsb' 8 8) (v.extractLsb' 0 8) = v := by
  apply BitVec.eq_of_getLsbD_eq
  intro i hi
  simp only [be32, BitVec.getLsbD_append, BitVec.getLsbD_extractLsb']
  by_cases h : i < 8
  · simp [h]
  by_cases h1 : i - 8 < 8
  · simp [h, h1, show 8 + (i - 8) = i by omega]
  by_cases h2 : i - 8 - 8 < 8
  · simp [h, h1, h2, show 16 + (i - 8 - 8) = i by omega]
  · simp [h, h1, h2, show i - 8 - 8 - 8 < 8 by omega, show 24 + (i - 8 - 8 - 8) = i by omega]

theorem be16_toNat (a b : Byte) : (be16 a b).toNat = a.toNat * 256 + b.toNat := by
  rw [be16, BitVec.toNat_append, ← Nat.shiftLeft_add_eq_or_of_lt b.isLt, Nat.shiftLeft_eq]

theorem be32_toNat (a b c d : Byte) :
    (be32 a b c d).toNat = a.toNat * 16777216 + b.toNat * 65536 + c.toNat * 256 + d.toNat := by
  have h : ∀ {w : Nat} (x : BitVec w) (y : Byte), (x ++ y).toNat = x.toNat * 256 + y.toNat := by
    intro w x y
    rw [BitVec.toNat_append, ← Nat.shiftLeft_add_eq_or_of_lt y.isLt, Nat.shiftLeft_eq]
  rw [be32, h, h, h]; omega

/-! ### Reading an encoded value gives it back -/

theorem readU8_encodeU8 {v : Int} (h : inU8 v = true) : (readU8 (encodeU8 v) : Int) = v := by
  simp only [inU8, Bool.and_eq_true, decide_eq_true_eq] at h
  simp only [readU8, encodeU8, wrap8, List.getD_cons_zero, BitVec.toNat_ofInt]
  omega

theorem readBool_encodeBool (v : Bool) : readBool (encodeBool v) = v := by cases v <;> decide

theorem readU16_encode16 {v : Int} (h : inU16 v = true) : (readU16 (encode16 v) : Int) = v := by
  simp only [inU16, Bool.and_eq_true, decide_eq_true_eq] at h
  simp only [readU16, encode16, bytes16, List.getD_cons_zero, List.getD_cons_succ, be16_hi_lo, wrap16,
    BitVec.toNat_ofInt]
  omega

theorem readS16_encode16 {v : Int} (h : inS16 v = true) : readS16 (encode16 v) = v := by
  simp only [inS16, Bool.and_eq_true, decide_eq_true_eq] at h
  simp only [readS16, encode16, bytes16, List.getD_cons_zero, List.getD_cons_succ, be16_hi_lo, wrap16,
    BitVec.toInt_ofInt, Int.bmod_def]
  omega

theorem readU32_encode32 {v : Int} (h : inU32 v = true) : (readU32 (encode32 v) : Int) = v := by
  simp only [inU32, Bool.and_eq_true, decide_eq_true_eq] at h
  simp only [readU32, encode32, bytes32, List.getD_cons_zero, List.getD_cons_succ, be32_bytes, wrap32,
    BitVec.toNat_ofInt]
  omega

theorem readS32_encode32 {v : Int} (h : inS32 v = true) : readS32 (encode32 v) = v := by
  simp only [inS32, Bool.and_eq_true, decide_eq_true_eq] at h
  simp only [readS32, encode32, bytes32, List.getD_cons_zero, List.getD_cons_succ, be32_bytes, wrap32,
    BitVec.toInt_ofInt, Int.bmod_def]
  omega

/-! ### Ranges of the readings -/

theorem readS16_range (bs : Bytes) : -32768 ≤ readS16 bs ∧ readS16 bs ≤ 32767 := by
  have h1 := BitVec.le_toInt (be16 (bs.getD 0 0) (bs.getD 1 0))
  have h2 := BitVec.toInt_lt (x := be16 (bs.getD 0 0) (bs.getD 1 0))
  simp only [readS16]; exact ⟨by simpa using h1, by have := h2; simp only [Nat.add_one_sub_one] at this; omega⟩

theorem readS32_range (bs : Bytes) : -2147483648 ≤ readS32 bs ∧ readS32 bs ≤ 2147483647 := by
  have h1 := BitVec.le_toInt (be32 (bs.getD 0 0) (bs.getD 1 0) (bs.getD 2 0) (bs.getD 3 0))
  have h2 := BitVec.toInt_lt (x := be32 (bs.getD 0 0) (bs.getD 1 0) (bs.getD 2 0) (bs.getD 3 0))
  simp only [readS32]; exact ⟨by simpa using h1, by have := h2; simp only [Nat.add_one_sub_one] at this; omega⟩

theorem s16at_range (p : Bytes) (i : Nat) : -32768 ≤ s16at p i ∧ s16at p i ≤ 32767 := readS16_range _

theorem s32at_range (p : Bytes) (i : Nat) : -2147483648 ≤ s32at p i ∧ s32at p i ≤ 2147483647 := readS32_range _

end Sys2Proof.Machine
end

