-- ==== Sys2Proof/Laws/Frame.lean ====
section
/-! SUPPORT. The frame codec: the parts of a frame, and what UNPACK answers (42_frame_codec.md). -/

namespace Sys2Proof.Machine

theorem frame_eq (p : Bytes) :
    frame p = startShort :: BitVec.ofNat 8 p.length :: (p ++ [hi8 (crc16 p), lo8 (crc16 p), endMarkByte]) := by
  simp [frame, bytes16]

/-- |frame(p)| = |p| + 5 (R170). -/
@[simp] theorem frame_length (p : Bytes) : (frame p).length = p.length + 5 := by simp [frame]

theorem framePayload_frame (p : Bytes) : framePayload (frame p) = p := by
  simp [framePayload, frame_eq]

theorem frameCrc_frame (p : Bytes) : frameCrc (frame p) = crc16 p := by
  have h3 : p.length + 5 - 3 = p.length + 2 := by omega
  have h2 : p.length + 5 - 2 = p.length + 3 := by omega
  rw [frameCrc, frame_length, h3, h2, frame_eq]
  simp [List.getD_eq_getElem?_getD, be16_hi_lo]

theorem envelopeOk_frame {p : Bytes} (h : p.length ≤ 255) : envelopeOk (frame p) = true := by
  have h1 : p.length + 5 - 1 = p.length + 4 := by omega
  have hl : (BitVec.ofNat 8 p.length).toNat = p.length := by simp; omega
  rw [envelopeOk, frame_length, h1, frame_eq]
  simp only [List.getD_cons_succ, List.getD_cons_zero, hl]
  simp [List.getD_eq_getElem?_getD]
  omega

/-- UNPACK of a frame gives its payload (R177). -/
theorem unpack_frame_of_length {p : Bytes} (h : p.length ≤ 255) : unpack (frame p) = (.ok, some p) := by
  simp [unpack, envelopeOk_frame h, framePayload_frame, frameCrc_frame]

/-- Everything UNPACK can answer (R173 to R175). -/
theorem unpack_cases (raw : Bytes) :
    (envelopeOk raw = false ∧ unpack raw = (.malformedFrame, none))
      ∨ (envelopeOk raw = true ∧ crc16 (framePayload raw) ≠ frameCrc raw ∧ unpack raw = (.checksumMismatch, none))
      ∨ (envelopeOk raw = true ∧ crc16 (framePayload raw) = frameCrc raw
          ∧ unpack raw = (.ok, some (framePayload raw))) := by
  unfold unpack
  cases he : envelopeOk raw
  · exact .inl ⟨rfl, rfl⟩
  · by_cases hc : crc16 (framePayload raw) = frameCrc raw
    · exact .inr (.inr ⟨rfl, hc, by simp [hc]⟩)
    · exact .inr (.inl ⟨rfl, hc, by simp [hc]⟩)

theorem framePayload_length {raw : Bytes} (h : envelopeOk raw = true) : (framePayload raw).length ≤ 255 := by
  simp only [envelopeOk, Bool.and_eq_true, decide_eq_true_eq] at h
  simp only [framePayload, List.length_take, List.length_drop]
  omega

end Sys2Proof.Machine
end

