-- ==== Sys2Proof/Laws/Memory.lean ====
section
/-! SUPPORT. The laws of the memories PB and RB: read after write, the canonical form and the capacity kept
by every operation, and what the multi-byte operations do. -/

namespace Sys2Proof.Machine

theorem Memory.read_nil (a : Nat) : Memory.read [] a = none := rfl

theorem Memory.read_eq_none_of_notMem {m : Memory} {a : Nat} (h : ∀ c ∈ m, c.1 ≠ a) : m.read a = none := by
  induction m with
  | nil => rfl
  | cons c m ih =>
    obtain ⟨k, v⟩ := c
    rw [Memory.read, if_neg (h (k, v) (by simp))]
    exact ih fun c hc => h c (by simp [hc])

/-- A read after a write to the same cell gives the byte written. -/
theorem Memory.read_write_same (m : Memory) (a : Nat) (b : Byte) : (m.write a b).read a = some b := by
  induction m with
  | nil => simp [Memory.write, Memory.read]
  | cons c m ih =>
    obtain ⟨k, v⟩ := c
    rw [Memory.write]
    split
    · simp [Memory.read]
    · split
      · simp [Memory.read]
      · rw [Memory.read, if_neg (by omega)]
        exact ih

/-- A write leaves every other cell alone. -/
theorem Memory.read_write_other (m : Memory) {a a' : Nat} (b : Byte) (h : a' ≠ a) :
    (m.write a b).read a' = m.read a' := by
  induction m with
  | nil => simp [Memory.write, Memory.read, Ne.symm h]
  | cons c m ih =>
    obtain ⟨k, v⟩ := c
    rw [Memory.write]
    split
    · simp [Memory.read, Ne.symm h]
    · split
      · subst_vars; simp [Memory.read, Ne.symm h]
      · simp [Memory.read, ih]

theorem Memory.mem_write {m : Memory} {a : Nat} {b : Byte} {c : Host.Cell} (h : c ∈ m.write a b) :
    c = (a, b) ∨ c ∈ m := by
  induction m with
  | nil => exact .inl (by simpa [Memory.write] using h)
  | cons d m ih =>
    obtain ⟨k, v⟩ := d
    rw [Memory.write] at h
    split at h
    · simpa using h
    · split at h
      · rcases List.mem_cons.1 h with h | h <;> simp [h]
      · rcases List.mem_cons.1 h with h | h
        · simp [h]
        · rcases ih h with h | h <;> simp [h]

/-- A write keeps the canonical form. -/
theorem Memory.wf_write {m : Memory} (h : m.wf) (a : Nat) (b : Byte) : (m.write a b).wf := by
  induction m with
  | nil => simp [Memory.write, Memory.wf]
  | cons c m ih =>
    obtain ⟨k, v⟩ := c
    obtain ⟨hk, hm⟩ := List.pairwise_cons.1 h
    rw [Memory.write]
    split
    · refine List.pairwise_cons.2 ⟨fun d hd => ?_, h⟩
      rcases List.mem_cons.1 hd with rfl | hd
      · assumption
      · have := hk d hd; simp only at this ⊢; omega
    · split
      · rename_i h2
        subst h2
        exact List.pairwise_cons.2 ⟨hk, hm⟩
      · refine List.pairwise_cons.2 ⟨fun d hd => ?_, ih hm⟩
        rcases Memory.mem_write hd with rfl | hd
        · simp only; omega
        · exact hk d hd

/-- A write below the capacity stays below it. -/
theorem Memory.below_write {n : Nat} {m : Memory} (h : m.below n) {a : Nat} (ha : a < n) (b : Byte) :
    (m.write a b).below n := by
  intro c hc
  rcases Memory.mem_write hc with rfl | hc
  · exact ha
  · exact h c hc

theorem Memory.wf_nil : Memory.wf [] := List.Pairwise.nil

theorem Memory.below_nil (n : Nat) : Memory.below n [] := by simp [Memory.below]

theorem Memory.wf_erase {m : Memory} (h : m.wf) (a : Nat) : (m.erase a).wf := List.Pairwise.filter _ h

theorem Memory.below_erase {n : Nat} {m : Memory} (h : m.below n) (a : Nat) : (m.erase a).below n :=
  fun c hc => h c (List.mem_filter.1 hc).1

/-- An erased cell holds `none`. -/
theorem Memory.read_erase_same (m : Memory) (a : Nat) : (m.erase a).read a = none := by
  refine Memory.read_eq_none_of_notMem fun c hc => ?_
  have := (List.mem_filter.1 hc).2
  simpa using this

/-- Erasing a cell leaves every other cell alone. -/
theorem Memory.read_erase_other (m : Memory) {a a' : Nat} (h : a' ≠ a) : (m.erase a).read a' = m.read a' := by
  induction m with
  | nil => rfl
  | cons c m ih =>
    obtain ⟨k, v⟩ := c
    unfold Memory.erase at ih ⊢
    by_cases hk : k = a
    · subst hk
      simp [Memory.read, Ne.symm h, ih]
    · simp [hk, Memory.read, ih]

/-! ### Byte strings -/

theorem Memory.wf_writeBytes {m : Memory} (h : m.wf) (a : Nat) (bs : Bytes) : (m.writeBytes a bs).wf := by
  induction bs generalizing m a with
  | nil => exact h
  | cons b bs ih => exact ih (Memory.wf_write h a b) (a + 1)

theorem Memory.below_writeBytes {n : Nat} {m : Memory} (h : m.below n) {a : Nat} {bs : Bytes}
    (ha : a + bs.length ≤ n) : (m.writeBytes a bs).below n := by
  induction bs generalizing m a with
  | nil => exact h
  | cons b bs ih =>
    simp only [List.length_cons] at ha
    exact ih (Memory.below_write h (by omega) b) (by omega)

/-- MemWrite leaves every cell outside its bytes alone. -/
theorem Memory.read_writeBytes_outside (m : Memory) {a : Nat} {bs : Bytes} {a' : Nat}
    (h : a' < a ∨ a + bs.length ≤ a') : (m.writeBytes a bs).read a' = m.read a' := by
  induction bs generalizing m a with
  | nil => rfl
  | cons b bs ih =>
    simp only [List.length_cons] at h
    rw [Memory.writeBytes, ih _ (by omega), Memory.read_write_other _ _ (by omega)]

/-- MemWrite puts byte `j` of the string at cell `a + j`. -/
theorem Memory.read_writeBytes_inside (m : Memory) (a : Nat) (bs : Bytes) {j : Nat} (h : j < bs.length) :
    (m.writeBytes a bs).read (a + j) = some bs[j] := by
  induction bs generalizing m a j with
  | nil => simp at h
  | cons b bs ih =>
    rw [Memory.writeBytes]
    cases j with
    | zero =>
      rw [Memory.read_writeBytes_outside _ (by omega)]
      simpa using Memory.read_write_same m a b
    | succ j =>
      have h' : j < bs.length := by simpa using h
      rw [show a + (j + 1) = a + 1 + j by omega, ih _ _ h']
      simp

/-- MemRead answers a string exactly when each of its cells holds that byte. -/
theorem Memory.readBytes_eq_some {m : Memory} {a n : Nat} {bs : Bytes} :
    m.readBytes a n = some bs ↔ bs.length = n ∧ ∀ j (h : j < bs.length), m.read (a + j) = some bs[j] := by
  induction n generalizing a bs with
  | zero =>
    constructor
    · intro h
      have : bs = [] := by simpa [Memory.readBytes] using h.symm
      subst this; simp
    · rintro ⟨h, -⟩
      rw [List.length_eq_zero_iff.1 h]; rfl
  | succ n ih =>
    cases bs with
    | nil =>
      simp only [Memory.readBytes, List.length_nil]
      constructor
      · intro h; split at h <;> simp at h
      · rintro ⟨h, -⟩; omega
    | cons b bs =>
      rw [Memory.readBytes]
      constructor
      · intro h
        split at h
        · rename_i b' bs' hb hbs
          obtain ⟨rfl, rfl⟩ : b' = b ∧ bs' = bs := by simpa using h
          obtain ⟨hl, hr⟩ := ih.1 hbs
          refine ⟨by simp [hl], fun j hj => ?_⟩
          cases j with
          | zero => simpa using hb
          | succ j =>
            have hj' : j < bs'.length := by simpa using hj
            rw [show a + (j + 1) = a + 1 + j by omega, hr j hj']; simp
        · simp at h
      · rintro ⟨hl, hr⟩
        have h0 := hr 0 (by simp)
        have ht : m.readBytes (a + 1) n = some bs := ih.2 ⟨by simpa using hl, fun j hj => by
          have := hr (j + 1) (by simp [hj])
          rw [show a + 1 + j = a + (j + 1) by omega, this]; simp⟩
        rw [show a + 0 = a by omega] at h0
        simp [h0, ht]

/-- MemRead answers `none` exactly when one of its cells holds `none`. -/
theorem Memory.readBytes_eq_none {m : Memory} {a n : Nat} :
    m.readBytes a n = none ↔ ∃ j < n, m.read (a + j) = none := by
  induction n generalizing a with
  | zero => simp [Memory.readBytes]
  | succ n ih =>
    rw [Memory.readBytes]
    constructor
    · intro h
      cases h0 : m.read a with
      | none => exact ⟨0, by omega, by simpa using h0⟩
      | some b =>
        cases h1 : m.readBytes (a + 1) n with
        | none =>
          obtain ⟨j, hj, hr⟩ := ih.1 h1
          exact ⟨j + 1, by omega, by rw [← hr]; congr 1; omega⟩
        | some bs => simp [h0, h1] at h
    · rintro ⟨j, hj, hr⟩
      cases j with
      | zero => simp [show m.read a = none by simpa using hr]
      | succ j =>
        have : m.readBytes (a + 1) n = none := ih.2 ⟨j, by omega, by rw [← hr]; congr 1; omega⟩
        simp [this]

theorem Memory.mem_ofBytesFrom {a : Nat} {bs : Bytes} {c : Host.Cell} (h : c ∈ Memory.ofBytesFrom a bs) :
    a ≤ c.1 ∧ c.1 < a + bs.length := by
  induction bs generalizing a with
  | nil => simp [Memory.ofBytesFrom] at h
  | cons b bs ih =>
    rcases List.mem_cons.1 h with rfl | h
    · simp
    · have := ih h; simp only [List.length_cons]; omega

theorem Memory.wf_ofBytesFrom (a : Nat) (bs : Bytes) : (Memory.ofBytesFrom a bs).wf := by
  induction bs generalizing a with
  | nil => exact Memory.wf_nil
  | cons b bs ih =>
    refine List.pairwise_cons.2 ⟨fun c hc => ?_, ih (a + 1)⟩
    have := (Memory.mem_ofBytesFrom hc).1; simp only; omega

theorem Memory.wf_ofBytes (bs : Bytes) : (Memory.ofBytes bs).wf := Memory.wf_ofBytesFrom 0 bs

theorem Memory.below_ofBytes {n : Nat} {bs : Bytes} (h : bs.length ≤ n) : (Memory.ofBytes bs).below n :=
  fun c hc => by have := (Memory.mem_ofBytesFrom hc).2; omega

theorem Memory.read_ofBytesFrom (a : Nat) (bs : Bytes) (j : Nat) :
    (Memory.ofBytesFrom a bs).read (a + j) = bs[j]? := by
  induction bs generalizing a j with
  | nil => simp [Memory.ofBytesFrom, Memory.read]
  | cons b bs ih =>
    rw [Memory.ofBytesFrom, Memory.read]
    cases j with
    | zero => simp
    | succ j =>
      rw [if_neg (by omega), show a + (j + 1) = a + 1 + j by omega, ih]
      simp

/-- The cells of a loaded string are its bytes, and every other cell holds `none` (R134). -/
theorem Memory.read_ofBytes (bs : Bytes) (a : Nat) : (Memory.ofBytes bs).read a = bs[a]? := by
  simpa [Memory.ofBytes] using Memory.read_ofBytesFrom 0 bs a

/-- Reading a slice of a loaded string. -/
theorem Memory.readBytes_ofBytes (bs : Bytes) {a n : Nat} (h : a + n ≤ bs.length) :
    (Memory.ofBytes bs).readBytes a n = some ((bs.drop a).take n) := by
  refine Memory.readBytes_eq_some.2 ⟨by simp; omega, fun j hj => ?_⟩
  rw [Memory.read_ofBytes]
  simp only [List.length_take, List.length_drop] at hj
  rw [List.getElem?_eq_getElem (by omega)]
  simp

theorem Memory.write_ofBytesFrom_end (a : Nat) (bs : Bytes) (b : Byte) :
    (Memory.ofBytesFrom a bs).write (a + bs.length) b = Memory.ofBytesFrom a (bs ++ [b]) := by
  induction bs generalizing a with
  | nil => rfl
  | cons c bs ih =>
    simp only [Memory.ofBytesFrom, Memory.write, List.length_cons, List.cons_append]
    rw [if_neg (by omega), if_neg (by omega), show a + (bs.length + 1) = a + 1 + bs.length by omega, ih]

/-- Writing the next byte after a loaded string extends it (R198). -/
theorem Memory.write_ofBytes_end (bs : Bytes) (b : Byte) :
    (Memory.ofBytes bs).write bs.length b = Memory.ofBytes (bs ++ [b]) := by
  simpa [Memory.ofBytes] using Memory.write_ofBytesFrom_end 0 bs b

/-- Reading any cell after a write. -/
theorem Memory.read_write (m : Memory) (a : Nat) (b : Byte) (x : Nat) :
    (m.write a b).read x = if x = a then some b else m.read x := by
  split
  · rename_i h; subst h; exact Memory.read_write_same _ _ _
  · rename_i h; exact Memory.read_write_other _ _ h

/-- Reading any cell after a cell was set to `none`. -/
theorem Memory.read_erase (m : Memory) (a : Nat) (x : Nat) :
    (m.erase a).read x = if x = a then none else m.read x := by
  split
  · rename_i h; subst h; exact Memory.read_erase_same _ _
  · rename_i h; exact Memory.read_erase_other _ h

/-- Reading any cell after a string was written. -/
theorem Memory.read_writeBytes (m : Memory) (a : Nat) (bs : Bytes) (x : Nat) :
    (m.writeBytes a bs).read x = if a ≤ x ∧ x < a + bs.length then bs[x - a]? else m.read x := by
  split
  · rename_i h
    have := Memory.read_writeBytes_inside m a bs (j := x - a) (by omega)
    rw [show a + (x - a) = x by omega] at this
    rw [this, List.getElem?_eq_getElem]
  · exact Memory.read_writeBytes_outside _ (by omega)

end Sys2Proof.Machine
end

