-- ==== Sys2Proof/Laws/State.lean ====
section
/-! SUPPORT. What each named update of State leaves in each field: one lemma per field per update. -/

namespace Sys2Proof.Machine

variable (s : State)

/-! ### complete -/

@[simp] theorem State.complete_crcAcc (st : Status) (res : OpResult) : (s.complete st res).crcAcc = s.crcAcc := rfl
@[simp] theorem State.complete_pb (st : Status) (res : OpResult) : (s.complete st res).pb = s.pb := rfl
@[simp] theorem State.complete_cur (st : Status) (res : OpResult) : (s.complete st res).cur = s.cur := rfl
@[simp] theorem State.complete_rxState (st : Status) (res : OpResult) : (s.complete st res).rxState = s.rxState := rfl
@[simp] theorem State.complete_rb (st : Status) (res : OpResult) : (s.complete st res).rb = s.rb := rfl
@[simp] theorem State.complete_rxCount (st : Status) (res : OpResult) : (s.complete st res).rxCount = s.rxCount := rfl
@[simp] theorem State.complete_rxExpect (st : Status) (res : OpResult) : (s.complete st res).rxExpect = s.rxExpect := rfl
@[simp] theorem State.complete_rxDiag (st : Status) (res : OpResult) : (s.complete st res).rxDiag = s.rxDiag := rfl
@[simp] theorem State.complete_rxResult (st : Status) (res : OpResult) : (s.complete st res).rxResult = s.rxResult := rfl
@[simp] theorem State.complete_mcSnap (st : Status) (res : OpResult) : (s.complete st res).mcSnap = s.mcSnap := rfl
@[simp] theorem State.complete_bmsSnap (st : Status) (res : OpResult) : (s.complete st res).bmsSnap = s.bmsSnap := rfl
@[simp] theorem State.complete_nunchuck (st : Status) (res : OpResult) : (s.complete st res).nunchuck = s.nunchuck := rfl
@[simp] theorem State.complete_status (st : Status) (res : OpResult) : (s.complete st res).status = st := rfl
@[simp] theorem State.complete_fault (st : Status) (res : OpResult) : (s.complete st res).fault = s.fault := rfl
@[simp] theorem State.complete_result (st : Status) (res : OpResult) : (s.complete st res).result = res := rfl
@[simp] theorem State.complete_inq (st : Status) (res : OpResult) : (s.complete st res).inq = s.inq := rfl
@[simp] theorem State.complete_outq (st : Status) (res : OpResult) : (s.complete st res).outq = s.outq := rfl
@[simp] theorem State.complete_diagq (st : Status) (res : OpResult) : (s.complete st res).diagq = s.diagq := rfl
@[simp] theorem State.complete_now (st : Status) (res : OpResult) : (s.complete st res).now = s.now := rfl
@[simp] theorem State.complete_t0 (st : Status) (res : OpResult) : (s.complete st res).t0 = s.t0 := rfl
@[simp] theorem State.complete_cfg (st : Status) (res : OpResult) : (s.complete st res).cfg = s.cfg := rfl
@[simp] theorem State.complete_host (st : Status) (res : OpResult) : (s.complete st res).host = s.host := rfl
@[simp] theorem State.complete_schedule (st : Status) (res : OpResult) : (s.complete st res).schedule = s.schedule := rfl
@[simp] theorem State.complete_freeIdx (st : Status) (res : OpResult) : (s.complete st res).freeIdx = s.freeIdx := rfl

/-! ### enterFault -/

@[simp] theorem State.enterFault_crcAcc (r : FaultReason) : (s.enterFault r).crcAcc = s.crcAcc := rfl
@[simp] theorem State.enterFault_pb (r : FaultReason) : (s.enterFault r).pb = s.pb := rfl
@[simp] theorem State.enterFault_cur (r : FaultReason) : (s.enterFault r).cur = s.cur := rfl
@[simp] theorem State.enterFault_rxState (r : FaultReason) : (s.enterFault r).rxState = s.rxState := rfl
@[simp] theorem State.enterFault_rb (r : FaultReason) : (s.enterFault r).rb = s.rb := rfl
@[simp] theorem State.enterFault_rxCount (r : FaultReason) : (s.enterFault r).rxCount = s.rxCount := rfl
@[simp] theorem State.enterFault_rxExpect (r : FaultReason) : (s.enterFault r).rxExpect = s.rxExpect := rfl
@[simp] theorem State.enterFault_rxDiag (r : FaultReason) : (s.enterFault r).rxDiag = s.rxDiag := rfl
@[simp] theorem State.enterFault_rxResult (r : FaultReason) : (s.enterFault r).rxResult = s.rxResult := rfl
@[simp] theorem State.enterFault_mcSnap (r : FaultReason) : (s.enterFault r).mcSnap = s.mcSnap := rfl
@[simp] theorem State.enterFault_bmsSnap (r : FaultReason) : (s.enterFault r).bmsSnap = s.bmsSnap := rfl
@[simp] theorem State.enterFault_nunchuck (r : FaultReason) : (s.enterFault r).nunchuck = s.nunchuck := rfl
@[simp] theorem State.enterFault_status (r : FaultReason) : (s.enterFault r).status = s.status := rfl
@[simp] theorem State.enterFault_fault (r : FaultReason) : (s.enterFault r).fault = some (s.fault.getD r) := rfl
@[simp] theorem State.enterFault_result (r : FaultReason) : (s.enterFault r).result = s.result := rfl
@[simp] theorem State.enterFault_inq (r : FaultReason) : (s.enterFault r).inq = s.inq := rfl
@[simp] theorem State.enterFault_outq (r : FaultReason) : (s.enterFault r).outq = s.outq := rfl
@[simp] theorem State.enterFault_diagq (r : FaultReason) : (s.enterFault r).diagq = s.diagq := rfl
@[simp] theorem State.enterFault_now (r : FaultReason) : (s.enterFault r).now = s.now := rfl
@[simp] theorem State.enterFault_t0 (r : FaultReason) : (s.enterFault r).t0 = s.t0 := rfl
@[simp] theorem State.enterFault_cfg (r : FaultReason) : (s.enterFault r).cfg = s.cfg := rfl
@[simp] theorem State.enterFault_host (r : FaultReason) : (s.enterFault r).host = s.host := rfl
@[simp] theorem State.enterFault_schedule (r : FaultReason) : (s.enterFault r).schedule = s.schedule := rfl
@[simp] theorem State.enterFault_freeIdx (r : FaultReason) : (s.enterFault r).freeIdx = s.freeIdx := rfl

/-! ### noteInvalidStart -/

@[simp] theorem State.noteInvalidStart_crcAcc : s.noteInvalidStart.crcAcc = s.crcAcc := rfl
@[simp] theorem State.noteInvalidStart_pb : s.noteInvalidStart.pb = s.pb := rfl
@[simp] theorem State.noteInvalidStart_cur : s.noteInvalidStart.cur = s.cur := rfl
@[simp] theorem State.noteInvalidStart_rxState : s.noteInvalidStart.rxState = s.rxState := rfl
@[simp] theorem State.noteInvalidStart_rb : s.noteInvalidStart.rb = s.rb := rfl
@[simp] theorem State.noteInvalidStart_rxCount : s.noteInvalidStart.rxCount = s.rxCount := rfl
@[simp] theorem State.noteInvalidStart_rxExpect : s.noteInvalidStart.rxExpect = s.rxExpect := rfl
@[simp] theorem State.noteInvalidStart_rxDiag : s.noteInvalidStart.rxDiag = { s.rxDiag with seenInvalidStart := true } := rfl
@[simp] theorem State.noteInvalidStart_rxResult : s.noteInvalidStart.rxResult = s.rxResult := rfl
@[simp] theorem State.noteInvalidStart_mcSnap : s.noteInvalidStart.mcSnap = s.mcSnap := rfl
@[simp] theorem State.noteInvalidStart_bmsSnap : s.noteInvalidStart.bmsSnap = s.bmsSnap := rfl
@[simp] theorem State.noteInvalidStart_nunchuck : s.noteInvalidStart.nunchuck = s.nunchuck := rfl
@[simp] theorem State.noteInvalidStart_status : s.noteInvalidStart.status = s.status := rfl
@[simp] theorem State.noteInvalidStart_fault : s.noteInvalidStart.fault = s.fault := rfl
@[simp] theorem State.noteInvalidStart_result : s.noteInvalidStart.result = s.result := rfl
@[simp] theorem State.noteInvalidStart_inq : s.noteInvalidStart.inq = s.inq := rfl
@[simp] theorem State.noteInvalidStart_outq : s.noteInvalidStart.outq = s.outq := rfl
@[simp] theorem State.noteInvalidStart_diagq : s.noteInvalidStart.diagq = s.diagqAfter .invalidStartMarker := rfl
@[simp] theorem State.noteInvalidStart_now : s.noteInvalidStart.now = s.now := rfl
@[simp] theorem State.noteInvalidStart_t0 : s.noteInvalidStart.t0 = s.t0 := rfl
@[simp] theorem State.noteInvalidStart_cfg : s.noteInvalidStart.cfg = s.cfg := rfl
@[simp] theorem State.noteInvalidStart_host : s.noteInvalidStart.host = s.host := rfl
@[simp] theorem State.noteInvalidStart_schedule : s.noteInvalidStart.schedule = s.schedule := rfl
@[simp] theorem State.noteInvalidStart_freeIdx : s.noteInvalidStart.freeIdx = s.freeIdx := rfl

/-! ### noteLongFrame -/

@[simp] theorem State.noteLongFrame_crcAcc : s.noteLongFrame.crcAcc = s.crcAcc := rfl
@[simp] theorem State.noteLongFrame_pb : s.noteLongFrame.pb = s.pb := rfl
@[simp] theorem State.noteLongFrame_cur : s.noteLongFrame.cur = s.cur := rfl
@[simp] theorem State.noteLongFrame_rxState : s.noteLongFrame.rxState = s.rxState := rfl
@[simp] theorem State.noteLongFrame_rb : s.noteLongFrame.rb = s.rb := rfl
@[simp] theorem State.noteLongFrame_rxCount : s.noteLongFrame.rxCount = s.rxCount := rfl
@[simp] theorem State.noteLongFrame_rxExpect : s.noteLongFrame.rxExpect = s.rxExpect := rfl
@[simp] theorem State.noteLongFrame_rxDiag : s.noteLongFrame.rxDiag = { s.rxDiag with seenLongFrame := true } := rfl
@[simp] theorem State.noteLongFrame_rxResult : s.noteLongFrame.rxResult = s.rxResult := rfl
@[simp] theorem State.noteLongFrame_mcSnap : s.noteLongFrame.mcSnap = s.mcSnap := rfl
@[simp] theorem State.noteLongFrame_bmsSnap : s.noteLongFrame.bmsSnap = s.bmsSnap := rfl
@[simp] theorem State.noteLongFrame_nunchuck : s.noteLongFrame.nunchuck = s.nunchuck := rfl
@[simp] theorem State.noteLongFrame_status : s.noteLongFrame.status = s.status := rfl
@[simp] theorem State.noteLongFrame_fault : s.noteLongFrame.fault = s.fault := rfl
@[simp] theorem State.noteLongFrame_result : s.noteLongFrame.result = s.result := rfl
@[simp] theorem State.noteLongFrame_inq : s.noteLongFrame.inq = s.inq := rfl
@[simp] theorem State.noteLongFrame_outq : s.noteLongFrame.outq = s.outq := rfl
@[simp] theorem State.noteLongFrame_diagq : s.noteLongFrame.diagq = s.diagqAfter .unsupportedFrameType := rfl
@[simp] theorem State.noteLongFrame_now : s.noteLongFrame.now = s.now := rfl
@[simp] theorem State.noteLongFrame_t0 : s.noteLongFrame.t0 = s.t0 := rfl
@[simp] theorem State.noteLongFrame_cfg : s.noteLongFrame.cfg = s.cfg := rfl
@[simp] theorem State.noteLongFrame_host : s.noteLongFrame.host = s.host := rfl
@[simp] theorem State.noteLongFrame_schedule : s.noteLongFrame.schedule = s.schedule := rfl
@[simp] theorem State.noteLongFrame_freeIdx : s.noteLongFrame.freeIdx = s.freeIdx := rfl

/-! ### putBytes -/

@[simp] theorem State.putBytes_crcAcc (bs : Bytes) : (s.putBytes bs).crcAcc = s.crcAcc := rfl
@[simp] theorem State.putBytes_pb (bs : Bytes) : (s.putBytes bs).pb = s.pb.writeBytes s.cur bs := rfl
@[simp] theorem State.putBytes_cur (bs : Bytes) : (s.putBytes bs).cur = s.cur + bs.length := rfl
@[simp] theorem State.putBytes_rxState (bs : Bytes) : (s.putBytes bs).rxState = s.rxState := rfl
@[simp] theorem State.putBytes_rb (bs : Bytes) : (s.putBytes bs).rb = s.rb := rfl
@[simp] theorem State.putBytes_rxCount (bs : Bytes) : (s.putBytes bs).rxCount = s.rxCount := rfl
@[simp] theorem State.putBytes_rxExpect (bs : Bytes) : (s.putBytes bs).rxExpect = s.rxExpect := rfl
@[simp] theorem State.putBytes_rxDiag (bs : Bytes) : (s.putBytes bs).rxDiag = s.rxDiag := rfl
@[simp] theorem State.putBytes_rxResult (bs : Bytes) : (s.putBytes bs).rxResult = s.rxResult := rfl
@[simp] theorem State.putBytes_mcSnap (bs : Bytes) : (s.putBytes bs).mcSnap = s.mcSnap := rfl
@[simp] theorem State.putBytes_bmsSnap (bs : Bytes) : (s.putBytes bs).bmsSnap = s.bmsSnap := rfl
@[simp] theorem State.putBytes_nunchuck (bs : Bytes) : (s.putBytes bs).nunchuck = s.nunchuck := rfl
@[simp] theorem State.putBytes_status (bs : Bytes) : (s.putBytes bs).status = s.status := rfl
@[simp] theorem State.putBytes_fault (bs : Bytes) : (s.putBytes bs).fault = s.fault := rfl
@[simp] theorem State.putBytes_result (bs : Bytes) : (s.putBytes bs).result = s.result := rfl
@[simp] theorem State.putBytes_inq (bs : Bytes) : (s.putBytes bs).inq = s.inq := rfl
@[simp] theorem State.putBytes_outq (bs : Bytes) : (s.putBytes bs).outq = s.outq := rfl
@[simp] theorem State.putBytes_diagq (bs : Bytes) : (s.putBytes bs).diagq = s.diagq := rfl
@[simp] theorem State.putBytes_now (bs : Bytes) : (s.putBytes bs).now = s.now := rfl
@[simp] theorem State.putBytes_t0 (bs : Bytes) : (s.putBytes bs).t0 = s.t0 := rfl
@[simp] theorem State.putBytes_cfg (bs : Bytes) : (s.putBytes bs).cfg = s.cfg := rfl
@[simp] theorem State.putBytes_host (bs : Bytes) : (s.putBytes bs).host = s.host := rfl
@[simp] theorem State.putBytes_schedule (bs : Bytes) : (s.putBytes bs).schedule = s.schedule := rfl
@[simp] theorem State.putBytes_freeIdx (bs : Bytes) : (s.putBytes bs).freeIdx = s.freeIdx := rfl

/-! ### startAttempt -/

@[simp] theorem State.startAttempt_crcAcc : s.startAttempt.crcAcc = s.crcAcc := rfl
@[simp] theorem State.startAttempt_pb : s.startAttempt.pb = s.pb := rfl
@[simp] theorem State.startAttempt_cur : s.startAttempt.cur = s.cur := rfl
@[simp] theorem State.startAttempt_rxState : s.startAttempt.rxState = .idle := rfl
@[simp] theorem State.startAttempt_rb : s.startAttempt.rb = [] := rfl
@[simp] theorem State.startAttempt_rxCount : s.startAttempt.rxCount = 0 := rfl
@[simp] theorem State.startAttempt_rxExpect : s.startAttempt.rxExpect = none := rfl
@[simp] theorem State.startAttempt_rxDiag : s.startAttempt.rxDiag = ⟨false, false⟩ := rfl
@[simp] theorem State.startAttempt_rxResult : s.startAttempt.rxResult = none := rfl
@[simp] theorem State.startAttempt_mcSnap : s.startAttempt.mcSnap = s.mcSnap := rfl
@[simp] theorem State.startAttempt_bmsSnap : s.startAttempt.bmsSnap = s.bmsSnap := rfl
@[simp] theorem State.startAttempt_nunchuck : s.startAttempt.nunchuck = s.nunchuck := rfl
@[simp] theorem State.startAttempt_status : s.startAttempt.status = s.status := rfl
@[simp] theorem State.startAttempt_fault : s.startAttempt.fault = s.fault := rfl
@[simp] theorem State.startAttempt_result : s.startAttempt.result = s.result := rfl
@[simp] theorem State.startAttempt_inq : s.startAttempt.inq = s.inq := rfl
@[simp] theorem State.startAttempt_outq : s.startAttempt.outq = s.outq := rfl
@[simp] theorem State.startAttempt_diagq : s.startAttempt.diagq = s.diagq := rfl
@[simp] theorem State.startAttempt_now : s.startAttempt.now = s.now := rfl
@[simp] theorem State.startAttempt_t0 : s.startAttempt.t0 = s.now := rfl
@[simp] theorem State.startAttempt_cfg : s.startAttempt.cfg = s.cfg := rfl
@[simp] theorem State.startAttempt_host : s.startAttempt.host = s.host := rfl
@[simp] theorem State.startAttempt_schedule : s.startAttempt.schedule = s.schedule := rfl
@[simp] theorem State.startAttempt_freeIdx : s.startAttempt.freeIdx = s.freeIdx := rfl

/-! ### endAttempt -/

@[simp] theorem State.endAttempt_crcAcc (st : Status) (pl : Option Bytes) : (s.endAttempt st pl).crcAcc = s.crcAcc := rfl
@[simp] theorem State.endAttempt_pb (st : Status) (pl : Option Bytes) : (s.endAttempt st pl).pb = s.pb := rfl
@[simp] theorem State.endAttempt_cur (st : Status) (pl : Option Bytes) : (s.endAttempt st pl).cur = s.cur := rfl
@[simp] theorem State.endAttempt_rxState (st : Status) (pl : Option Bytes) : (s.endAttempt st pl).rxState = .inactive := rfl
@[simp] theorem State.endAttempt_rb (st : Status) (pl : Option Bytes) : (s.endAttempt st pl).rb = s.rb := rfl
@[simp] theorem State.endAttempt_rxCount (st : Status) (pl : Option Bytes) : (s.endAttempt st pl).rxCount = s.rxCount := rfl
@[simp] theorem State.endAttempt_rxExpect (st : Status) (pl : Option Bytes) : (s.endAttempt st pl).rxExpect = s.rxExpect := rfl
@[simp] theorem State.endAttempt_rxDiag (st : Status) (pl : Option Bytes) : (s.endAttempt st pl).rxDiag = s.rxDiag := rfl
@[simp] theorem State.endAttempt_rxResult (st : Status) (pl : Option Bytes) : (s.endAttempt st pl).rxResult = some (st, pl) := rfl
@[simp] theorem State.endAttempt_mcSnap (st : Status) (pl : Option Bytes) : (s.endAttempt st pl).mcSnap = s.mcSnap := rfl
@[simp] theorem State.endAttempt_bmsSnap (st : Status) (pl : Option Bytes) : (s.endAttempt st pl).bmsSnap = s.bmsSnap := rfl
@[simp] theorem State.endAttempt_nunchuck (st : Status) (pl : Option Bytes) : (s.endAttempt st pl).nunchuck = s.nunchuck := rfl
@[simp] theorem State.endAttempt_status (st : Status) (pl : Option Bytes) : (s.endAttempt st pl).status = st := rfl
@[simp] theorem State.endAttempt_fault (st : Status) (pl : Option Bytes) : (s.endAttempt st pl).fault = s.fault := rfl
@[simp] theorem State.endAttempt_result (st : Status) (pl : Option Bytes) : (s.endAttempt st pl).result = .received := rfl
@[simp] theorem State.endAttempt_inq (st : Status) (pl : Option Bytes) : (s.endAttempt st pl).inq = s.inq := rfl
@[simp] theorem State.endAttempt_outq (st : Status) (pl : Option Bytes) : (s.endAttempt st pl).outq = s.outq := rfl
@[simp] theorem State.endAttempt_diagq (st : Status) (pl : Option Bytes) : (s.endAttempt st pl).diagq = s.diagq := rfl
@[simp] theorem State.endAttempt_now (st : Status) (pl : Option Bytes) : (s.endAttempt st pl).now = s.now := rfl
@[simp] theorem State.endAttempt_t0 (st : Status) (pl : Option Bytes) : (s.endAttempt st pl).t0 = s.t0 := rfl
@[simp] theorem State.endAttempt_cfg (st : Status) (pl : Option Bytes) : (s.endAttempt st pl).cfg = s.cfg := rfl
@[simp] theorem State.endAttempt_host (st : Status) (pl : Option Bytes) : (s.endAttempt st pl).host = s.host := rfl
@[simp] theorem State.endAttempt_schedule (st : Status) (pl : Option Bytes) : (s.endAttempt st pl).schedule = s.schedule := rfl
@[simp] theorem State.endAttempt_freeIdx (st : Status) (pl : Option Bytes) : (s.endAttempt st pl).freeIdx = s.freeIdx := rfl

/-! ### startCandidate -/

@[simp] theorem State.startCandidate_crcAcc (b : Byte) : (s.startCandidate b).crcAcc = s.crcAcc := rfl
@[simp] theorem State.startCandidate_pb (b : Byte) : (s.startCandidate b).pb = s.pb := rfl
@[simp] theorem State.startCandidate_cur (b : Byte) : (s.startCandidate b).cur = s.cur := rfl
@[simp] theorem State.startCandidate_rxState (b : Byte) : (s.startCandidate b).rxState = .header := rfl
@[simp] theorem State.startCandidate_rb (b : Byte) : (s.startCandidate b).rb = s.rb.write 0 b := rfl
@[simp] theorem State.startCandidate_rxCount (b : Byte) : (s.startCandidate b).rxCount = 1 := rfl
@[simp] theorem State.startCandidate_rxExpect (b : Byte) : (s.startCandidate b).rxExpect = s.rxExpect := rfl
@[simp] theorem State.startCandidate_rxDiag (b : Byte) : (s.startCandidate b).rxDiag = s.rxDiag := rfl
@[simp] theorem State.startCandidate_rxResult (b : Byte) : (s.startCandidate b).rxResult = s.rxResult := rfl
@[simp] theorem State.startCandidate_mcSnap (b : Byte) : (s.startCandidate b).mcSnap = s.mcSnap := rfl
@[simp] theorem State.startCandidate_bmsSnap (b : Byte) : (s.startCandidate b).bmsSnap = s.bmsSnap := rfl
@[simp] theorem State.startCandidate_nunchuck (b : Byte) : (s.startCandidate b).nunchuck = s.nunchuck := rfl
@[simp] theorem State.startCandidate_status (b : Byte) : (s.startCandidate b).status = s.status := rfl
@[simp] theorem State.startCandidate_fault (b : Byte) : (s.startCandidate b).fault = s.fault := rfl
@[simp] theorem State.startCandidate_result (b : Byte) : (s.startCandidate b).result = s.result := rfl
@[simp] theorem State.startCandidate_inq (b : Byte) : (s.startCandidate b).inq = s.inq := rfl
@[simp] theorem State.startCandidate_outq (b : Byte) : (s.startCandidate b).outq = s.outq := rfl
@[simp] theorem State.startCandidate_diagq (b : Byte) : (s.startCandidate b).diagq = s.diagq := rfl
@[simp] theorem State.startCandidate_now (b : Byte) : (s.startCandidate b).now = s.now := rfl
@[simp] theorem State.startCandidate_t0 (b : Byte) : (s.startCandidate b).t0 = s.t0 := rfl
@[simp] theorem State.startCandidate_cfg (b : Byte) : (s.startCandidate b).cfg = s.cfg := rfl
@[simp] theorem State.startCandidate_host (b : Byte) : (s.startCandidate b).host = s.host := rfl
@[simp] theorem State.startCandidate_schedule (b : Byte) : (s.startCandidate b).schedule = s.schedule := rfl
@[simp] theorem State.startCandidate_freeIdx (b : Byte) : (s.startCandidate b).freeIdx = s.freeIdx := rfl

/-! ### storeSecond -/

@[simp] theorem State.storeSecond_crcAcc (b : Byte) : (s.storeSecond b).crcAcc = s.crcAcc := rfl
@[simp] theorem State.storeSecond_pb (b : Byte) : (s.storeSecond b).pb = s.pb := rfl
@[simp] theorem State.storeSecond_cur (b : Byte) : (s.storeSecond b).cur = s.cur := rfl
@[simp] theorem State.storeSecond_rxState (b : Byte) : (s.storeSecond b).rxState = s.rxState := rfl
@[simp] theorem State.storeSecond_rb (b : Byte) : (s.storeSecond b).rb = s.rb.write 1 b := rfl
@[simp] theorem State.storeSecond_rxCount (b : Byte) : (s.storeSecond b).rxCount = 2 := rfl
@[simp] theorem State.storeSecond_rxExpect (b : Byte) : (s.storeSecond b).rxExpect = s.rxExpect := rfl
@[simp] theorem State.storeSecond_rxDiag (b : Byte) : (s.storeSecond b).rxDiag = s.rxDiag := rfl
@[simp] theorem State.storeSecond_rxResult (b : Byte) : (s.storeSecond b).rxResult = s.rxResult := rfl
@[simp] theorem State.storeSecond_mcSnap (b : Byte) : (s.storeSecond b).mcSnap = s.mcSnap := rfl
@[simp] theorem State.storeSecond_bmsSnap (b : Byte) : (s.storeSecond b).bmsSnap = s.bmsSnap := rfl
@[simp] theorem State.storeSecond_nunchuck (b : Byte) : (s.storeSecond b).nunchuck = s.nunchuck := rfl
@[simp] theorem State.storeSecond_status (b : Byte) : (s.storeSecond b).status = s.status := rfl
@[simp] theorem State.storeSecond_fault (b : Byte) : (s.storeSecond b).fault = s.fault := rfl
@[simp] theorem State.storeSecond_result (b : Byte) : (s.storeSecond b).result = s.result := rfl
@[simp] theorem State.storeSecond_inq (b : Byte) : (s.storeSecond b).inq = s.inq := rfl
@[simp] theorem State.storeSecond_outq (b : Byte) : (s.storeSecond b).outq = s.outq := rfl
@[simp] theorem State.storeSecond_diagq (b : Byte) : (s.storeSecond b).diagq = s.diagq := rfl
@[simp] theorem State.storeSecond_now (b : Byte) : (s.storeSecond b).now = s.now := rfl
@[simp] theorem State.storeSecond_t0 (b : Byte) : (s.storeSecond b).t0 = s.t0 := rfl
@[simp] theorem State.storeSecond_cfg (b : Byte) : (s.storeSecond b).cfg = s.cfg := rfl
@[simp] theorem State.storeSecond_host (b : Byte) : (s.storeSecond b).host = s.host := rfl
@[simp] theorem State.storeSecond_schedule (b : Byte) : (s.storeSecond b).schedule = s.schedule := rfl
@[simp] theorem State.storeSecond_freeIdx (b : Byte) : (s.storeSecond b).freeIdx = s.freeIdx := rfl

/-! ### storeBody -/

@[simp] theorem State.storeBody_crcAcc (b : Byte) : (s.storeBody b).crcAcc = s.crcAcc := rfl
@[simp] theorem State.storeBody_pb (b : Byte) : (s.storeBody b).pb = s.pb := rfl
@[simp] theorem State.storeBody_cur (b : Byte) : (s.storeBody b).cur = s.cur := rfl
@[simp] theorem State.storeBody_rxState (b : Byte) : (s.storeBody b).rxState = s.rxState := rfl
@[simp] theorem State.storeBody_rb (b : Byte) : (s.storeBody b).rb = s.rb.write s.rxCount b := rfl
@[simp] theorem State.storeBody_rxCount (b : Byte) : (s.storeBody b).rxCount = s.rxCount + 1 := rfl
@[simp] theorem State.storeBody_rxExpect (b : Byte) : (s.storeBody b).rxExpect = s.rxExpect := rfl
@[simp] theorem State.storeBody_rxDiag (b : Byte) : (s.storeBody b).rxDiag = s.rxDiag := rfl
@[simp] theorem State.storeBody_rxResult (b : Byte) : (s.storeBody b).rxResult = s.rxResult := rfl
@[simp] theorem State.storeBody_mcSnap (b : Byte) : (s.storeBody b).mcSnap = s.mcSnap := rfl
@[simp] theorem State.storeBody_bmsSnap (b : Byte) : (s.storeBody b).bmsSnap = s.bmsSnap := rfl
@[simp] theorem State.storeBody_nunchuck (b : Byte) : (s.storeBody b).nunchuck = s.nunchuck := rfl
@[simp] theorem State.storeBody_status (b : Byte) : (s.storeBody b).status = s.status := rfl
@[simp] theorem State.storeBody_fault (b : Byte) : (s.storeBody b).fault = s.fault := rfl
@[simp] theorem State.storeBody_result (b : Byte) : (s.storeBody b).result = s.result := rfl
@[simp] theorem State.storeBody_inq (b : Byte) : (s.storeBody b).inq = s.inq := rfl
@[simp] theorem State.storeBody_outq (b : Byte) : (s.storeBody b).outq = s.outq := rfl
@[simp] theorem State.storeBody_diagq (b : Byte) : (s.storeBody b).diagq = s.diagq := rfl
@[simp] theorem State.storeBody_now (b : Byte) : (s.storeBody b).now = s.now := rfl
@[simp] theorem State.storeBody_t0 (b : Byte) : (s.storeBody b).t0 = s.t0 := rfl
@[simp] theorem State.storeBody_cfg (b : Byte) : (s.storeBody b).cfg = s.cfg := rfl
@[simp] theorem State.storeBody_host (b : Byte) : (s.storeBody b).host = s.host := rfl
@[simp] theorem State.storeBody_schedule (b : Byte) : (s.storeBody b).schedule = s.schedule := rfl
@[simp] theorem State.storeBody_freeIdx (b : Byte) : (s.storeBody b).freeIdx = s.freeIdx := rfl

/-! ### unsupported -/

@[simp] theorem State.unsupported_crcAcc : s.unsupported.crcAcc = s.crcAcc := rfl
@[simp] theorem State.unsupported_pb : s.unsupported.pb = s.pb := rfl
@[simp] theorem State.unsupported_cur : s.unsupported.cur = s.cur := rfl
@[simp] theorem State.unsupported_rxState : s.unsupported.rxState = s.rxState := rfl
@[simp] theorem State.unsupported_rb : s.unsupported.rb = s.rb := rfl
@[simp] theorem State.unsupported_rxCount : s.unsupported.rxCount = s.rxCount := rfl
@[simp] theorem State.unsupported_rxExpect : s.unsupported.rxExpect = s.rxExpect := rfl
@[simp] theorem State.unsupported_rxDiag : s.unsupported.rxDiag = s.rxDiag := rfl
@[simp] theorem State.unsupported_rxResult : s.unsupported.rxResult = s.rxResult := rfl
@[simp] theorem State.unsupported_mcSnap : s.unsupported.mcSnap = s.mcSnap := rfl
@[simp] theorem State.unsupported_bmsSnap : s.unsupported.bmsSnap = s.bmsSnap := rfl
@[simp] theorem State.unsupported_nunchuck : s.unsupported.nunchuck = s.nunchuck := rfl
@[simp] theorem State.unsupported_status : s.unsupported.status = .unsupportedCommand := rfl
@[simp] theorem State.unsupported_fault : s.unsupported.fault = s.fault := rfl
@[simp] theorem State.unsupported_result : s.unsupported.result = .decoded .unsupportedCommand [] := rfl
@[simp] theorem State.unsupported_inq : s.unsupported.inq = s.inq := rfl
@[simp] theorem State.unsupported_outq : s.unsupported.outq = s.outq := rfl
@[simp] theorem State.unsupported_diagq : s.unsupported.diagq = s.diagq := rfl
@[simp] theorem State.unsupported_now : s.unsupported.now = s.now := rfl
@[simp] theorem State.unsupported_t0 : s.unsupported.t0 = s.t0 := rfl
@[simp] theorem State.unsupported_cfg : s.unsupported.cfg = s.cfg := rfl
@[simp] theorem State.unsupported_host : s.unsupported.host = s.host := rfl
@[simp] theorem State.unsupported_schedule : s.unsupported.schedule = s.schedule := rfl
@[simp] theorem State.unsupported_freeIdx : s.unsupported.freeIdx = s.freeIdx := rfl

/-! ### resetRegisters -/

@[simp] theorem State.resetRegisters_crcAcc : s.resetRegisters.crcAcc = 0x0000 := rfl
@[simp] theorem State.resetRegisters_pb : s.resetRegisters.pb = [] := rfl
@[simp] theorem State.resetRegisters_cur : s.resetRegisters.cur = 0 := rfl
@[simp] theorem State.resetRegisters_rxState : s.resetRegisters.rxState = .inactive := rfl
@[simp] theorem State.resetRegisters_rb : s.resetRegisters.rb = [] := rfl
@[simp] theorem State.resetRegisters_rxCount : s.resetRegisters.rxCount = 0 := rfl
@[simp] theorem State.resetRegisters_rxExpect : s.resetRegisters.rxExpect = none := rfl
@[simp] theorem State.resetRegisters_rxDiag : s.resetRegisters.rxDiag = ⟨false, false⟩ := rfl
@[simp] theorem State.resetRegisters_rxResult : s.resetRegisters.rxResult = none := rfl
@[simp] theorem State.resetRegisters_mcSnap : s.resetRegisters.mcSnap = McSnap.reset := rfl
@[simp] theorem State.resetRegisters_bmsSnap : s.resetRegisters.bmsSnap = BmsSnap.reset := rfl
@[simp] theorem State.resetRegisters_nunchuck : s.resetRegisters.nunchuck = Nunchuck.reset := rfl
@[simp] theorem State.resetRegisters_status : s.resetRegisters.status = .ok := rfl
@[simp] theorem State.resetRegisters_fault : s.resetRegisters.fault = none := rfl
@[simp] theorem State.resetRegisters_result : s.resetRegisters.result = .none := rfl
@[simp] theorem State.resetRegisters_inq : s.resetRegisters.inq = s.inq := rfl
@[simp] theorem State.resetRegisters_outq : s.resetRegisters.outq = s.outq := rfl
@[simp] theorem State.resetRegisters_diagq : s.resetRegisters.diagq = s.diagq := rfl
@[simp] theorem State.resetRegisters_now : s.resetRegisters.now = s.now := rfl
@[simp] theorem State.resetRegisters_t0 : s.resetRegisters.t0 = s.t0 := rfl
@[simp] theorem State.resetRegisters_cfg : s.resetRegisters.cfg = s.cfg := rfl
@[simp] theorem State.resetRegisters_host : s.resetRegisters.host = s.host := rfl
@[simp] theorem State.resetRegisters_schedule : s.resetRegisters.schedule = s.schedule := rfl
@[simp] theorem State.resetRegisters_freeIdx : s.resetRegisters.freeIdx = s.freeIdx := rfl

/-! ### rejectCandidate -/

@[simp] theorem State.rejectCandidate_crcAcc (b : Byte) : (s.rejectCandidate b).crcAcc = s.crcAcc := by
  unfold State.rejectCandidate; split <;> rfl
@[simp] theorem State.rejectCandidate_pb (b : Byte) : (s.rejectCandidate b).pb = s.pb := by
  unfold State.rejectCandidate; split <;> rfl
@[simp] theorem State.rejectCandidate_cur (b : Byte) : (s.rejectCandidate b).cur = s.cur := by
  unfold State.rejectCandidate; split <;> rfl
@[simp] theorem State.rejectCandidate_rxExpect (b : Byte) : (s.rejectCandidate b).rxExpect = none := by
  unfold State.rejectCandidate; split <;> rfl
@[simp] theorem State.rejectCandidate_rxDiag (b : Byte) : (s.rejectCandidate b).rxDiag = s.rxDiag := by
  unfold State.rejectCandidate; split <;> rfl
@[simp] theorem State.rejectCandidate_rxResult (b : Byte) : (s.rejectCandidate b).rxResult = s.rxResult := by
  unfold State.rejectCandidate; split <;> rfl
@[simp] theorem State.rejectCandidate_mcSnap (b : Byte) : (s.rejectCandidate b).mcSnap = s.mcSnap := by
  unfold State.rejectCandidate; split <;> rfl
@[simp] theorem State.rejectCandidate_bmsSnap (b : Byte) : (s.rejectCandidate b).bmsSnap = s.bmsSnap := by
  unfold State.rejectCandidate; split <;> rfl
@[simp] theorem State.rejectCandidate_nunchuck (b : Byte) : (s.rejectCandidate b).nunchuck = s.nunchuck := by
  unfold State.rejectCandidate; split <;> rfl
@[simp] theorem State.rejectCandidate_status (b : Byte) : (s.rejectCandidate b).status = s.status := by
  unfold State.rejectCandidate; split <;> rfl
@[simp] theorem State.rejectCandidate_fault (b : Byte) : (s.rejectCandidate b).fault = s.fault := by
  unfold State.rejectCandidate; split <;> rfl
@[simp] theorem State.rejectCandidate_result (b : Byte) : (s.rejectCandidate b).result = s.result := by
  unfold State.rejectCandidate; split <;> rfl
@[simp] theorem State.rejectCandidate_inq (b : Byte) : (s.rejectCandidate b).inq = s.inq := by
  unfold State.rejectCandidate; split <;> rfl
@[simp] theorem State.rejectCandidate_outq (b : Byte) : (s.rejectCandidate b).outq = s.outq := by
  unfold State.rejectCandidate; split <;> rfl
@[simp] theorem State.rejectCandidate_diagq (b : Byte) : (s.rejectCandidate b).diagq = s.diagq := by
  unfold State.rejectCandidate; split <;> rfl
@[simp] theorem State.rejectCandidate_now (b : Byte) : (s.rejectCandidate b).now = s.now := by
  unfold State.rejectCandidate; split <;> rfl
@[simp] theorem State.rejectCandidate_t0 (b : Byte) : (s.rejectCandidate b).t0 = s.t0 := by
  unfold State.rejectCandidate; split <;> rfl
@[simp] theorem State.rejectCandidate_cfg (b : Byte) : (s.rejectCandidate b).cfg = s.cfg := by
  unfold State.rejectCandidate; split <;> rfl
@[simp] theorem State.rejectCandidate_host (b : Byte) : (s.rejectCandidate b).host = s.host := by
  unfold State.rejectCandidate; split <;> rfl
@[simp] theorem State.rejectCandidate_schedule (b : Byte) : (s.rejectCandidate b).schedule = s.schedule := by
  unfold State.rejectCandidate; split <;> rfl
@[simp] theorem State.rejectCandidate_freeIdx (b : Byte) : (s.rejectCandidate b).freeIdx = s.freeIdx := by
  unfold State.rejectCandidate; split <;> rfl

/-- A rejected candidate whose second byte starts the next one (R196). -/
theorem State.rejectCandidate_restart :
    s.rejectCandidate startShort =
      { s with
        rb := ((s.rb.erase 0).erase 1).write 0 startShort
        rxCount := 1
        rxExpect := none
        rxState := .header } := by
  unfold State.rejectCandidate; rw [if_pos rfl]; rfl

/-- A rejected candidate whose second byte starts no candidate (R196). -/
theorem State.rejectCandidate_hunt (b : Byte) (h : b ≠ startShort) :
    s.rejectCandidate b =
      { s with
        rb := (s.rb.erase 0).erase 1
        rxCount := 0
        rxExpect := none
        rxState := .hunt } := by
  unfold State.rejectCandidate; rw [if_neg h]

/-! ### writeFields -/

@[simp] theorem writeFields_crcAcc (c : Command) (p : Bytes) : (writeFields c p s).crcAcc = s.crcAcc := by
  cases c <;> rfl
@[simp] theorem writeFields_pb (c : Command) (p : Bytes) : (writeFields c p s).pb = s.pb := by
  cases c <;> rfl
@[simp] theorem writeFields_cur (c : Command) (p : Bytes) : (writeFields c p s).cur = s.cur := by
  cases c <;> rfl
@[simp] theorem writeFields_rxState (c : Command) (p : Bytes) : (writeFields c p s).rxState = s.rxState := by
  cases c <;> rfl
@[simp] theorem writeFields_rb (c : Command) (p : Bytes) : (writeFields c p s).rb = s.rb := by
  cases c <;> rfl
@[simp] theorem writeFields_rxCount (c : Command) (p : Bytes) : (writeFields c p s).rxCount = s.rxCount := by
  cases c <;> rfl
@[simp] theorem writeFields_rxExpect (c : Command) (p : Bytes) : (writeFields c p s).rxExpect = s.rxExpect := by
  cases c <;> rfl
@[simp] theorem writeFields_rxDiag (c : Command) (p : Bytes) : (writeFields c p s).rxDiag = s.rxDiag := by
  cases c <;> rfl
@[simp] theorem writeFields_rxResult (c : Command) (p : Bytes) : (writeFields c p s).rxResult = s.rxResult := by
  cases c <;> rfl
@[simp] theorem writeFields_nunchuck (c : Command) (p : Bytes) : (writeFields c p s).nunchuck = s.nunchuck := by
  cases c <;> rfl
@[simp] theorem writeFields_status (c : Command) (p : Bytes) : (writeFields c p s).status = s.status := by
  cases c <;> rfl
@[simp] theorem writeFields_fault (c : Command) (p : Bytes) : (writeFields c p s).fault = s.fault := by
  cases c <;> rfl
@[simp] theorem writeFields_result (c : Command) (p : Bytes) : (writeFields c p s).result = s.result := by
  cases c <;> rfl
@[simp] theorem writeFields_inq (c : Command) (p : Bytes) : (writeFields c p s).inq = s.inq := by
  cases c <;> rfl
@[simp] theorem writeFields_outq (c : Command) (p : Bytes) : (writeFields c p s).outq = s.outq := by
  cases c <;> rfl
@[simp] theorem writeFields_diagq (c : Command) (p : Bytes) : (writeFields c p s).diagq = s.diagq := by
  cases c <;> rfl
@[simp] theorem writeFields_now (c : Command) (p : Bytes) : (writeFields c p s).now = s.now := by
  cases c <;> rfl
@[simp] theorem writeFields_t0 (c : Command) (p : Bytes) : (writeFields c p s).t0 = s.t0 := by
  cases c <;> rfl
@[simp] theorem writeFields_cfg (c : Command) (p : Bytes) : (writeFields c p s).cfg = s.cfg := by
  cases c <;> rfl
@[simp] theorem writeFields_host (c : Command) (p : Bytes) : (writeFields c p s).host = s.host := by
  cases c <;> rfl
@[simp] theorem writeFields_schedule (c : Command) (p : Bytes) : (writeFields c p s).schedule = s.schedule := by
  cases c <;> rfl
@[simp] theorem writeFields_freeIdx (c : Command) (p : Bytes) : (writeFields c p s).freeIdx = s.freeIdx := by
  cases c <;> rfl

end Sys2Proof.Machine
end

