-- ==== Sys2Proof/Laws/Ops.lean ====
section
/-! SUPPORT. Everything the shared operations can do, said once: when a guarded operation runs and what it
answers otherwise, fault entry, sequencing, and the field codec's moves. -/

namespace Sys2Proof.Machine

variable {s t : State} {f : State → Out}

/-! ### The guards -/

theorem hostOp_ready (h : s.Ready) : hostOp true s f = f s := by
  obtain ⟨h1, h2, h3⟩ := h
  simp [hostOp, h1, h2, h3]

theorem hostOp_run {domain : Bool} (h : s.Ready) (hd : domain = true) : hostOp domain s f = f s := by
  subst hd; exact hostOp_ready h

/-- A guarded operation that answers a next state ran its body in a ready state. -/
theorem hostOp_eq_next {domain : Bool} (h : hostOp domain s f = .next t) :
    s.Ready ∧ domain = true ∧ f s = .next t := by
  unfold hostOp at h
  split at h
  · cases h
  · split at h
    · cases h
    · split at h
      · cases h
      · split at h
        · exact ⟨⟨by simp_all, by assumption, by assumption⟩, by simp_all, h⟩
        · cases h

theorem hostOp_illFormed {domain : Bool} (hc : s.cfg.valid = true) (hd : domain = false) :
    hostOp domain s f = .refused .operandDomain := by
  simp [hostOp, hc, hd]

/-- While FAULT is set no guarded operation runs (R277). -/
theorem hostOp_faulted {domain : Bool} {r : FaultReason} (hc : s.cfg.valid = true) (hd : domain = true)
    (hf : s.fault = some r) : hostOp domain s f = .fault (.faulted r) := by
  simp [hostOp, hc, hd, hf]

theorem wireOp_run {enabled : Bool} (hc : s.cfg.valid = true) (hf : s.fault = none) (he : enabled = true) :
    wireOp enabled s f = f s := by
  simp [wireOp, hc, hf, he]

theorem wireOp_eq_next {enabled : Bool} (h : wireOp enabled s f = .next t) :
    s.cfg.valid = true ∧ s.fault = none ∧ enabled = true ∧ f s = .next t := by
  unfold wireOp at h
  split at h
  · cases h
  · split at h
    · cases h
    · split at h
      · exact ⟨by simp_all, by assumption, by assumption, h⟩
      · cases h

theorem wireOp_faulted {enabled : Bool} {r : FaultReason} (hc : s.cfg.valid = true) (hf : s.fault = some r) :
    wireOp enabled s f = .fault (.faulted r) := by
  simp [wireOp, hc, hf]

/-! ### Fault entry and sequencing -/

/-- Fault entry from a state without a fault (R276). -/
theorem raiseFault_eq {r : FaultReason} (h : s.fault = none) :
    raiseFault r s = .next { s with fault := some r } := by
  simp [raiseFault, State.enterFault, h]

@[simp] theorem andThen_next : andThen (.next s) f = f s := rfl

theorem andThen_eq_next {o : Out} (h : andThen o f = .next t) : ∃ u, o = .next u ∧ f u = .next t := by
  cases o with
  | next u => exact ⟨u, rfl, h⟩
  | fault r => cases h
  | refused r => cases h

/-- Everything a pseudo-operation can answer (R102). -/
theorem expandTo_eq_next {o : Out} {rest : List Instr} (h : expandTo o rest = .next t) :
    ∃ u, o = .next u ∧ t = { u with host := rest.map HostItem.op ++ u.host } := by
  obtain ⟨u, hu, ht⟩ := andThen_eq_next h
  cases ht
  exact ⟨u, hu, rfl⟩

@[simp] theorem expandTo_next {rest : List Instr} :
    expandTo (.next s) rest = .next { s with host := rest.map HostItem.op ++ s.host } := rfl

@[simp] theorem runAll_nil : runAll [] s = .next s := rfl

@[simp] theorem runAll_cons {fs : List (State → Out)} : runAll (f :: fs) s = andThen (f s) (runAll fs) := rfl

/-! ### The field codec -/

theorem withRoom_fits {w : Nat} (h : s.cur + w ≤ 256) : withRoom w s f = f s := by
  simp [withRoom, pbCap, h]

theorem withRoom_overrun {w : Nat} (h : 256 < s.cur + w) : withRoom w s f = raiseFault .overrun s := by
  simp [withRoom, pbCap, Nat.not_le.2 h]

/-- The two ways a checked move can go (R131). -/
theorem withRoom_cases (w : Nat) :
    (s.cur + w ≤ 256 ∧ withRoom w s f = f s) ∨ (256 < s.cur + w ∧ withRoom w s f = raiseFault .overrun s) := by
  rcases Nat.lt_or_ge 256 (s.cur + w) with h | h
  · exact .inr ⟨h, withRoom_overrun h⟩
  · exact .inl ⟨h, withRoom_fits h⟩

theorem appendField_fits {bs : Bytes} (h : s.cur + bs.length ≤ 256) :
    appendField bs s = .next ((s.putBytes bs).complete .ok .none) := by
  simp [appendField, withRoom_fits h]

/-- Everything an APPEND_* of a field can answer. -/
theorem appendField_cases (bs : Bytes) :
    (s.cur + bs.length ≤ 256 ∧ appendField bs s = .next ((s.putBytes bs).complete .ok .none))
      ∨ (256 < s.cur + bs.length ∧ appendField bs s = raiseFault .overrun s) := withRoom_cases _

theorem getField_reads {w : Nat} {value : Bytes → OpResult} {bs : Bytes} (h : s.cur + w ≤ 256)
    (hb : s.pb.readBytes s.cur w = some bs) :
    getField w value s = .next ({ s with cur := s.cur + w }.complete .ok (value bs)) := by
  simp [getField, withRoom_fits h, hb]

theorem getField_unwritten {w : Nat} {value : Bytes → OpResult} (h : s.cur + w ≤ 256)
    (hb : s.pb.readBytes s.cur w = none) : getField w value s = raiseFault .unwritten s := by
  simp [getField, withRoom_fits h, hb]

/-- Everything a GET_* can answer (R130 to R132). -/
theorem getField_cases (w : Nat) (value : Bytes → OpResult) :
    (∃ bs, s.cur + w ≤ 256 ∧ s.pb.readBytes s.cur w = some bs
        ∧ getField w value s = .next ({ s with cur := s.cur + w }.complete .ok (value bs)))
      ∨ (s.cur + w ≤ 256 ∧ s.pb.readBytes s.cur w = none ∧ getField w value s = raiseFault .unwritten s)
      ∨ (256 < s.cur + w ∧ getField w value s = raiseFault .overrun s) := by
  rcases Nat.lt_or_ge 256 (s.cur + w) with h | h
  · exact .inr (.inr ⟨h, withRoom_overrun h⟩)
  · cases hb : s.pb.readBytes s.cur w with
    | none => exact .inr (.inl ⟨h, rfl, getField_unwritten h hb⟩)
    | some bs => exact .inl ⟨bs, h, rfl, getField_reads h hb⟩

/-- Everything an APPEND_FLOAT can answer, in the order of its checks (R149, R280). -/
theorem appendScaled_cases {w : Nat} {inRange : Int → Bool} {bytes : Int → Bytes} (v : FloatIn) (k : Rat)
    (hw : ∀ r, (bytes r).length = w) :
    (256 < s.cur + w ∧ appendScaled w inRange bytes v k s = raiseFault .overrun s)
      ∨ (s.cur + w ≤ 256 ∧ ∃ e, scaledRaw s.cfg inRange v k = .error e
          ∧ appendScaled w inRange bytes v k s = raiseFault e s)
      ∨ (s.cur + w ≤ 256 ∧ ∃ r, scaledRaw s.cfg inRange v k = .ok r
          ∧ appendScaled w inRange bytes v k s = .next ((s.putBytes (bytes r)).complete .ok .none)) := by
  rcases Nat.lt_or_ge 256 (s.cur + w) with h | h
  · exact .inl ⟨h, withRoom_overrun h⟩
  · refine .inr ?_
    cases hr : scaledRaw s.cfg inRange v k with
    | error e => exact .inl ⟨h, e, rfl, by simp [appendScaled, withRoom_fits h, hr]⟩
    | ok r =>
      refine .inr ⟨h, r, rfl, ?_⟩
      rw [appendScaled, withRoom_fits h]
      simp only [hr]
      exact appendField_fits (by rw [hw]; exact h)

end Sys2Proof.Machine
end

