-- ==== Sys2Proof/Laws/Receiver.lean ====
section
/-! SUPPORT. Everything the receiver's steps can do (43_frame_receiver.md), said once. -/

namespace Sys2Proof.Machine

variable {s t : State} {b : Byte}

theorem headerWith_iff {test : Byte → Bool} :
    headerWith test s = true ↔ s.rxState = .header ∧ ∃ a, s.rb.read 0 = some a ∧ test a = true := by
  unfold headerWith
  cases s.rb.read 0 <;> simp

theorem atFrameEnd_iff : atFrameEnd s = true ↔ s.rxState = .body ∧ s.rxExpect = some (s.rxCount + 1) := by
  simp [atFrameEnd]

/-- FRAME_SHORT where its rule runs it (R193). -/
theorem execFrameShort_run (hc : s.cfg.valid = true) (hf : s.fault = none) (hs : s.rxState = .header)
    (h0 : s.rb.read 0 = some startShort) (len : Byte) :
    execFrameShort len s =
      .next { s.storeSecond len with rxExpect := some (len.toNat + 5), rxState := .body } := by
  rw [execFrameShort, wireOp_run hc hf (headerWith_iff.2 ⟨hs, _, h0, by decide⟩)]; rfl

/-- FRAME_LONG where its rule runs it (R194). -/
theorem execFrameLong_run (hc : s.cfg.valid = true) (hf : s.fault = none) (hs : s.rxState = .header)
    (h0 : s.rb.read 0 = some startLong) (b : Byte) :
    execFrameLong b s = .next (((s.storeSecond b).noteLongFrame).rejectCandidate b) := by
  rw [execFrameLong, wireOp_run hc hf (headerWith_iff.2 ⟨hs, _, h0, by decide⟩)]

/-- START_INVALID where its rule runs it (R195). -/
theorem execStartInvalid_run (hc : s.cfg.valid = true) (hf : s.fault = none) (hs : s.rxState = .header)
    {start : Byte} (h0 : s.rb.read 0 = some start) (hi : isInvalidStart start = true) (b : Byte) :
    execStartInvalid start b s = .next (((s.storeSecond b).noteInvalidStart).rejectCandidate b) := by
  rw [execStartInvalid, wireOp_run hc hf]
  rw [hi, headerWith_iff.2 ⟨hs, _, h0, by simp⟩]; rfl

/-- END_MARK where its rule runs it and the frame's cells are all written (R199, R200). -/
theorem execEndMark_run (hc : s.cfg.valid = true) (hf : s.fault = none) (he : atFrameEnd s = true)
    (hn : s.rxCount < 261) {raw : Bytes}
    (hr : (s.storeBody endMarkByte).rb.readBytes 0 (s.rxCount + 1) = some raw) :
    execEndMark s = .next ((s.storeBody endMarkByte).endAttempt (unpack raw).1 (unpack raw).2) := by
  rw [execEndMark, wireOp_run hc hf he, if_pos (by simpa [rxCap] using hn), completeFrame, hr]

/-- The byte step in HEADER is the wire row its start byte selects (R210). -/
theorem headerByte_eq (h0 : s.rb.read 0 = some a) :
    headerByte b s =
      if a = startShort then execFrameShort b s
      else if a = startLong then execFrameLong b s
      else execStartInvalid a b s := by
  unfold headerByte decodeStart
  rw [h0]
  by_cases h1 : a = startShort
  · simp [h1]
  · by_cases h2 : a = startLong
    · subst h2; simp [h1]
    · simp [h1, h2]

theorem isInvalidStart_iff {a : Byte} : isInvalidStart a = true ↔ a ≠ startShort ∧ a ≠ startLong := by
  simp [isInvalidStart, startShort, startLong]

/-- Everything a byte step with byte `b` can do to a state without a fault, one constructor per rule
(R192 to R205, R18). -/
inductive RxStep (b : Byte) (s : State) : State → Prop
  | idle (hs : s.rxState = .idle) : RxStep b s (s.startCandidate b)
  | short (hs : s.rxState = .header) (h0 : s.rb.read 0 = some startShort) :
    RxStep b s { s.storeSecond b with rxExpect := some (b.toNat + 5), rxState := .body }
  | long (hs : s.rxState = .header) (h0 : s.rb.read 0 = some startLong) :
    RxStep b s (((s.storeSecond b).noteLongFrame).rejectCandidate b)
  | invalid (hs : s.rxState = .header) (a : Byte) (h0 : s.rb.read 0 = some a) (hi : isInvalidStart a = true) :
    RxStep b s (((s.storeSecond b).noteInvalidStart).rejectCandidate b)
  | noStart (hs : s.rxState = .header) (h0 : s.rb.read 0 = none) : RxStep b s (s.enterFault .unwritten)
  | huntStart (hs : s.rxState = .hunt) (hb : b = startShort) : RxStep b s (s.startCandidate b)
  | huntSkip (hs : s.rxState = .hunt) (hb : b ≠ startShort) : RxStep b s s
  | inner (hs : s.rxState = .body) (hx : s.rxExpect ≠ some (s.rxCount + 1)) (hn : s.rxCount + 1 < 261) :
    RxStep b s (s.storeBody b)
  | overflow (hs : s.rxState = .body) (hx : s.rxExpect ≠ some (s.rxCount + 1)) (hn : s.rxCount + 1 = 261) :
    RxStep b s ((s.storeBody b).endAttempt .bufferOverflow none)
  | malformed (hs : s.rxState = .body) (hx : s.rxExpect = some (s.rxCount + 1)) (hb : b ≠ endMarkByte)
    (hn : s.rxCount < 261) : RxStep b s ((s.storeBody b).endAttempt .malformedFrame none)
  | complete (hs : s.rxState = .body) (hx : s.rxExpect = some (s.rxCount + 1)) (hb : b = endMarkByte)
    (hn : s.rxCount < 261) (raw : Bytes)
    (hr : (s.storeBody b).rb.readBytes 0 (s.rxCount + 1) = some raw) :
    RxStep b s ((s.storeBody b).endAttempt (unpack raw).1 (unpack raw).2)
  | noCell (hs : s.rxState = .body) (hx : s.rxExpect = some (s.rxCount + 1)) (hb : b = endMarkByte)
    (hr : (s.storeBody b).rb.readBytes 0 (s.rxCount + 1) = none) : RxStep b s (s.enterFault .unwritten)

/-- A wire row that answers a next state ran where its rule says. -/
theorem headerByte_cases (hs : s.rxState = .header) (h : headerByte b s = .next t) : RxStep b s t := by
  cases h0 : s.rb.read 0 with
  | none =>
    rw [headerByte, h0] at h
    cases h
    exact .noStart hs h0
  | some a =>
    rw [headerByte_eq h0] at h
    split at h
    · rename_i h1
      subst h1
      obtain ⟨hc, hf, -, -⟩ := wireOp_eq_next h
      rw [execFrameShort_run hc hf hs h0] at h
      cases h
      exact .short hs h0
    · split at h
      · rename_i h1 h2
        subst h2
        obtain ⟨hc, hf, -, -⟩ := wireOp_eq_next h
        rw [execFrameLong_run hc hf hs h0] at h
        cases h
        exact .long hs h0
      · rename_i h1 h2
        obtain ⟨hc, hf, -, -⟩ := wireOp_eq_next h
        have hi : isInvalidStart a = true := isInvalidStart_iff.2 ⟨h1, h2⟩
        rw [execStartInvalid_run hc hf hs h0 hi] at h
        cases h
        exact .invalid hs a h0 hi

theorem innerByte_cases (hs : s.rxState = .body) (hx : s.rxExpect ≠ some (s.rxCount + 1))
    (h : innerByte b s = .next t) : RxStep b s t := by
  unfold innerByte at h
  split at h
  · rename_i hn
    have hn' : s.rxCount < 261 := hn
    simp only at h
    split at h
    · rename_i hcap
      cases h
      exact .overflow hs hx hcap
    · rename_i hcap
      have hcap' : s.rxCount + 1 ≠ 261 := hcap
      cases h
      exact .inner hs hx (by omega)
  · cases h

theorem lastByte_cases (hs : s.rxState = .body) (hx : s.rxExpect = some (s.rxCount + 1))
    (h : (match decodeEnd b with
      | .ok _ => execEndMark s
      | .error _ => malformedByte b s) = .next t) : RxStep b s t := by
  unfold decodeEnd at h
  by_cases hb : b = endMarkByte
  · subst hb
    simp only [if_true] at h
    obtain ⟨-, -, -, hrun⟩ := wireOp_eq_next h
    split at hrun
    · rename_i hn
      unfold completeFrame at hrun
      split at hrun
      · rename_i hr
        cases hrun
        exact .noCell hs hx rfl hr
      · rename_i raw hr
        cases hrun
        exact .complete hs hx rfl hn raw hr
    · cases hrun
  · simp only [hb, if_false] at h
    unfold malformedByte at h
    split at h
    · rename_i hn
      cases h
      exact .malformed hs hx hb hn
    · cases h

/-- Everything a byte step of an attempt can answer as a next state (R210). -/
theorem rxByteStep_cases (h : rxByteStep b s = .next t) : RxStep b s t := by
  unfold rxByteStep at h
  split at h
  · cases h
  · rename_i hs
    cases h
    exact .idle hs
  · rename_i hs
    exact headerByte_cases hs h
  · rename_i hs
    unfold huntByte at h
    split at h
    · rename_i hb
      cases h
      exact .huntStart hs hb
    · rename_i hb
      cases h
      exact .huntSkip hs hb
  · rename_i hs
    unfold bodyByte at h
    split at h
    · rename_i he
      exact lastByte_cases hs (atFrameEnd_iff.1 he).2 h
    · rename_i he
      exact innerByte_cases hs (fun hx => he (atFrameEnd_iff.2 ⟨hs, hx⟩)) h

/-! ### The byte step in each state of the receiver -/

theorem rxByteStep_idle (h : s.rxState = .idle) : rxByteStep b s = .next (s.startCandidate b) := by
  unfold rxByteStep; rw [h]; rfl

theorem rxByteStep_header (h : s.rxState = .header) : rxByteStep b s = headerByte b s := by
  unfold rxByteStep; rw [h]

theorem rxByteStep_huntStart (h : s.rxState = .hunt) : rxByteStep startShort s = .next (s.startCandidate startShort) := by
  unfold rxByteStep; rw [h]; rfl

theorem rxByteStep_huntSkip (h : s.rxState = .hunt) (hb : b ≠ startShort) : rxByteStep b s = .next s := by
  unfold rxByteStep; rw [h]; simp [huntByte, hb]

theorem rxByteStep_inner (h : s.rxState = .body) (hx : s.rxExpect ≠ some (s.rxCount + 1)) :
    rxByteStep b s = innerByte b s := by
  unfold rxByteStep; rw [h]
  simp only [bodyByte]
  rw [if_neg (fun e => hx (atFrameEnd_iff.1 e).2)]

theorem rxByteStep_end (h : s.rxState = .body) (hx : s.rxExpect = some (s.rxCount + 1)) :
    rxByteStep endMarkByte s = execEndMark s := by
  unfold rxByteStep; rw [h]
  simp only [bodyByte]
  rw [if_pos (atFrameEnd_iff.2 ⟨h, hx⟩)]
  simp [decodeEnd]

theorem rxByteStep_malformed (h : s.rxState = .body) (hx : s.rxExpect = some (s.rxCount + 1)) (hb : b ≠ endMarkByte) :
    rxByteStep b s = malformedByte b s := by
  unfold rxByteStep; rw [h]
  simp only [bodyByte]
  rw [if_pos (atFrameEnd_iff.2 ⟨h, hx⟩)]
  simp [decodeEnd, hb]

theorem innerByte_stores (h : s.rxCount + 1 < 261) : innerByte b s = .next (s.storeBody b) := by
  have h1 : s.rxCount < rxCap := by unfold rxCap; omega
  have h2 : (s.storeBody b).rxCount ≠ rxCap := by show s.rxCount + 1 ≠ rxCap; unfold rxCap; omega
  simp only [innerByte, if_pos h1, if_neg h2]

theorem innerByte_overflows (h : s.rxCount + 1 = 261) :
    innerByte b s = .next ((s.storeBody b).endAttempt .bufferOverflow none) := by
  have h1 : s.rxCount < rxCap := by unfold rxCap; omega
  have h2 : (s.storeBody b).rxCount = rxCap := h
  simp only [innerByte, if_pos h1, if_pos h2]

theorem malformedByte_ends (h : s.rxCount < 261) :
    malformedByte b s = .next ((s.storeBody b).endAttempt .malformedFrame none) := if_pos h

end Sys2Proof.Machine
end

