-- ==== Sys2Proof/Laws/Step.lean ====
section
/-! SUPPORT. Everything a step can do, said once: who moved, and on which state. -/

namespace Sys2Proof.Machine

variable {s t : State}

/-- The state a move acts on: `s` with its schedule and free-value counter moved on. -/
def State.turned (s : State) (ts : List Turn) (n : Nat) : State := { s with schedule := ts, freeIdx := n }

/-- Everything a step can do: who moved, and from which state. -/
inductive StepCase (s : State) : State → Prop
  | world (ts : List Turn) (n : Nat) (m : WorldMove) (t : State)
    (h : worldStep m (s.turned ts n) = .next t) : StepCase s t
  | wait (ts : List Turn) (n : Nat) : StepCase s (s.turned ts n)
  | op (hs : s.rxState = .inactive) (ts : List Turn) (n : Nat) (rest : List HostItem) (i : Instr) (t : State)
    (h : exec i { s.turned ts n with host := rest } = .next t) : StepCase s t
  | read (hs : s.rxState = .inactive) (ts : List Turn) (n : Nat) (rest : List HostItem) (f : TelemetryField) (t : State)
    (h : readField f { s.turned ts n with host := rest } = .next t) : StepCase s t
  | noOp (hs : s.rxState = .inactive) (ts : List Turn) (n : Nat) (rest : List HostItem) (bs : Bytes) :
    StepCase s { s.turned ts n with host := rest, inq := s.inq ++ bs }
  | byte (hs : s.rxState ≠ .inactive) (hf : s.fault = none) (ts : List Turn) (n : Nat) (b : Byte) (rest : Bytes)
    (hi : s.inq = b :: rest) (t : State) (h : RxStep b { s.turned ts n with inq := rest } t) : StepCase s t
  | deadline (hs : s.rxState ≠ .inactive) (hf : s.fault = none) (ts : List Turn) (n : Nat)
    (hd : s.t0 + s.cfg.rxDeadline ≤ s.now) : StepCase s ((s.turned ts n).endAttempt .timeout none)

theorem waitStep_cases {scheduled : Bool} {ts : List Turn} {n : Nat}
    (h : waitStep scheduled (s.turned ts n) = .next t) : StepCase s t := by
  unfold waitStep at h
  split at h
  · cases h; exact .wait ts n
  · exact .world ts (n + 1) _ t h

/-- Everything that can become of what the host issued: it runs, or a faulted block leaves it be (R277). -/
theorem passFaulted_cases {o : Out} (h : passFaulted s o = .next t) :
    o = .next t ∨ (∃ r, o = .fault (.faulted r) ∧ t = s) := by
  unfold passFaulted at h
  split at h
  · cases h; exact .inr ⟨_, rfl, rfl⟩
  · exact .inl h

theorem passFaulted_ready {o : Out} (h : ∀ r, o ≠ .fault (.faulted r)) : passFaulted s o = o := by
  unfold passFaulted
  split
  · exact absurd rfl (h _)
  · rfl

@[simp] theorem passFaulted_faulted {r : FaultReason} : passFaulted s (.fault (.faulted r)) = .next s := rfl

/-- Everything issuing an operation can do. -/
theorem issueOp_cases {i : Instr} (h : issueOp i s = .next t) :
    exec i s = .next t ∨ (∃ r, exec i s = .fault (.faulted r) ∧ t = s) := passFaulted_cases h

/-- An operation of a block that is not faulted runs. -/
theorem issueOp_ready {i : Instr} (h : ∀ r, exec i s ≠ .fault (.faulted r)) : issueOp i s = exec i s :=
  passFaulted_ready h

/-- Everything a host's read of a telemetry field can answer (R18, R20). -/
theorem readField_eq_next {f : TelemetryField} (h : readField f s = .next t) :
    s.Ready ∧ ((rawOf f s = none ∧ t = { s with fault := some .unwritten })
      ∨ ∃ raw, rawOf f s = some raw ∧ t = { s with result := .telemetry raw (scaleOf f) }) := by
  obtain ⟨hr, -, h⟩ := hostOp_eq_next h
  refine ⟨hr, ?_⟩
  split at h
  · rename_i hn
    rw [raiseFault_eq hr.2.1] at h
    cases h
    exact .inl ⟨hn, rfl⟩
  · rename_i raw hn
    cases h
    exact .inr ⟨raw, hn, rfl⟩

theorem issueOp_stepCase {ts : List Turn} {n : Nat} {rest : List HostItem} {i : Instr} (hs : s.rxState = .inactive)
    (h : issueOp i { s.turned ts n with host := rest } = .next t) : StepCase s t := by
  rcases issueOp_cases h with h | ⟨-, -, rfl⟩
  · exact .op hs ts n rest _ t h
  · have := StepCase.noOp hs ts n rest []
    rwa [List.append_nil] at this

theorem hostStep_cases {scheduled : Bool} {ts : List Turn} {n : Nat} (hs : s.rxState = .inactive)
    (h : hostStep scheduled (s.turned ts n) = .next t) : StepCase s t := by
  unfold hostStep at h
  split at h
  · exact waitStep_cases h
  · rename_i text rest _
    unfold issueLine at h
    split at h
    · cases h
    · exact issueOp_stepCase hs h
    · cases h; exact .noOp hs ts n rest _
    · cases h
      have := StepCase.noOp hs ts n rest []
      rwa [List.append_nil] at this
  · rename_i i rest _; exact issueOp_stepCase hs h
  · rename_i f rest _
    rcases passFaulted_cases h with h | ⟨-, -, rfl⟩
    · exact .read hs ts n rest f t h
    · have := StepCase.noOp hs ts n rest []
      rwa [List.append_nil] at this
  · rename_i d rest _
    unfold exchangeDecode at h
    split at h
    · exact issueOp_stepCase hs h
    · cases h
      have := StepCase.noOp hs ts n rest []
      rwa [List.append_nil] at this

theorem attemptStep_cases {w : Option Bool} {ts : List Turn} {n : Nat} (hs : s.rxState ≠ .inactive)
    (h : attemptStep w (s.turned ts n) = .next t) : StepCase s t := by
  unfold attemptStep at h
  split at h
  · cases h
  · rename_i hf
    have hf' : s.fault = none := hf
    split at h
    · exact waitStep_cases h
    · rename_i hd
      cases h
      exact .deadline hs hf' ts n (of_decide_eq_true hd)
    · rename_i b rest hi hd
      exact .byte hs hf' ts n b rest hi t (rxByteStep_cases h)
    · rename_i b rest hi hd
      have hd' : s.t0 + s.cfg.rxDeadline ≤ s.now := of_decide_eq_true hd
      unfold raceStep at h
      split at h
      · cases h; exact .deadline hs hf' ts n hd'
      · exact .byte hs hf' ts n b rest hi t (rxByteStep_cases h)
      · split at h
        · cases h; exact .deadline hs hf' ts (n + 1) hd'
        · exact .byte hs hf' ts (n + 1) b rest hi t (rxByteStep_cases h)

theorem blockStep_cases {w : Option Bool} {ts : List Turn} {n : Nat}
    (h : blockStep w (s.turned ts n) = .next t) : StepCase s t := by
  unfold blockStep at h
  split at h
  · rename_i hs; exact hostStep_cases hs h
  · rename_i hs; exact attemptStep_cases hs h

/-- Everything a step that answers a next state can have done. -/
theorem step_cases (h : step s = .next t) : s.cfg.valid = true ∧ StepCase s t := by
  unfold step stepAgents at h
  split at h
  · cases h
  · rename_i hc
    refine ⟨by simpa using hc, ?_⟩
    unfold stepTurn at h
    split at h
    · rename_i hsch
      have hs : s = s.turned [] s.freeIdx := by rw [← hsch]; rfl
      rw [hs] at h
      exact blockStep_cases h
    · exact .world _ s.freeIdx _ t h
    · exact blockStep_cases (n := s.freeIdx) h
    · exact blockStep_cases (n := s.freeIdx) h

/-! ### Runs -/

theorem coreRun_succ (M : Host.Core) (n : Nat) (s : M.State) :
    M.run (n + 1) s
      = (match M.step s with | .next s' => M.run n s' | .fault r => .fault r | .refused r => .refused r) := rfl

theorem coreRun_next (M : Host.Core) {n : Nat} {s u : M.State} (h : M.step s = .next u) :
    M.run (n + 1) s = M.run n u := by rw [coreRun_succ, h]

theorem coreRun_first (M : Host.Core) {n : Nat} {s v : M.State} (h : M.run (n + 1) s = .next v) :
    ∃ u, M.step s = .next u ∧ M.run n u = .next v := by
  rw [coreRun_succ] at h
  split at h
  · exact ⟨_, ‹_›, h⟩
  · cases h
  · cases h

/-- A run whose first step is known. -/
theorem run_next {n : Nat} {s u : State} {o : Out} (h : step s = .next u) (h2 : Host.Core.run core n u = o) :
    Host.Core.run core (n + 1) s = o := (coreRun_next core h).trans h2

/-- The first step of a run that answers a next state. -/
theorem run_first {n : Nat} {s v : State} (h : Host.Core.run core (n + 1) s = .next v) :
    ∃ u, step s = .next u ∧ Host.Core.run core n u = .next v := coreRun_first core h

/-- One run after another. -/
theorem run_add {m n : Nat} {s u : State} {o : Out} (h : Host.Core.run core m s = .next u)
    (h2 : Host.Core.run core n u = o) : Host.Core.run core (m + n) s = o := by
  induction m generalizing s with
  | zero => cases h; rw [Nat.zero_add]; exact h2
  | succ m ih =>
    obtain ⟨v, h1, h⟩ := run_first h
    rw [show m + 1 + n = (m + n) + 1 by omega]
    exact run_next h1 (ih h)

/-! ### What a turn does -/

theorem step_eq_stepTurn (hc : s.cfg.valid = true) : step s = stepTurn s := by
  unfold step stepAgents; rw [hc]; rfl

/-- With nothing scheduled the block takes its turn. -/
theorem step_unscheduled (hc : s.cfg.valid = true) (h : s.schedule = []) : step s = blockStep none s := by
  rw [step_eq_stepTurn hc, stepTurn, h]

theorem step_byteFirst (hc : s.cfg.valid = true) {ts : List Turn} (h : s.schedule = .byteFirst :: ts) :
    step s = blockStep (some false) { s with schedule := ts } := by
  rw [step_eq_stepTurn hc, stepTurn, h]

theorem step_deadlineFirst (hc : s.cfg.valid = true) {ts : List Turn} (h : s.schedule = .deadlineFirst :: ts) :
    step s = blockStep (some true) { s with schedule := ts } := by
  rw [step_eq_stepTurn hc, stepTurn, h]

theorem step_world (hc : s.cfg.valid = true) {m : WorldMove} {ts : List Turn} (h : s.schedule = .world m :: ts) :
    step s = worldStep m { s with schedule := ts } := by
  rw [step_eq_stepTurn hc, stepTurn, h]

variable {w : Option Bool} {b : Byte} {rest : Bytes}

theorem blockStep_idle (h : s.rxState = .inactive) : blockStep w s = hostStep w.isSome s := by simp [blockStep, h]

theorem blockStep_attempt (h : s.rxState ≠ .inactive) : blockStep w s = attemptStep w s := by simp [blockStep, h]

/-! What the host's next item does. -/

section HostItems

variable {sched : Bool} {items : List HostItem}

theorem hostStep_line {text : Bytes} (h : s.host = .line text :: items) :
    hostStep sched s = issueLine text { s with host := items } := by simp only [hostStep, h]

theorem hostStep_op {i : Instr} (h : s.host = .op i :: items) :
    hostStep sched s = issueOp i { s with host := items } := by simp only [hostStep, h]

theorem hostStep_readField {f : TelemetryField} (h : s.host = .readField f :: items) :
    hostStep sched s = issueRead f { s with host := items } := by simp only [hostStep, h]

theorem hostStep_decodeIfOk {d : Dialect} (h : s.host = .decodeIfOk d :: items) :
    hostStep sched s = exchangeDecode d { s with host := items } := by simp only [hostStep, h]

theorem hostStep_wait (h : s.host = []) : hostStep sched s = waitStep sched s := by simp only [hostStep, h]

end HostItems

/-- A byte is pending and the deadline is not, or the schedule takes the byte first (R191). -/
theorem attemptStep_byte (hf : s.fault = none) (hi : s.inq = b :: rest)
    (hd : deadlinePassed s = false ∨ w = some false) : attemptStep w s = takeByte b rest s := by
  unfold attemptStep
  simp only [hf, hi]
  cases hp : deadlinePassed s with
  | false => rfl
  | true =>
    rcases hd with hd | hd
    · rw [hp] at hd; cases hd
    · subst hd; rfl

/-- The deadline has passed, and no byte is pending or the schedule takes the deadline first (R191, R213). -/
theorem attemptStep_deadline (hf : s.fault = none) (hp : deadlinePassed s = true)
    (hi : s.inq = [] ∨ w = some true) : attemptStep w s = deadlineStep s := by
  unfold attemptStep
  simp only [hf, hp]
  cases hq : s.inq with
  | nil => rfl
  | cons b rest =>
    rcases hi with hi | hi
    · rw [hq] at hi; cases hi
    · subst hi; rfl

/-- Neither is enabled: the attempt waits (R191). -/
theorem attemptStep_wait (hf : s.fault = none) (hp : deadlinePassed s = false) (hi : s.inq = []) :
    attemptStep w s = waitStep w.isSome s := by
  unfold attemptStep
  simp only [hf, hp, hi]

/-- Both are enabled and nothing is scheduled (R216). -/
theorem attemptStep_race (hf : s.fault = none) (hp : deadlinePassed s = true) (hi : s.inq = b :: rest) :
    attemptStep none s
      = if Config.raceDeadlineWins s.freeIdx then deadlineStep { s with freeIdx := s.freeIdx + 1 }
        else takeByte b rest { s with freeIdx := s.freeIdx + 1 } := by
  have h : attemptStep none s = raceStep none b rest s := by
    unfold attemptStep
    simp only [hf, hp, hi]
  rw [h]; rfl

theorem attemptStep_faulted {r : FaultReason} (hf : s.fault = some r) : attemptStep w s = .fault (.faulted r) := by
  unfold attemptStep
  simp only [hf]

end Sys2Proof.Machine
end

