-- ==== Sys2Proof/Laws/Text.lean ====
section
/-! SUPPORT. Lines of text (30_encoding.md R101): reading a printed operand gives it back, and a printed line
falls apart into its mnemonic and its operands. -/

set_option Elab.async false

namespace Sys2Proof

/-! ### Digits -/

/-- The text of a list of decimal digits. -/
def digitText (ds : List Nat) : Text := ds.map (48 + ·)

theorem digitsVal_append (b : Nat) (ds : List Nat) (d : Nat) :
    digitsVal b (ds ++ [d]) = digitsVal b ds * b + d := by simp [digitsVal]

theorem foldl_digits (b : Nat) (ds : List Nat) (a : Nat) :
    ds.foldl (fun a d => a * b + d) a = a * b ^ ds.length + digitsVal b ds := by
  induction ds generalizing a with
  | nil => simp [digitsVal]
  | cons d ds ih =>
    rw [digitsVal, List.foldl_cons, List.foldl_cons, ih, ih, List.length_cons, pow_succ]
    ring

theorem digitsVal_cons (b d : Nat) (ds : List Nat) :
    digitsVal b (d :: ds) = d * b ^ ds.length + digitsVal b ds := by
  rw [digitsVal, List.foldl_cons, foldl_digits]; ring

theorem digitsOf_digitText {ds : List Nat} (h : ∀ d ∈ ds, d < 10) : digitsOf decDigit (digitText ds) = some ds := by
  induction ds with
  | nil => rfl
  | cons d ds ih =>
    have hd : decDigit (48 + d) = some d := by
      have := h d (by simp)
      simp [decDigit]; omega
    have := ih fun x hx => h x (by simp [hx])
    simp only [digitText] at this
    simp [digitText, digitsOf, hd, this]

theorem parseNat_digitText {ds : List Nat} (h : ∀ d ∈ ds, d < 10) (hne : ds ≠ []) :
    parseNat (digitText ds) = some (digitsVal 10 ds) := by
  have : digitText ds ≠ [] := by simpa [digitText] using hne
  simp [parseNat, this, digitsOf_digitText h]

theorem showNatAux_digits (fuel n : Nat) (acc : Text) (h : n < 10 ^ fuel) (hf : 0 < fuel) :
    ∃ ds : List Nat, showNatAux fuel n acc = digitText ds ++ acc ∧ (∀ d ∈ ds, d < 10) ∧ ds ≠ []
      ∧ digitsVal 10 ds = n := by
  induction fuel generalizing n acc with
  | zero => omega
  | succ fuel ih =>
    unfold showNatAux
    split
    · rename_i hn
      exact ⟨[n], rfl, by simpa using hn, by simp, by simp [digitsVal]⟩
    · rename_i hn
      have hn' : n / 10 < 10 ^ fuel := by
        rw [Nat.div_lt_iff_lt_mul (by decide)]; rwa [pow_succ] at h
      have hf' : 0 < fuel := by
        rcases Nat.eq_zero_or_pos fuel with rfl | h0
        · omega
        · exact h0
      obtain ⟨ds, hs, hd, -, hv⟩ := ih (n / 10) ((48 + n % 10) :: acc) hn' hf'
      refine ⟨ds ++ [n % 10], ?_, ?_, by simp, ?_⟩
      · rw [hs]; simp [digitText]
      · intro d hm
        rcases List.mem_append.1 hm with hm | hm
        · exact hd d hm
        · rw [List.mem_singleton.1 hm]; exact Nat.mod_lt _ (by decide)
      · rw [digitsVal_append, hv]; omega

theorem showNat_digits (n : Nat) :
    ∃ ds : List Nat, showNat n = digitText ds ∧ (∀ d ∈ ds, d < 10) ∧ ds ≠ [] ∧ digitsVal 10 ds = n := by
  have h : n < 10 ^ (n.log2 + 1) :=
    Nat.lt_of_lt_of_le Nat.lt_log2_self (Nat.pow_le_pow_left (by decide) _)
  obtain ⟨ds, hs, rest⟩ := showNatAux_digits (n.log2 + 1) n [] h (Nat.succ_pos _)
  exact ⟨ds, by rw [showNat, hs, List.append_nil], rest⟩

theorem showFixed_digits (m n : Nat) :
    ∃ ds : List Nat, showFixed m n = digitText ds ∧ (∀ d ∈ ds, d < 10) ∧ ds.length = m
      ∧ digitsVal 10 ds = n % 10 ^ m := by
  induction m with
  | zero => exact ⟨[], rfl, by simp, rfl, by simp [digitsVal, Nat.mod_one]⟩
  | succ m ih =>
    obtain ⟨ds, hs, hd, hl, hv⟩ := ih
    refine ⟨(n / 10 ^ m % 10) :: ds, ?_, ?_, by simp [hl], ?_⟩
    · rw [showFixed, hs]; rfl
    · intro d hm
      rcases List.mem_cons.1 hm with rfl | hm
      · exact Nat.mod_lt _ (by decide)
      · exact hd d hm
    · rw [digitsVal_cons, hl, hv, pow_succ, Nat.mod_mul]; ring

theorem parseNat_showNat (n : Nat) : parseNat (showNat n) = some n := by
  obtain ⟨ds, hs, hd, hne, hv⟩ := showNat_digits n
  rw [hs, parseNat_digitText hd hne, hv]

/-- A text of one or more decimal digits. -/
def IsDigits (t : Text) : Prop := t ≠ [] ∧ ∀ c ∈ t, 48 ≤ c ∧ c ≤ 57

theorem isDigits_digitText {ds : List Nat} (h : ∀ d ∈ ds, d < 10) (hne : ds ≠ []) : IsDigits (digitText ds) := by
  refine ⟨by simpa [digitText] using hne, fun c hc => ?_⟩
  obtain ⟨d, hd, rfl⟩ := List.mem_map.1 hc
  have := h d hd
  omega

theorem isDigits_showNat (n : Nat) : IsDigits (showNat n) := by
  obtain ⟨ds, hs, hd, hne, -⟩ := showNat_digits n
  rw [hs]; exact isDigits_digitText hd hne

/-! ### Integers -/

theorem parseInt_digits {t : Text} (h : IsDigits t) : parseInt t = (parseNat t).map (fun n => (n : Int)) := by
  unfold parseInt
  split
  · have := h.2 45 (by simp); omega
  · have := h.2 43 (by simp); omega
  · have := h.2 120 (by simp); omega
  · rfl

theorem parseInt_showInt (v : Int) : parseInt (showInt v) = some v := by
  unfold showInt
  split
  · rw [parseInt, parseNat_showNat]
    exact congrArg some (by omega : -((v.natAbs : Nat) : Int) = v)
  · rw [parseInt_digits (isDigits_showNat _), parseNat_showNat]
    exact congrArg some (by omega : ((v.natAbs : Nat) : Int) = v)

/-! ### Bytes and byte strings -/

theorem parseByte_showByte : ∀ b : Byte, parseByte (showByte b) = some b := by decide +kernel

theorem showByte_codes : ∀ b : Byte, ∀ c ∈ showByte b, (48 ≤ c ∧ c ≤ 57) ∨ (65 ≤ c ∧ c ≤ 70) := by
  decide +kernel

theorem splitAtCode_none {c : Nat} {t : Text} (h : c ∉ t) : splitAtCode c t = [t] := by
  induction t with
  | nil => rfl
  | cons x xs ih =>
    have hx : x ≠ c := fun e => h (by simp [e])
    have hxs : c ∉ xs := fun hm => h (by simp [hm])
    simp [splitAtCode, hx, ih hxs]

theorem splitAtCode_append {c : Nat} {t : Text} (h : c ∉ t) (r : Text) :
    splitAtCode c (t ++ c :: r) = t :: splitAtCode c r := by
  induction t with
  | nil => simp [splitAtCode]
  | cons x xs ih =>
    have hx : x ≠ c := fun e => h (by simp [e])
    have hxs : c ∉ xs := fun hm => h (by simp [hm])
    simp [splitAtCode, hx, ih hxs]

theorem showByte_no {c : Nat} (h : c < 48) (b : Byte) : c ∉ showByte b := fun hm => by
  rcases showByte_codes b c hm with h' | h' <;> omega

theorem showByte_ne_nil (b : Byte) : showByte b ≠ [] := by simp [showByte]

theorem wordsOf_showBytes (s : Bytes) : wordsOf (showBytes s) = s.map showByte := by
  induction s with
  | nil => rfl
  | cons b bs ih =>
    cases bs with
    | nil =>
      have h : splitAtCode 32 (showByte b) = [showByte b] := splitAtCode_none (showByte_no (by decide) b)
      simp [wordsOf, showBytes, h, showByte_ne_nil]
    | cons b' bs' =>
      have h := splitAtCode_append (showByte_no (c := 32) (by decide) b) (showBytes (b' :: bs'))
      simp only [wordsOf] at ih
      simp [wordsOf, showBytes, h, showByte_ne_nil, ih]

theorem parseBytes_map (s : Bytes) : parseBytes (s.map showByte) = some s := by
  induction s with
  | nil => rfl
  | cons b bs ih => simp [parseBytes, parseByte_showByte, ih]

theorem parseString_showString (s : Bytes) : parseString (showString s) = some s := by
  simp [parseString, showString, wordsOf_showBytes, parseBytes_map]

/-! ### Rationals -/

theorem decimalPlaces_dvd {den fuel m k : Nat} (h : decimalPlaces den fuel m = some k) : 10 ^ k % den = 0 := by
  induction fuel generalizing m with
  | zero => simp [decimalPlaces] at h
  | succ fuel ih =>
    unfold decimalPlaces at h
    split at h
    · cases h; assumption
    · exact ih h

theorem IsDigits.no {t : Text} (h : IsDigits t) {c : Nat} (hc : c < 48) : c ∉ t := fun hm => by
  have := h.2 c hm; omega

theorem parseUnsignedRat_digits {t : Text} (h : IsDigits t) :
    parseUnsignedRat t = (parseNat t).map (fun n => (n : Rat)) := by
  simp [parseUnsignedRat, splitAtCode_none (h.no (c := 47) (by decide)),
    splitAtCode_none (h.no (c := 46) (by decide))]

theorem parseUnsignedRat_fraction {a b : Text} (ha : IsDigits a) (hb : IsDigits b) {n d : Nat}
    (hn : parseNat a = some n) (hd : parseNat b = some d) (h0 : d ≠ 0) :
    parseUnsignedRat (a ++ 47 :: b) = some (mkRat n d) := by
  simp [parseUnsignedRat, splitAtCode_append (ha.no (c := 47) (by decide)),
    splitAtCode_none (hb.no (c := 47) (by decide)), hn, hd, h0]

theorem parseUnsignedRat_decimal {a b : Text} (ha : IsDigits a) (hb : IsDigits b) {n f : Nat}
    (hn : parseNat a = some n) (hf : parseNat b = some f) :
    parseUnsignedRat (a ++ 46 :: b) = some (mkRat (n * 10 ^ b.length + f) (10 ^ b.length)) := by
  have h47 : (47 : Nat) ∉ a ++ 46 :: b := by
    simp [ha.no (c := 47) (by decide), hb.no (c := 47) (by decide)]
  simp [parseUnsignedRat, splitAtCode_none h47, splitAtCode_append (ha.no (c := 46) (by decide)),
    splitAtCode_none (hb.no (c := 46) (by decide)), hn, hf]

theorem mkRat_eq_of_mul {n num den p k : Nat} (hd : den ≠ 0) (hp : p = den * k) (hk : k ≠ 0)
    (hn : n = num * k) : mkRat n p = mkRat num den := by
  subst hp hn
  rw [Rat.mkRat_eq_iff (Nat.mul_ne_zero hd hk) hd]
  push_cast; ring

theorem parseUnsignedRat_show (num den : Nat) (hd : den ≠ 0) :
    parseUnsignedRat (showUnsignedRat num den) = some (mkRat num den) := by
  unfold showUnsignedRat
  split
  · exact parseUnsignedRat_fraction (isDigits_showNat _) (isDigits_showNat _) (parseNat_showNat _)
      (parseNat_showNat _) hd
  · rename_i h
    have h1 := decimalPlaces_dvd h
    have : den = 1 := Nat.dvd_one.1 (Nat.dvd_of_mod_eq_zero h1)
    subst this
    rw [parseUnsignedRat_digits (isDigits_showNat _), parseNat_showNat]
    simp [Rat.mkRat_one]
  · rename_i m h
    have h1 := Nat.dvd_of_mod_eq_zero (decimalPlaces_dvd h)
    obtain ⟨k, hk⟩ := h1
    have hpos : 0 < 10 ^ (m + 1) := Nat.pow_pos (by decide)
    have hk0 : k ≠ 0 := by rintro rfl; rw [Nat.mul_zero] at hk; omega
    have hdiv : 10 ^ (m + 1) / den = k := by rw [hk]; exact Nat.mul_div_cancel_left _ (Nat.pos_of_ne_zero hd)
    simp only [hdiv]
    obtain ⟨ds, hs, hds, hl, hv⟩ := showFixed_digits (m + 1) (num * k % 10 ^ (m + 1))
    have hne : ds ≠ [] := by rintro rfl; simp at hl
    have hlen : (digitText ds).length = m + 1 := by simp [digitText, hl]
    rw [hs, parseUnsignedRat_decimal (isDigits_showNat _) (isDigits_digitText hds hne) (parseNat_showNat _)
      (parseNat_digitText hds hne), hlen, hv, Nat.mod_mod]
    rw [← mkRat_eq_of_mul hd hk hk0 rfl]
    congr 2
    have := Nat.div_add_mod (num * k) (10 ^ (m + 1))
    rw [Nat.mul_comm] at this
    exact_mod_cast this

theorem showUnsignedRat_head (num den : Nat) : ∃ c t, showUnsignedRat num den = c :: t ∧ 48 ≤ c ∧ c ≤ 57 := by
  have key : ∀ (n : Nat) (r : Text), ∃ c t, showNat n ++ r = c :: t ∧ 48 ≤ c ∧ c ≤ 57 := by
    intro n r
    have h := isDigits_showNat n
    cases hs : showNat n with
    | nil => exact absurd hs h.1
    | cons c t => exact ⟨c, t ++ r, rfl, h.2 c (by simp [hs])⟩
  unfold showUnsignedRat
  split
  · exact key _ _
  · have := key num []; rwa [List.append_nil] at this
  · exact key _ _

theorem parseRat_showUnsignedRat (num den : Nat) :
    parseRat (showUnsignedRat num den) = parseUnsignedRat (showUnsignedRat num den) := by
  obtain ⟨c, t, h, h1, h2⟩ := showUnsignedRat_head num den
  rw [h]
  unfold parseRat
  split
  · rename_i e; cases e; omega
  · rename_i e; cases e; omega
  · rfl

theorem parseRat_showRat (q : Rat) : parseRat (showRat q) = some q := by
  unfold showRat
  split
  · rename_i h
    have hn : ((q.num.natAbs : Nat) : Int) = -q.num := by omega
    simp only [parseRat, parseUnsignedRat_show _ _ q.den_nz, Option.map_some, Option.some.injEq]
    rw [hn, ← Rat.neg_mkRat, Rat.mkRat_self, neg_neg]
  · rename_i h
    have hn : ((q.num.natAbs : Nat) : Int) = q.num := by omega
    rw [parseRat_showUnsignedRat, parseUnsignedRat_show _ _ q.den_nz, hn, Rat.mkRat_self]

theorem showRat_head (q : Rat) :
    (∃ c t, showRat q = c :: t ∧ 48 ≤ c ∧ c ≤ 57) ∨ (∃ c t, showRat q = 45 :: c :: t ∧ 48 ≤ c ∧ c ≤ 57) := by
  unfold showRat
  split
  · obtain ⟨c, t, h, hc⟩ := showUnsignedRat_head q.num.natAbs q.den
    exact .inr ⟨c, t, by rw [h], hc⟩
  · exact .inl (showUnsignedRat_head _ _)

theorem parseFloat_showFloat (v : FloatIn) : parseFloat (showFloat v) = some v := by
  cases v with
  | pattern n =>
    have hne : 35 :: showNat n ≠ txtNaN ∧ 35 :: showNat n ≠ txtPosInf ∧ 35 :: showNat n ≠ txtNegInf := by
      refine ⟨?_, ?_, ?_⟩ <;> intro e <;> simp [txtNaN, txtPosInf, txtNegInf, txt] at e
    simp [parseFloat, showFloat, hne.1, hne.2.1, hne.2.2, parseNat_showNat]
  | finite q =>
    have hne : showRat q ≠ txtNaN ∧ showRat q ≠ txtPosInf ∧ showRat q ≠ txtNegInf := by
      rcases showRat_head q with ⟨c, t, h, h1, h2⟩ | ⟨c, t, h, h1, h2⟩
      all_goals
        rw [h]
        refine ⟨?_, ?_, ?_⟩ <;> intro e <;> simp [txtNaN, txtPosInf, txtNegInf, txt] at e <;> omega
    have hh : (showRat q).head? ≠ some 35 := by
      rcases showRat_head q with ⟨c, t, h, h1, h2⟩ | ⟨c, t, h, h1, h2⟩
      · rw [h]; simp; omega
      · rw [h]; simp
    simp [parseFloat, showFloat, hne.1, hne.2.1, hne.2.2, hh, parseRat_showRat]
  | nan => rfl
  | posInf => rfl
  | negInf => rfl

theorem parseBool_showBool (v : Bool) : parseBool (showBool v) = some v := by cases v <;> rfl

theorem parseDialect_showDialect (d : Dialect) : parseDialect (showDialect d) = some d := by cases d <;> rfl

/-! ### Lines -/

/-- A text that stands between two commas of a line: no comma, no semicolon, no space at either end. -/
structure IsOperand (t : Text) : Prop where
  small : ∀ c ∈ t, c < 256
  noSemicolon : 59 ∉ t
  noComma : 44 ∉ t
  head : t.head? ≠ some 32
  last : t.getLast? ≠ some 32
  ne : t ≠ []

/-- A text of one word. -/
structure IsWord (t : Text) : Prop where
  small : ∀ c ∈ t, c < 256
  noSemicolon : 59 ∉ t
  noSpace : 32 ∉ t
  ne : t ≠ []

theorem dropWhile_space {t : Text} (h : t.head? ≠ some 32) : t.dropWhile (· == 32) = t := by
  cases t with
  | nil => rfl
  | cons c t =>
    have : c ≠ 32 := fun e => h (by simp [e])
    simp [this]

theorem trim_eq_self {t : Text} (h : t.head? ≠ some 32) (hl : t.getLast? ≠ some 32) : trim t = t := by
  rw [trim, dropWhile_space h, dropWhile_space (by rwa [List.head?_reverse]), List.reverse_reverse]

theorem trim_space_cons {t : Text} (h : t.head? ≠ some 32) (hl : t.getLast? ≠ some 32) : trim (32 :: t) = t := by
  have : (32 :: t : Text).dropWhile (· == 32) = t := by simp [dropWhile_space h]
  rw [trim, this, dropWhile_space (by rwa [List.head?_reverse]), List.reverse_reverse]

theorem IsOperand.trim_eq {t : Text} (h : IsOperand t) : trim t = t := trim_eq_self h.head h.last

theorem codesOf_bytesOf {t : Text} (h : ∀ c ∈ t, c < 256) : codesOf (bytesOf t) = t := by
  induction t with
  | nil => rfl
  | cons c t ih =>
    have hc := h c (by simp)
    have := ih fun x hx => h x (by simp [hx])
    simp only [codesOf, bytesOf] at this ⊢
    simp only [List.map_cons, BitVec.toNat_ofNat, this, List.cons.injEq, and_true]
    omega

theorem stripComment_none {t : Text} (h : 59 ∉ t) : stripComment t = t := by
  rw [stripComment, List.takeWhile_eq_self_iff]
  intro c hc
  have : c ≠ 59 := fun e => h (e ▸ hc)
  simpa using this

theorem takeWhile_name {w r : Text} (h : 32 ∉ w) : (w ++ 32 :: r).takeWhile (· != 32) = w := by
  induction w with
  | nil => simp
  | cons c w ih =>
    have hc : c ≠ 32 := fun e => h (by simp [e])
    simp [hc, ih fun hm => h (by simp [hm])]

theorem dropWhile_name {w r : Text} (h : 32 ∉ w) : (w ++ 32 :: r).dropWhile (· != 32) = 32 :: r := by
  induction w with
  | nil => simp
  | cons c w ih =>
    have hc : c ≠ 32 := fun e => h (by simp [e])
    simp [hc, ih fun hm => h (by simp [hm])]

theorem takeWhile_word {w : Text} (h : 32 ∉ w) : w.takeWhile (· != 32) = w := by
  rw [List.takeWhile_eq_self_iff]
  intro c hc
  have : c ≠ 32 := fun e => h (e ▸ hc)
  simpa using this

theorem dropWhile_word {w : Text} (h : 32 ∉ w) : w.dropWhile (· != 32) = [] := by
  rw [List.dropWhile_eq_nil_iff]
  intro c hc
  have : c ≠ 32 := fun e => h (e ▸ hc)
  simpa using this

theorem IsWord.head {w : Text} (h : IsWord w) : w.head? ≠ some 32 := fun e =>
  h.noSpace (List.mem_of_mem_head? e)

theorem IsWord.last {w : Text} (h : IsWord w) : w.getLast? ≠ some 32 := fun e =>
  h.noSpace (List.mem_of_mem_getLast? e)

theorem joinOperands_mem {ops : List Text} {c : Nat} (h : c ∈ joinOperands ops) :
    c = 44 ∨ c = 32 ∨ ∃ t ∈ ops, c ∈ t := by
  induction ops with
  | nil => simp [joinOperands] at h
  | cons t ts ih =>
    cases ts with
    | nil => exact .inr (.inr ⟨t, by simp, h⟩)
    | cons t' ts' =>
      simp only [joinOperands, List.mem_append, List.mem_cons] at h
      rcases h with h | h | h | h
      · exact .inr (.inr ⟨t, by simp, h⟩)
      · exact .inl h
      · exact .inr (.inl h)
      · rcases ih (by simpa [joinOperands] using h) with h | h | ⟨u, hu, hc⟩
        · exact .inl h
        · exact .inr (.inl h)
        · exact .inr (.inr ⟨u, by simp [hu], hc⟩)

theorem joinOperands_head {ops : List Text} (h : ∀ t ∈ ops, IsOperand t) :
    (joinOperands ops).head? ≠ some 32 := by
  cases ops with
  | nil => simp [joinOperands]
  | cons t ts =>
    have ht := h t (by simp)
    cases ts with
    | nil => exact ht.head
    | cons t' ts' =>
      obtain ⟨c, u, rfl⟩ := List.exists_cons_of_ne_nil ht.ne
      exact ht.head

theorem joinOperands_ne_nil {ops : List Text} (h : ∀ t ∈ ops, IsOperand t) (hne : ops ≠ []) :
    joinOperands ops ≠ [] := by
  cases ops with
  | nil => exact absurd rfl hne
  | cons t ts =>
    cases ts with
    | nil => exact (h t (by simp)).ne
    | cons t' ts' => simp [joinOperands]

theorem joinOperands_last {ops : List Text} (h : ∀ t ∈ ops, IsOperand t) :
    (joinOperands ops).getLast? ≠ some 32 := by
  induction ops with
  | nil => simp [joinOperands]
  | cons t ts ih =>
    cases ts with
    | nil => exact (h t (by simp)).last
    | cons t' ts' =>
      have hts : ∀ u ∈ t' :: ts', IsOperand u := fun u hu => h u (by simp [List.mem_cons.1 hu])
      obtain ⟨c, u, hj⟩ := List.exists_cons_of_ne_nil (joinOperands_ne_nil hts (by simp))
      have hl := ih hts
      have e : joinOperands (t :: t' :: ts') = t ++ 44 :: 32 :: joinOperands (t' :: ts') := rfl
      rw [e, hj, List.getLast?_append_cons, List.getLast?_cons_cons, List.getLast?_cons_cons, ← hj]
      exact hl

theorem operandsOf_join_aux {ops : List Text} (h : ∀ t ∈ ops, IsOperand t) (hne : ops ≠ []) :
    (splitAtCode 44 (joinOperands ops)).map trim = ops := by
  induction ops with
  | nil => exact absurd rfl hne
  | cons t ts ih =>
    have ht := h t (by simp)
    cases ts with
    | nil => simp [joinOperands, splitAtCode_none ht.noComma, ht.trim_eq]
    | cons t' ts' =>
      have hts : ∀ u ∈ t' :: ts', IsOperand u := fun u hu => h u (by simp [List.mem_cons.1 hu])
      have e : joinOperands (t :: t' :: ts') = t ++ 44 :: (32 :: joinOperands (t' :: ts')) := rfl
      have hspace : (splitAtCode 44 (32 :: joinOperands (t' :: ts'))).map trim
          = (splitAtCode 44 (joinOperands (t' :: ts'))).map trim := by
        have h32 : (32 : Nat) ≠ 44 := by decide
        rw [splitAtCode, if_neg h32]
        have hh := joinOperands_head hts
        cases hsp : splitAtCode 44 (joinOperands (t' :: ts')) with
        | nil => have := ih hts (by simp); rw [hsp] at this; simp at this
        | cons w ws =>
          simp only [List.map_cons, List.cons.injEq, and_true]
          have hw : (32 :: w : Text).dropWhile (· == 32) = w.dropWhile (· == 32) := by
            simp
          rw [trim, hw, ← trim]
      rw [e, splitAtCode_append ht.noComma, List.map_cons, hspace, ih hts (by simp), ht.trim_eq]

theorem operandsOf_join {ops : List Text} (h : ∀ t ∈ ops, IsOperand t) :
    operandsOf (joinOperands ops) = ops := by
  by_cases hne : ops = []
  · subst hne; rfl
  · rw [operandsOf, if_neg (joinOperands_ne_nil h hne), operandsOf_join_aux h hne]

/-- A text without spaces, commas and semicolons. -/
def IsPlain (t : Text) : Prop := t ≠ [] ∧ ∀ c ∈ t, c < 256 ∧ c ≠ 32 ∧ c ≠ 44 ∧ c ≠ 59

theorem IsPlain.isOperand {t : Text} (h : IsPlain t) : IsOperand t where
  small c hc := (h.2 c hc).1
  noSemicolon hc := (h.2 _ hc).2.2.2 rfl
  noComma hc := (h.2 _ hc).2.2.1 rfl
  head e := (h.2 _ (List.mem_of_mem_head? e)).2.1 rfl
  last e := (h.2 _ (List.mem_of_mem_getLast? e)).2.1 rfl
  ne := h.1

theorem IsDigits.isPlain {t : Text} (h : IsDigits t) : IsPlain t :=
  ⟨h.1, fun c hc => by have := h.2 c hc; omega⟩

theorem isPlain_cons {c : Nat} {t : Text} (hc : c < 256 ∧ c ≠ 32 ∧ c ≠ 44 ∧ c ≠ 59) (h : IsPlain t) :
    IsPlain (c :: t) :=
  ⟨by simp, fun x hx => by
    rcases List.mem_cons.1 hx with rfl | hx
    · exact hc
    · exact h.2 x hx⟩

theorem isPlain_append {t u : Text} (ht : IsPlain t) (hu : IsPlain u) : IsPlain (t ++ u) :=
  ⟨by simp [ht.1], fun x hx => by
    rcases List.mem_append.1 hx with hx | hx
    · exact ht.2 x hx
    · exact hu.2 x hx⟩

theorem isOperand_showInt (v : Int) : IsOperand (showInt v) := by
  apply IsPlain.isOperand
  unfold showInt
  split
  · exact isPlain_cons (by decide) (isDigits_showNat _).isPlain
  · exact (isDigits_showNat _).isPlain

theorem isPlain_showUnsignedRat (num den : Nat) : IsPlain (showUnsignedRat num den) := by
  unfold showUnsignedRat
  split
  · exact isPlain_append (isDigits_showNat _).isPlain (isPlain_cons (by decide) (isDigits_showNat _).isPlain)
  · exact (isDigits_showNat _).isPlain
  · rename_i m _
    obtain ⟨ds, hs, hds, hl, -⟩ := showFixed_digits (m + 1) (num * (10 ^ (m + 1) / den) % 10 ^ (m + 1))
    have hne : ds ≠ [] := by rintro rfl; simp at hl
    simp only [hs]
    exact isPlain_append (isDigits_showNat _).isPlain
      (isPlain_cons (by decide) (isDigits_digitText hds hne).isPlain)

theorem isPlain_showRat (q : Rat) : IsPlain (showRat q) := by
  unfold showRat
  split
  · exact isPlain_cons (by decide) (isPlain_showUnsignedRat _ _)
  · exact isPlain_showUnsignedRat _ _

theorem isOperand_showRat (q : Rat) : IsOperand (showRat q) := (isPlain_showRat q).isOperand

theorem isOperand_showFloat (v : FloatIn) : IsOperand (showFloat v) := by
  cases v with
  | pattern n => exact (isPlain_cons (by decide) (isDigits_showNat n).isPlain).isOperand
  | finite q => exact isOperand_showRat q
  | nan => exact IsPlain.isOperand (by unfold IsPlain; decide)
  | posInf => exact IsPlain.isOperand (by unfold IsPlain; decide)
  | negInf => exact IsPlain.isOperand (by unfold IsPlain; decide)

theorem isOperand_showBool (v : Bool) : IsOperand (showBool v) := by
  apply IsPlain.isOperand; unfold IsPlain; cases v <;> decide

theorem isOperand_showDialect (d : Dialect) : IsOperand (showDialect d) := by
  apply IsPlain.isOperand; unfold IsPlain; cases d <;> decide

theorem isPlain_showByte (b : Byte) : IsPlain (showByte b) :=
  ⟨showByte_ne_nil b, fun c hc => by rcases showByte_codes b c hc with h | h <;> omega⟩

theorem showBytes_codes {s : Bytes} {c : Nat} (h : c ∈ showBytes s) : c < 256 ∧ c ≠ 44 ∧ c ≠ 59 := by
  induction s with
  | nil => simp [showBytes] at h
  | cons b bs ih =>
    have hb : ∀ x ∈ showByte b, x < 256 ∧ x ≠ 44 ∧ x ≠ 59 := fun x hx => by
      have := (isPlain_showByte b).2 x hx; omega
    cases bs with
    | nil => exact hb c h
    | cons b' bs' =>
      simp only [showBytes, List.mem_append, List.mem_cons] at h
      rcases h with h | h | h
      · exact hb c h
      · omega
      · exact ih (by simpa [showBytes] using h)

theorem isOperand_showString (s : Bytes) : IsOperand (showString s) := by
  have hc : ∀ c ∈ showString s, c < 256 ∧ c ≠ 44 ∧ c ≠ 59 := by
    intro c hc
    simp only [showString, List.mem_cons, List.mem_append, List.not_mem_nil, or_false] at hc
    rcases hc with rfl | hc | rfl
    · decide
    · exact showBytes_codes hc
    · decide
  exact {
    small := fun c h => (hc c h).1
    noSemicolon := fun h => (hc _ h).2.2 rfl
    noComma := fun h => (hc _ h).2.1 rfl
    head := by simp [showString]
    last := by
      rw [showString, ← List.cons_append, List.getLast?_append_cons]; simp
    ne := by simp [showString] }

/-- A printed line is decoded as its mnemonic's row reads its operands. -/
theorem decodeLine_lineOf {name : Text} {ops : List Text} (hn : IsWord name) (hq : name ≠ nameInq)
    (h : ∀ t ∈ ops, IsOperand t) {build : Build} (hb : findRow name lineTable = some build) {i : Instr}
    (hi : build ops = .ok i) : decodeLine (lineOf name ops) = .ok (.op i) := by
  have hfin : ∀ t rest : Text, codesOf (lineOf name ops) = t → stripComment t = t → trim t = t → t ≠ [] →
      t.takeWhile (· != 32) = name → trim (t.dropWhile (· != 32)) = rest → operandsOf rest = ops →
      decodeLine (lineOf name ops) = .ok (.op i) := by
    intro t rest h1 h2 h3 h4 h5 h6 h7
    simp only [decodeLine, h1, h2, h3, h4, h5, h6, if_false, hq, hb, h7, hi]
  by_cases hne : ops = []
  · subst hne
    exact hfin name [] (by rw [lineOf, if_pos rfl, codesOf_bytesOf hn.small]) (stripComment_none hn.noSemicolon)
      (trim_eq_self hn.head hn.last) hn.ne (takeWhile_word hn.noSpace) (by rw [dropWhile_word hn.noSpace]; rfl) rfl
  · have hsmall : ∀ c ∈ name ++ 32 :: joinOperands ops, c < 256 := by
      intro c hc
      rcases List.mem_append.1 hc with hc | hc
      · exact hn.small c hc
      · rcases List.mem_cons.1 hc with rfl | hc
        · decide
        · rcases joinOperands_mem hc with rfl | rfl | ⟨t, ht, hc⟩
          · decide
          · decide
          · exact (h t ht).small c hc
    have hsemi : 59 ∉ name ++ 32 :: joinOperands ops := by
      intro hc
      rcases List.mem_append.1 hc with hc | hc
      · exact hn.noSemicolon hc
      · rcases List.mem_cons.1 hc with hc | hc
        · exact absurd hc (by decide)
        · rcases joinOperands_mem hc with hc | hc | ⟨t, ht, hc⟩
          · exact absurd hc (by decide)
          · exact absurd hc (by decide)
          · exact (h t ht).noSemicolon hc
    obtain ⟨c, u, hj⟩ := List.exists_cons_of_ne_nil (joinOperands_ne_nil h hne)
    have hlast : (name ++ 32 :: joinOperands ops).getLast? ≠ some 32 := by
      have := joinOperands_last h
      rw [hj] at this ⊢
      rwa [List.getLast?_append_cons, List.getLast?_cons_cons]
    have hhead : (name ++ 32 :: joinOperands ops).head? ≠ some 32 := by
      obtain ⟨c', w, rfl⟩ := List.exists_cons_of_ne_nil hn.ne
      exact hn.head
    exact hfin (name ++ 32 :: joinOperands ops) (joinOperands ops)
      (by rw [lineOf, if_neg hne, codesOf_bytesOf hsmall]) (stripComment_none hsemi) (trim_eq_self hhead hlast)
      (by simp) (takeWhile_name hn.noSpace)
      (by rw [dropWhile_name hn.noSpace]; exact trim_space_cons (joinOperands_head h) (joinOperands_last h))
      (operandsOf_join h)

end Sys2Proof
end

