-- ==== Sys2Proof/Laws/Lines.lean ====
section
/-! SUPPORT. What a line of text can decode to: a host operation or a pseudo-operation, never a wire row or a payload
row; and when such an operation runs. -/
namespace Sys2Proof.Machine
open Sys2Proof

/-- The operations a line can write (R100, R102): no wire row and no payload row. -/
def isLineOp : Instr → Bool
  | .frameShort _ | .frameLong _ | .startInvalid _ _ | .endMark => false
  | .cmdFwVersion _ | .cmdGetValuesSetupSelective _ | .cmdGetDecodedPpm _ | .cmdBmsGetValues _
  | .cmdBmsGetBmsCells _ | .cmdForwardToPeer _ | .cmdSetChuckData _ | .cmdSetCurrent _ | .cmdSetCurrentBrake _
  | .cmdSetRpm _ | .cmdSetDuty _ | .cmdUnknown _ _ => false
  | _ => true

/-- A way of reading operands that yields line operations only. -/
def LineBuild (b : Build) : Prop := ∀ ops i, b ops = .ok i → isLineOp i = true

theorem lineBuild_no {i : Instr} (h : isLineOp i = true) : LineBuild (noOperand i) := by
  intro ops j hj
  unfold noOperand at hj
  split at hj <;> cases hj
  exact h

theorem lineBuild_one {α : Type} {p : Text → Except DecodeError α} {f : α → Instr} (h : ∀ a, isLineOp (f a) = true) :
    LineBuild (oneOperand p f) := by
  intro ops j hj
  unfold oneOperand at hj
  split at hj
  · split at hj <;> cases hj
    exact h _
  · cases hj

theorem lineBuild_two {α β : Type} {p : Text → Except DecodeError α} {q : Text → Except DecodeError β}
    {f : α → β → Instr} (h : ∀ a b, isLineOp (f a b) = true) : LineBuild (twoOperands p q f) := by
  intro ops j hj
  unfold twoOperands at hj
  split at hj
  · split at hj <;> cases hj
    exact h _ _
  · cases hj

theorem lineBuild_four {α β γ δ : Type} {p : Text → Except DecodeError α} {q : Text → Except DecodeError β}
    {r : Text → Except DecodeError γ} {u : Text → Except DecodeError δ} {f : α → β → γ → δ → Instr}
    (h : ∀ a b c d, isLineOp (f a b c d) = true) : LineBuild (fourOperands p q r u f) := by
  intro ops j hj
  unfold fourOperands at hj
  split at hj
  · split at hj <;> cases hj
    exact h _ _ _ _
  · cases hj

theorem lineBuild_table : ∀ r ∈ lineTable, LineBuild r.2 := by
  simp only [lineTable, rowsCrcAndBuffer, rowsIntegers, rowsScaledAndFrame, rowsOtherAndPseudo, List.forall_mem_append,
    List.forall_mem_cons, List.not_mem_nil, false_imp_iff, implies_true, and_true]
  refine ⟨⟨⟨?_, ?_⟩, ?_⟩, ?_⟩ <;> refine ⟨?_, ?_, ?_, ?_, ?_, ?_, ?_, ?_⟩ <;>
    first
    | exact lineBuild_no rfl
    | exact lineBuild_one fun _ => rfl
    | exact lineBuild_two fun _ _ => rfl
    | exact lineBuild_four fun _ _ _ _ => rfl

theorem findRow_mem {m : Text} {b : Build} {rows : List (Text × Build)} (h : findRow m rows = some b) :
    (m, b) ∈ rows := by
  induction rows with
  | nil => cases h
  | cons r rows ih =>
    obtain ⟨n, c⟩ := r
    unfold findRow at h
    split at h
    · rename_i e; cases h; subst e; exact List.mem_cons_self
    · exact List.mem_cons_of_mem _ (ih h)

/-- What a line decodes to is a line operation. -/
theorem decodeLine_isLineOp {text : Bytes} {i : Instr} (h : decodeLine text = .ok (.op i)) : isLineOp i = true := by
  unfold decodeLine at h
  simp only at h
  split at h
  · cases h
  · split at h
    · unfold parseDelivery at h
      split at h
      · split at h <;> cases h
      · cases h
    · split at h
      · cases h
      · rename_i build hb
        split at h
        · rename_i j hj
          cases h
          exact lineBuild_table _ (findRow_mem hb) _ _ hj
        · cases h

/-- A line operation other than RESET that answers a next state ran in a ready state (R7, R277). -/
theorem lineOp_ready {i : Instr} {s t : State} (hi : isLineOp i = true) (hr : i ≠ .reset) (h : exec i s = .next t) :
    s.Ready := by
  cases i <;> first | (exact absurd rfl hr) | (cases hi; done) | skip
  all_goals try simp only [exec, execCrcInit, execCrcUpdate, execCrcRead, execCrc16, execFcClear, execFcLoad, execFcSkip,
    execPack, execUnpack] at h
  all_goals try exact (hostOp_eq_next h).1
  case exchange d =>
    obtain ⟨u, hu, -⟩ := andThen_eq_next (o := execReceive s) h
    exact (hostOp_eq_next hu).1
  case crcOver str =>
    obtain ⟨u, hu, -⟩ := expandTo_eq_next (o := execCrcInit s) h
    exact (hostOp_eq_next hu).1

/-- While FAULT is set, a well-formed line operation other than RESET does not execute (R277). -/
theorem lineOp_faulted {i : Instr} {s : State} {r : FaultReason} (hi : isLineOp i = true) (hr : i ≠ .reset)
    (hw : i.wf = true) (hc : s.cfg.valid = true) (hf : s.fault = some r) : exec i s = .fault (.faulted r) := by
  cases i <;> first | (exact absurd rfl hr) | (cases hi; done) | skip
  case exchange d =>
    have h : execReceive s = .fault (.faulted r) := hostOp_faulted hc rfl hf
    show andThen (execReceive s) _ = _
    rw [h]; rfl
  case crcOver str =>
    have h : execCrcInit s = .fault (.faulted r) := hostOp_faulted hc rfl hf
    show expandTo (execCrcInit s) _ = _
    rw [h]; rfl
  all_goals try simp only [exec, execCrcInit, execCrcUpdate, execCrcRead, execCrc16, execFcClear, execFcLoad, execFcSkip,
    execPack, execUnpack, execReceive]
  all_goals first | exact hostOp_faulted hc rfl hf | exact hostOp_faulted hc hw hf

end Sys2Proof.Machine
end

