-- ==== Sys2Proof/Laws/PerInstr.lean ====
section
/-! SUPPORT. Statements made per instruction. RoundTrip: decoding what the encoder wrote gives the instruction
back, under every configuration whose ids differ; a payload of CMD_UNKNOWN starts with no id of its dialect. -/

namespace Sys2Proof

theorem isWord_of {t : Text} (h : (t.all (fun c => decide (c < 256) && c != 59 && c != 32) && !t.isEmpty) = true) :
    IsWord t := by
  simp only [Bool.and_eq_true, List.all_eq_true, decide_eq_true_eq, bne_iff_ne, ne_eq, Bool.not_eq_true',
    List.isEmpty_eq_false_iff] at h
  exact {
    small := fun c hc => (h.1 c hc).1.1
    noSemicolon := fun hc => (h.1 _ hc).1.2 rfl
    noSpace := fun hc => (h.1 _ hc).2 rfl
    ne := h.2 }

theorem roundTrip_line {c : Config} {i : Instr} {name : Text} {ops : List Text} {build : Build}
    (he : encode c i = .line (lineOf name ops)) (hn : IsWord name) (hq : name ≠ nameInq)
    (hops : ∀ t ∈ ops, IsOperand t) (hb : findRow name lineTable = some build) (hi : build ops = .ok i) :
    decode c (encode c i) = .ok i := by
  rw [he, decode, decodeLine_lineOf hn hq hops hb hi]

end Sys2Proof

/-- Decoding the encoding of `i` gives `i` back. -/
def Sys2Proof.Laws.RoundTrip.Statement (i : Sys2Proof.Instr) : Prop :=
  ∀ c : Sys2Proof.Config, c.valid = true → (c.idsOf .mc).Nodup → i.wf = true →
    (∀ d p, i = .cmdUnknown d p → ∀ id ∈ p.head?, id ∉ c.idsOf d) →
    Sys2Proof.decode c (Sys2Proof.encode c i) = .ok i

section

open Sys2Proof (Byte Bytes Dialect FloatIn Instr Config)
open Sys2Proof

/-! ### Lines -/

theorem Sys2Proof.Laws.RoundTrip.crcInit : Sys2Proof.Laws.RoundTrip.Statement (.crcInit) :=
  fun c _ _ _ _ => Sys2Proof.roundTrip_line (c := c) rfl (Sys2Proof.isWord_of rfl) (by decide)
    (fun _ h => absurd h List.not_mem_nil) rfl
    rfl

theorem Sys2Proof.Laws.RoundTrip.crcUpdate (b : Byte) : Sys2Proof.Laws.RoundTrip.Statement (.crcUpdate b) :=
  fun c _ _ _ _ => Sys2Proof.roundTrip_line (c := c) rfl (Sys2Proof.isWord_of rfl) (by decide)
    (List.forall_mem_singleton.2 (isPlain_showByte b).isOperand) rfl
    (by simp only [oneOperand, orReject, parseByteOperand, parseByte_showByte])

theorem Sys2Proof.Laws.RoundTrip.crcRead : Sys2Proof.Laws.RoundTrip.Statement (.crcRead) :=
  fun c _ _ _ _ => Sys2Proof.roundTrip_line (c := c) rfl (Sys2Proof.isWord_of rfl) (by decide)
    (fun _ h => absurd h List.not_mem_nil) rfl
    rfl

theorem Sys2Proof.Laws.RoundTrip.crc16 (s : Bytes) : Sys2Proof.Laws.RoundTrip.Statement (.crc16 s) :=
  fun c _ _ _ _ => Sys2Proof.roundTrip_line (c := c) rfl (Sys2Proof.isWord_of rfl) (by decide)
    (List.forall_mem_singleton.2 (isOperand_showString s)) rfl
    (by simp only [oneOperand, orReject, parseStringOperand, parseString_showString])

theorem Sys2Proof.Laws.RoundTrip.fcClear : Sys2Proof.Laws.RoundTrip.Statement (.fcClear) :=
  fun c _ _ _ _ => Sys2Proof.roundTrip_line (c := c) rfl (Sys2Proof.isWord_of rfl) (by decide)
    (fun _ h => absurd h List.not_mem_nil) rfl
    rfl

theorem Sys2Proof.Laws.RoundTrip.fcLoad (s : Bytes) : Sys2Proof.Laws.RoundTrip.Statement (.fcLoad s) :=
  fun c _ _ _ _ => Sys2Proof.roundTrip_line (c := c) rfl (Sys2Proof.isWord_of rfl) (by decide)
    (List.forall_mem_singleton.2 (isOperand_showString s)) rfl
    (by simp only [oneOperand, orReject, parseStringOperand, parseString_showString])

theorem Sys2Proof.Laws.RoundTrip.fcSkip (n : Int) : Sys2Proof.Laws.RoundTrip.Statement (.fcSkip n) :=
  fun c _ _ _ _ => Sys2Proof.roundTrip_line (c := c) rfl (Sys2Proof.isWord_of rfl) (by decide)
    (List.forall_mem_singleton.2 (isOperand_showInt n)) rfl
    (by simp only [oneOperand, orReject, parseIntOperand, parseInt_showInt])

theorem Sys2Proof.Laws.RoundTrip.appendUint8 (v : Int) : Sys2Proof.Laws.RoundTrip.Statement (.appendUint8 v) :=
  fun c _ _ _ _ => Sys2Proof.roundTrip_line (c := c) rfl (Sys2Proof.isWord_of rfl) (by decide)
    (List.forall_mem_singleton.2 (isOperand_showInt v)) rfl
    (by simp only [oneOperand, orReject, parseIntOperand, parseInt_showInt])

theorem Sys2Proof.Laws.RoundTrip.getUint8 : Sys2Proof.Laws.RoundTrip.Statement (.getUint8) :=
  fun c _ _ _ _ => Sys2Proof.roundTrip_line (c := c) rfl (Sys2Proof.isWord_of rfl) (by decide)
    (fun _ h => absurd h List.not_mem_nil) rfl
    rfl

theorem Sys2Proof.Laws.RoundTrip.appendBool (v : Bool) : Sys2Proof.Laws.RoundTrip.Statement (.appendBool v) :=
  fun c _ _ _ _ => Sys2Proof.roundTrip_line (c := c) rfl (Sys2Proof.isWord_of rfl) (by decide)
    (List.forall_mem_singleton.2 (isOperand_showBool v)) rfl
    (by simp only [oneOperand, orReject, parseBoolOperand, parseBool_showBool])

theorem Sys2Proof.Laws.RoundTrip.getBool : Sys2Proof.Laws.RoundTrip.Statement (.getBool) :=
  fun c _ _ _ _ => Sys2Proof.roundTrip_line (c := c) rfl (Sys2Proof.isWord_of rfl) (by decide)
    (fun _ h => absurd h List.not_mem_nil) rfl
    rfl

theorem Sys2Proof.Laws.RoundTrip.appendInt16 (v : Int) : Sys2Proof.Laws.RoundTrip.Statement (.appendInt16 v) :=
  fun c _ _ _ _ => Sys2Proof.roundTrip_line (c := c) rfl (Sys2Proof.isWord_of rfl) (by decide)
    (List.forall_mem_singleton.2 (isOperand_showInt v)) rfl
    (by simp only [oneOperand, orReject, parseIntOperand, parseInt_showInt])

theorem Sys2Proof.Laws.RoundTrip.appendUint16 (v : Int) : Sys2Proof.Laws.RoundTrip.Statement (.appendUint16 v) :=
  fun c _ _ _ _ => Sys2Proof.roundTrip_line (c := c) rfl (Sys2Proof.isWord_of rfl) (by decide)
    (List.forall_mem_singleton.2 (isOperand_showInt v)) rfl
    (by simp only [oneOperand, orReject, parseIntOperand, parseInt_showInt])

theorem Sys2Proof.Laws.RoundTrip.appendInt32 (v : Int) : Sys2Proof.Laws.RoundTrip.Statement (.appendInt32 v) :=
  fun c _ _ _ _ => Sys2Proof.roundTrip_line (c := c) rfl (Sys2Proof.isWord_of rfl) (by decide)
    (List.forall_mem_singleton.2 (isOperand_showInt v)) rfl
    (by simp only [oneOperand, orReject, parseIntOperand, parseInt_showInt])

theorem Sys2Proof.Laws.RoundTrip.appendUint32 (v : Int) : Sys2Proof.Laws.RoundTrip.Statement (.appendUint32 v) :=
  fun c _ _ _ _ => Sys2Proof.roundTrip_line (c := c) rfl (Sys2Proof.isWord_of rfl) (by decide)
    (List.forall_mem_singleton.2 (isOperand_showInt v)) rfl
    (by simp only [oneOperand, orReject, parseIntOperand, parseInt_showInt])

theorem Sys2Proof.Laws.RoundTrip.getInt16 : Sys2Proof.Laws.RoundTrip.Statement (.getInt16) :=
  fun c _ _ _ _ => Sys2Proof.roundTrip_line (c := c) rfl (Sys2Proof.isWord_of rfl) (by decide)
    (fun _ h => absurd h List.not_mem_nil) rfl
    rfl

theorem Sys2Proof.Laws.RoundTrip.getUint16 : Sys2Proof.Laws.RoundTrip.Statement (.getUint16) :=
  fun c _ _ _ _ => Sys2Proof.roundTrip_line (c := c) rfl (Sys2Proof.isWord_of rfl) (by decide)
    (fun _ h => absurd h List.not_mem_nil) rfl
    rfl

theorem Sys2Proof.Laws.RoundTrip.getInt32 : Sys2Proof.Laws.RoundTrip.Statement (.getInt32) :=
  fun c _ _ _ _ => Sys2Proof.roundTrip_line (c := c) rfl (Sys2Proof.isWord_of rfl) (by decide)
    (fun _ h => absurd h List.not_mem_nil) rfl
    rfl

theorem Sys2Proof.Laws.RoundTrip.getUint32 : Sys2Proof.Laws.RoundTrip.Statement (.getUint32) :=
  fun c _ _ _ _ => Sys2Proof.roundTrip_line (c := c) rfl (Sys2Proof.isWord_of rfl) (by decide)
    (fun _ h => absurd h List.not_mem_nil) rfl
    rfl

theorem Sys2Proof.Laws.RoundTrip.appendFloat16 (v : FloatIn) (k : Rat) : Sys2Proof.Laws.RoundTrip.Statement (.appendFloat16 v k) :=
  fun c _ _ _ _ => Sys2Proof.roundTrip_line (c := c) rfl (Sys2Proof.isWord_of rfl) (by decide)
    (by
      simp only [List.mem_cons, List.not_mem_nil, or_false, forall_eq_or_imp, forall_eq]
      exact ⟨(isOperand_showFloat v), (isOperand_showRat k)⟩) rfl
    (by simp only [twoOperands, orReject, parseFloatOperand, parseFloat_showFloat, parseScaleOperand, parseRat_showRat])

theorem Sys2Proof.Laws.RoundTrip.appendFloat32 (v : FloatIn) (k : Rat) : Sys2Proof.Laws.RoundTrip.Statement (.appendFloat32 v k) :=
  fun c _ _ _ _ => Sys2Proof.roundTrip_line (c := c) rfl (Sys2Proof.isWord_of rfl) (by decide)
    (by
      simp only [List.mem_cons, List.not_mem_nil, or_false, forall_eq_or_imp, forall_eq]
      exact ⟨(isOperand_showFloat v), (isOperand_showRat k)⟩) rfl
    (by simp only [twoOperands, orReject, parseFloatOperand, parseFloat_showFloat, parseScaleOperand, parseRat_showRat])

theorem Sys2Proof.Laws.RoundTrip.getFloat16 (k : Rat) : Sys2Proof.Laws.RoundTrip.Statement (.getFloat16 k) :=
  fun c _ _ _ _ => Sys2Proof.roundTrip_line (c := c) rfl (Sys2Proof.isWord_of rfl) (by decide)
    (List.forall_mem_singleton.2 (isOperand_showRat k)) rfl
    (by simp only [oneOperand, orReject, parseScaleOperand, parseRat_showRat])

theorem Sys2Proof.Laws.RoundTrip.getFloat32 (k : Rat) : Sys2Proof.Laws.RoundTrip.Statement (.getFloat32 k) :=
  fun c _ _ _ _ => Sys2Proof.roundTrip_line (c := c) rfl (Sys2Proof.isWord_of rfl) (by decide)
    (List.forall_mem_singleton.2 (isOperand_showRat k)) rfl
    (by simp only [oneOperand, orReject, parseScaleOperand, parseRat_showRat])

theorem Sys2Proof.Laws.RoundTrip.pack : Sys2Proof.Laws.RoundTrip.Statement (.pack) :=
  fun c _ _ _ _ => Sys2Proof.roundTrip_line (c := c) rfl (Sys2Proof.isWord_of rfl) (by decide)
    (fun _ h => absurd h List.not_mem_nil) rfl
    rfl

theorem Sys2Proof.Laws.RoundTrip.unpack (raw : Bytes) : Sys2Proof.Laws.RoundTrip.Statement (.unpack raw) :=
  fun c _ _ _ _ => Sys2Proof.roundTrip_line (c := c) rfl (Sys2Proof.isWord_of rfl) (by decide)
    (List.forall_mem_singleton.2 (isOperand_showString raw)) rfl
    (by simp only [oneOperand, orReject, parseStringOperand, parseString_showString])

theorem Sys2Proof.Laws.RoundTrip.receive : Sys2Proof.Laws.RoundTrip.Statement (.receive) :=
  fun c _ _ _ _ => Sys2Proof.roundTrip_line (c := c) rfl (Sys2Proof.isWord_of rfl) (by decide)
    (fun _ h => absurd h List.not_mem_nil) rfl
    rfl

theorem Sys2Proof.Laws.RoundTrip.decode (d : Dialect) (p : Bytes) : Sys2Proof.Laws.RoundTrip.Statement (.decode d p) :=
  fun c _ _ _ _ => Sys2Proof.roundTrip_line (c := c) rfl (Sys2Proof.isWord_of rfl) (by decide)
    (by
      simp only [List.mem_cons, List.not_mem_nil, or_false, forall_eq_or_imp, forall_eq]
      exact ⟨(isOperand_showDialect d), (isOperand_showString p)⟩) rfl
    (by simp only [twoOperands, orReject, parseDialectOperand, parseDialect_showDialect, parseStringOperand, parseString_showString])

theorem Sys2Proof.Laws.RoundTrip.setNunchuck (x y : Int) (lower upper : Bool) : Sys2Proof.Laws.RoundTrip.Statement (.setNunchuck x y lower upper) :=
  fun c _ _ _ _ => Sys2Proof.roundTrip_line (c := c) rfl (Sys2Proof.isWord_of rfl) (by decide)
    (by
      simp only [List.mem_cons, List.not_mem_nil, or_false, forall_eq_or_imp, forall_eq]
      exact ⟨(isOperand_showInt x), (isOperand_showInt y), (isOperand_showBool lower), (isOperand_showBool upper)⟩) rfl
    (by simp only [fourOperands, orReject, parseIntOperand, parseInt_showInt, parseBoolOperand, parseBool_showBool])

theorem Sys2Proof.Laws.RoundTrip.reset : Sys2Proof.Laws.RoundTrip.Statement (.reset) :=
  fun c _ _ _ _ => Sys2Proof.roundTrip_line (c := c) rfl (Sys2Proof.isWord_of rfl) (by decide)
    (fun _ h => absurd h List.not_mem_nil) rfl
    rfl

theorem Sys2Proof.Laws.RoundTrip.send (p : Bytes) : Sys2Proof.Laws.RoundTrip.Statement (.send p) :=
  fun c _ _ _ _ => Sys2Proof.roundTrip_line (c := c) rfl (Sys2Proof.isWord_of rfl) (by decide)
    (List.forall_mem_singleton.2 (isOperand_showString p)) rfl
    (by simp only [oneOperand, orReject, parseStringOperand, parseString_showString])

theorem Sys2Proof.Laws.RoundTrip.exchange (d : Dialect) : Sys2Proof.Laws.RoundTrip.Statement (.exchange d) :=
  fun c _ _ _ _ => Sys2Proof.roundTrip_line (c := c) rfl (Sys2Proof.isWord_of rfl) (by decide)
    (List.forall_mem_singleton.2 (isOperand_showDialect d)) rfl
    (by simp only [oneOperand, orReject, parseDialectOperand, parseDialect_showDialect])

theorem Sys2Proof.Laws.RoundTrip.crcOver (s : Bytes) : Sys2Proof.Laws.RoundTrip.Statement (.crcOver s) :=
  fun c _ _ _ _ => Sys2Proof.roundTrip_line (c := c) rfl (Sys2Proof.isWord_of rfl) (by decide)
    (List.forall_mem_singleton.2 (isOperand_showString s)) rfl
    (by simp only [oneOperand, orReject, parseStringOperand, parseString_showString])

/-! ### Wire rows -/

theorem Sys2Proof.Laws.RoundTrip.frameShort (len : Byte) : Sys2Proof.Laws.RoundTrip.Statement (.frameShort len) :=
  fun _ _ _ _ _ => rfl

theorem Sys2Proof.Laws.RoundTrip.frameLong (b : Byte) : Sys2Proof.Laws.RoundTrip.Statement (.frameLong b) :=
  fun _ _ _ _ _ => rfl

theorem Sys2Proof.Laws.RoundTrip.startInvalid (start b : Byte) :
    Sys2Proof.Laws.RoundTrip.Statement (.startInvalid start b) := by
  intro c _ _ hwf _
  simp only [Instr.wf, Machine.isInvalidStart, Bool.and_eq_true, bne_iff_ne, ne_eq] at hwf
  simp [Sys2Proof.encode, Sys2Proof.decode, decodeStart, startShort, startLong, hwf]

theorem Sys2Proof.Laws.RoundTrip.endMark : Sys2Proof.Laws.RoundTrip.Statement .endMark := fun _ _ _ _ _ => rfl

/-! ### Payload rows -/

theorem Sys2Proof.Laws.RoundTrip.cmdFwVersion (fields : Bytes) : Sys2Proof.Laws.RoundTrip.Statement (.cmdFwVersion fields) := by
  intro c _ _ _ _
  simp [Sys2Proof.encode, Sys2Proof.decode, decodePayload, dispatch]

theorem Sys2Proof.Laws.RoundTrip.cmdGetValuesSetupSelective (fields : Bytes) : Sys2Proof.Laws.RoundTrip.Statement (.cmdGetValuesSetupSelective fields) := by
  intro c _ hd _ _
  simp only [Config.idsOf, List.nodup_cons, List.mem_cons, List.not_mem_nil, or_false, not_or] at hd
  simp [Sys2Proof.encode, Sys2Proof.decode, decodePayload, dispatch, hd, Ne.symm]

theorem Sys2Proof.Laws.RoundTrip.cmdGetDecodedPpm (fields : Bytes) : Sys2Proof.Laws.RoundTrip.Statement (.cmdGetDecodedPpm fields) := by
  intro c _ hd _ _
  simp only [Config.idsOf, List.nodup_cons, List.mem_cons, List.not_mem_nil, or_false, not_or] at hd
  simp [Sys2Proof.encode, Sys2Proof.decode, decodePayload, dispatch, hd, Ne.symm]

theorem Sys2Proof.Laws.RoundTrip.cmdForwardToPeer (fields : Bytes) : Sys2Proof.Laws.RoundTrip.Statement (.cmdForwardToPeer fields) := by
  intro c _ hd _ _
  simp only [Config.idsOf, List.nodup_cons, List.mem_cons, List.not_mem_nil, or_false, not_or] at hd
  simp [Sys2Proof.encode, Sys2Proof.decode, decodePayload, dispatch, decodeUndispatched, hd, Ne.symm]

theorem Sys2Proof.Laws.RoundTrip.cmdSetChuckData (fields : Bytes) : Sys2Proof.Laws.RoundTrip.Statement (.cmdSetChuckData fields) := by
  intro c _ hd _ _
  simp only [Config.idsOf, List.nodup_cons, List.mem_cons, List.not_mem_nil, or_false, not_or] at hd
  simp [Sys2Proof.encode, Sys2Proof.decode, decodePayload, dispatch, decodeUndispatched, hd, Ne.symm]

theorem Sys2Proof.Laws.RoundTrip.cmdSetCurrent (fields : Bytes) : Sys2Proof.Laws.RoundTrip.Statement (.cmdSetCurrent fields) := by
  intro c _ hd _ _
  simp only [Config.idsOf, List.nodup_cons, List.mem_cons, List.not_mem_nil, or_false, not_or] at hd
  simp [Sys2Proof.encode, Sys2Proof.decode, decodePayload, dispatch, decodeUndispatched, hd, Ne.symm]

theorem Sys2Proof.Laws.RoundTrip.cmdSetCurrentBrake (fields : Bytes) : Sys2Proof.Laws.RoundTrip.Statement (.cmdSetCurrentBrake fields) := by
  intro c _ hd _ _
  simp only [Config.idsOf, List.nodup_cons, List.mem_cons, List.not_mem_nil, or_false, not_or] at hd
  simp [Sys2Proof.encode, Sys2Proof.decode, decodePayload, dispatch, decodeUndispatched, hd, Ne.symm]

theorem Sys2Proof.Laws.RoundTrip.cmdSetRpm (fields : Bytes) : Sys2Proof.Laws.RoundTrip.Statement (.cmdSetRpm fields) := by
  intro c _ hd _ _
  simp only [Config.idsOf, List.nodup_cons, List.mem_cons, List.not_mem_nil, or_false, not_or] at hd
  simp [Sys2Proof.encode, Sys2Proof.decode, decodePayload, dispatch, decodeUndispatched, hd, Ne.symm]

theorem Sys2Proof.Laws.RoundTrip.cmdSetDuty (fields : Bytes) : Sys2Proof.Laws.RoundTrip.Statement (.cmdSetDuty fields) := by
  intro c _ hd _ _
  simp only [Config.idsOf, List.nodup_cons, List.mem_cons, List.not_mem_nil, or_false, not_or] at hd
  simp [Sys2Proof.encode, Sys2Proof.decode, decodePayload, dispatch, decodeUndispatched, hd, Ne.symm]

theorem Sys2Proof.Laws.RoundTrip.cmdBmsGetValues (fields : Bytes) :
    Sys2Proof.Laws.RoundTrip.Statement (.cmdBmsGetValues fields) := by
  intro c _ _ _ _
  simp [Sys2Proof.encode, Sys2Proof.decode, decodePayload, dispatch]

theorem Sys2Proof.Laws.RoundTrip.cmdBmsGetBmsCells (fields : Bytes) :
    Sys2Proof.Laws.RoundTrip.Statement (.cmdBmsGetBmsCells fields) := by
  intro c hc _ _ _
  simp only [Config.valid, Bool.and_eq_true, bne_iff_ne, ne_eq] at hc
  simp [Sys2Proof.encode, Sys2Proof.decode, decodePayload, dispatch, Ne.symm hc.2]

theorem Sys2Proof.Laws.RoundTrip.cmdUnknown (d : Dialect) (p : Bytes) :
    Sys2Proof.Laws.RoundTrip.Statement (.cmdUnknown d p) := by
  intro c _ _ _ hu
  have hu := hu d p rfl
  cases p with
  | nil => rfl
  | cons id f =>
    have hid := hu id rfl
    cases d <;>
    · simp only [Config.idsOf, List.mem_cons, List.not_mem_nil, or_false, not_or] at hid
      simp [Sys2Proof.encode, Sys2Proof.decode, decodePayload, dispatch, decodeUndispatched, hid]

end
end

