-- ==== Sys2Proof/Tests/Slice0.lean ====
section
/-! SUPPORT. Tests of the model. Every expected value is the spec's own: the encodings of 30_encoding.md and the
vectors of 95_test_vectors.md, named in each docstring. The witnesses at the end show, for each statement with
hypotheses, states and operands that meet them. -/

set_option Elab.async false

namespace Sys2Proof.Tests

open Sys2Proof.Machine Sys2Proof.Claims

/-- A line of text from its characters. -/
def line (cs : List Char) : Bytes := cs.map fun c => BitVec.ofNat 8 c.toNat

/-- The outcome is a next state that passes the test. -/
def nextIs (o : Out) (test : State → Bool) : Bool :=
  match o with
  | .next t => test t
  | _ => false

theorem nextIs_exists {o : Out} {test : State → Bool} (h : nextIs o test = true) :
    ∃ t, o = .next t ∧ test t = true := by
  cases o with
  | next t => exact ⟨t, rfl, h⟩
  | fault r => cases h
  | refused r => cases h

/-- A ready block with `pb` loaded and the cursor at `cur`. -/
def buf (pb : Bytes) (cur : Nat) : State := { State.reset with pb := Memory.ofBytes pb, cur := cur }

/-- An attempt that has just started, with bytes in INQ and the byte steps of all of them scheduled. -/
def attempt (inq : Bytes) : State :=
  { State.reset with rxState := .idle, inq := inq, schedule := List.replicate inq.length .byteFirst }

/-- A candidate with start byte `a`; its second byte is next in INQ. -/
def header (a : Byte) (inq : Bytes) : State :=
  { attempt inq with rxState := .header, rb := Memory.ofBytes [a], rxCount := 1 }

/-- A short frame of which `held` has been received; `expect` bytes make it whole. -/
def body (held : Bytes) (expect : Nat) (inq : Bytes) : State :=
  { attempt inq with rxState := .body, rb := Memory.ofBytes held, rxCount := held.length, rxExpect := some expect }

/-- A block that faulted with `r`. -/
def faulted (r : FaultReason) : State := { State.reset with fault := some r }

/-- The payload G of 95_test_vectors.md section 2.5. -/
def payloadG : Bytes :=
  [0x33, 0x00, 0x00, 0x00, 0x00, 0x01, 0x2C, 0x00, 0x00, 0x03, 0xE8, 0xFF, 0xFF, 0xFF, 0x9C,
   0x00, 0x00, 0x0B, 0xB8, 0x01, 0xF4, 0x00, 0x00, 0x27, 0x10, 0x00, 0x00, 0x00, 0x00, 0x03]

/-- The frame F of 95_test_vectors.md section 2.4. -/
def frameF : Bytes := [0x02, 0x03, 0x00, 0x05, 0x02, 0xDF, 0xB7, 0x03]

/-! ## Well-formedness: an ill-formed term for each check, which the check refuses -/

/-- 2.2.1: "FC_LOAD of 257 bytes is refused". -/
theorem test_wf_refuses_fcLoad : Instr.wf (.fcLoad (List.replicate 257 0x00)) = false := by decide +kernel

/-- R135: 0 to 256. -/
theorem test_wf_refuses_fcSkip_negative : Instr.wf (.fcSkip (-1)) = false := by decide

/-- R135. -/
theorem test_wf_refuses_fcSkip : Instr.wf (.fcSkip 257) = false := by decide

/-- R136. -/
theorem test_wf_refuses_appendUint8 : Instr.wf (.appendUint8 256) = false := by decide

/-- R140. -/
theorem test_wf_refuses_appendInt16 : Instr.wf (.appendInt16 32768) = false := by decide

/-- R141. -/
theorem test_wf_refuses_appendUint16 : Instr.wf (.appendUint16 (-1)) = false := by decide

/-- R142. -/
theorem test_wf_refuses_appendInt32 : Instr.wf (.appendInt32 (-2147483649)) = false := by decide

/-- R143. -/
theorem test_wf_refuses_appendUint32 : Instr.wf (.appendUint32 4294967296) = false := by decide

/-- R148, D9: a scale is above zero. -/
theorem test_wf_refuses_appendFloat16 : Instr.wf (.appendFloat16 (.finite 1) 0) = false := by decide +kernel

/-- R148, D9. -/
theorem test_wf_refuses_appendFloat32 : Instr.wf (.appendFloat32 .nan (-1)) = false := by decide +kernel

/-- R151. -/
theorem test_wf_refuses_getFloat16 : Instr.wf (.getFloat16 0) = false := by decide +kernel

/-- R152. -/
theorem test_wf_refuses_getFloat32 : Instr.wf (.getFloat32 (-10)) = false := by decide +kernel

/-- R230: at most 255 bytes. -/
theorem test_wf_refuses_decode : Instr.wf (.decode .mc (List.replicate 256 0x00)) = false := by decide +kernel

/-- R250. -/
theorem test_wf_refuses_setNunchuck_x : Instr.wf (.setNunchuck 256 0 false false) = false := by decide

/-- R250. -/
theorem test_wf_refuses_setNunchuck_y : Instr.wf (.setNunchuck 0 (-1) false false) = false := by decide

/-- R102: at most 255 bytes. -/
theorem test_wf_refuses_send : Instr.wf (.send (List.replicate 256 0x00)) = false := by decide +kernel

/-- R85: 0x02 is a short frame. -/
theorem test_wf_refuses_startInvalid : Instr.wf (.startInvalid 0x02 0x00) = false := by decide

/-- R230: with its id the payload is 256 bytes. -/
theorem test_wf_refuses_cmdFwVersion : Instr.wf (.cmdFwVersion (List.replicate 255 0x00)) = false := by decide +kernel

/-- R230. -/
theorem test_wf_refuses_cmdUnknown : Instr.wf (.cmdUnknown .bms (List.replicate 256 0x00)) = false := by decide +kernel

/-- R230: the rows of the payloads that carry fields all have FW_VERSION's bound. -/
theorem test_wf_refuses_long_fields :
    let f : Bytes := List.replicate 255 0x00
    ([.cmdGetValuesSetupSelective f, .cmdGetDecodedPpm f, .cmdBmsGetValues f, .cmdBmsGetBmsCells f, .cmdForwardToPeer f,
      .cmdSetChuckData f, .cmdSetCurrent f, .cmdSetCurrentBrake f, .cmdSetRpm f, .cmdSetDuty f] : List Instr).any
        Instr.wf = false := by decide +kernel

/-- A well-formed term at each bound of the checks passes. -/
theorem test_wf_accepts_bounds :
    ([.fcLoad (List.replicate 256 0x00), .fcSkip 0, .fcSkip 256, .appendUint8 0, .appendUint8 255, .appendInt16 (-32768),
      .appendInt16 32767, .appendUint16 65535, .appendInt32 (-2147483648), .appendInt32 2147483647,
      .appendUint32 4294967295, .decode .bms (List.replicate 255 0x00), .setNunchuck 255 0 true false,
      .send (List.replicate 255 0x00), .startInvalid 0x04 0x02, .cmdSetDuty (List.replicate 254 0x00)] : List Instr).all
        Instr.wf = true := by decide +kernel

/-! ## Decoding: words written out from R101, R85, R199 and R88 -/

/-- R101: `CRC_INIT`; `CRC_UPDATE 3F`; `CRC_READ`; `CRC16 [31 32]`. -/
theorem test_decode_crc :
    decodeLine (line ['C', 'R', 'C', '_', 'I', 'N', 'I', 'T'])
      = .ok (.op (.crcInit))
    ∧ decodeLine (line ['C', 'R', 'C', '_', 'U', 'P', 'D', 'A', 'T', 'E', ' ', '3', 'F'])
      = .ok (.op (.crcUpdate 0x3F))
    ∧ decodeLine (line ['C', 'R', 'C', '_', 'R', 'E', 'A', 'D'])
      = .ok (.op (.crcRead))
    ∧ decodeLine (line ['C', 'R', 'C', '1', '6', ' ', '[', '3', '1', ' ', '3', '2', ']'])
      = .ok (.op (.crc16 [0x31, 0x32])) := by decide

/-- R101: `FC_CLEAR`; `FC_LOAD [06 0xD4]`; `FC_SKIP 254   ; CUR = 254`; `APPEND_UINT8 00        ; P1`; `GET_UINT8`; `APPEND_BOOL true`; `GET_BOOL`. -/
theorem test_decode_buffer :
    decodeLine (line ['F', 'C', '_', 'C', 'L', 'E', 'A', 'R'])
      = .ok (.op (.fcClear))
    ∧ decodeLine (line ['F', 'C', '_', 'L', 'O', 'A', 'D', ' ', '[', '0', '6', ' ', '0', 'x', 'D', '4', ']'])
      = .ok (.op (.fcLoad [0x06, 0xD4]))
    ∧ decodeLine (line ['F', 'C', '_', 'S', 'K', 'I', 'P', ' ', '2', '5', '4', ' ', ' ', ' ', ';', ' ', 'C', 'U', 'R', ' ', '=', ' ', '2', '5', '4'])
      = .ok (.op (.fcSkip 254))
    ∧ decodeLine (line ['A', 'P', 'P', 'E', 'N', 'D', '_', 'U', 'I', 'N', 'T', '8', ' ', '0', '0', ' ', ' ', ' ', ' ', ' ', ' ', ' ', ' ', ';', ' ', 'P', '1'])
      = .ok (.op (.appendUint8 0))
    ∧ decodeLine (line ['G', 'E', 'T', '_', 'U', 'I', 'N', 'T', '8'])
      = .ok (.op (.getUint8))
    ∧ decodeLine (line ['A', 'P', 'P', 'E', 'N', 'D', '_', 'B', 'O', 'O', 'L', ' ', 't', 'r', 'u', 'e'])
      = .ok (.op (.appendBool true))
    ∧ decodeLine (line ['G', 'E', 'T', '_', 'B', 'O', 'O', 'L'])
      = .ok (.op (.getBool)) := by decide

/-- R101: `APPEND_INT16 -32768`; `APPEND_UINT16 0xABCD`; `APPEND_INT32 +1000`; `APPEND_UINT32 0x11223344`. -/
theorem test_decode_append_integers :
    decodeLine (line ['A', 'P', 'P', 'E', 'N', 'D', '_', 'I', 'N', 'T', '1', '6', ' ', '-', '3', '2', '7', '6', '8'])
      = .ok (.op (.appendInt16 (-32768)))
    ∧ decodeLine (line ['A', 'P', 'P', 'E', 'N', 'D', '_', 'U', 'I', 'N', 'T', '1', '6', ' ', '0', 'x', 'A', 'B', 'C', 'D'])
      = .ok (.op (.appendUint16 0xABCD))
    ∧ decodeLine (line ['A', 'P', 'P', 'E', 'N', 'D', '_', 'I', 'N', 'T', '3', '2', ' ', '+', '1', '0', '0', '0'])
      = .ok (.op (.appendInt32 1000))
    ∧ decodeLine (line ['A', 'P', 'P', 'E', 'N', 'D', '_', 'U', 'I', 'N', 'T', '3', '2', ' ', '0', 'x', '1', '1', '2', '2', '3', '3', '4', '4'])
      = .ok (.op (.appendUint32 0x11223344)) := by decide

/-- R101: `GET_INT16`; `GET_UINT16`; `GET_INT32`; `GET_UINT32`. -/
theorem test_decode_get_integers :
    decodeLine (line ['G', 'E', 'T', '_', 'I', 'N', 'T', '1', '6'])
      = .ok (.op (.getInt16))
    ∧ decodeLine (line ['G', 'E', 'T', '_', 'U', 'I', 'N', 'T', '1', '6'])
      = .ok (.op (.getUint16))
    ∧ decodeLine (line ['G', 'E', 'T', '_', 'I', 'N', 'T', '3', '2'])
      = .ok (.op (.getInt32))
    ∧ decodeLine (line ['G', 'E', 'T', '_', 'U', 'I', 'N', 'T', '3', '2'])
      = .ok (.op (.getUint32)) := by decide

/-- R101: `APPEND_FLOAT16 -12.34, 10`; `APPEND_FLOAT32 12.5, 1000`; `GET_FLOAT16 10`; `GET_FLOAT32 10000`. -/
theorem test_decode_scaled :
    decodeLine (line ['A', 'P', 'P', 'E', 'N', 'D', '_', 'F', 'L', 'O', 'A', 'T', '1', '6', ' ', '-', '1', '2', '.', '3', '4', ',', ' ', '1', '0'])
      = .ok (.op (.appendFloat16 (.finite (-1234 / 100)) 10))
    ∧ decodeLine (line ['A', 'P', 'P', 'E', 'N', 'D', '_', 'F', 'L', 'O', 'A', 'T', '3', '2', ' ', '1', '2', '.', '5', ',', ' ', '1', '0', '0', '0'])
      = .ok (.op (.appendFloat32 (.finite (25 / 2)) 1000))
    ∧ decodeLine (line ['G', 'E', 'T', '_', 'F', 'L', 'O', 'A', 'T', '1', '6', ' ', '1', '0'])
      = .ok (.op (.getFloat16 10))
    ∧ decodeLine (line ['G', 'E', 'T', '_', 'F', 'L', 'O', 'A', 'T', '3', '2', ' ', '1', '0', '0', '0', '0'])
      = .ok (.op (.getFloat32 10000)) := by decide +kernel

/-- The model's spelling of a bit pattern (assumption 4): `APPEND_FLOAT16 #5, 10`. -/
theorem test_decode_pattern :
    decodeLine (line ['A', 'P', 'P', 'E', 'N', 'D', '_', 'F', 'L', 'O', 'A', 'T', '1', '6', ' ', '#', '5', ',', ' ', '1', '0'])
      = .ok (.op (.appendFloat16 (.pattern 5) 10)) := by decide +kernel

/-- R101: `PACK                   ; result 6`; `UNPACK []`; `RECEIVE`; `DECODE MC, [99 01 02 03]`. -/
theorem test_decode_frame_and_decode :
    decodeLine (line ['P', 'A', 'C', 'K', ' ', ' ', ' ', ' ', ' ', ' ', ' ', ' ', ' ', ' ', ' ', ' ', ' ', ' ', ' ', ' ', ' ', ' ', ' ', ';', ' ', 'r', 'e', 's', 'u', 'l', 't', ' ', '6'])
      = .ok (.op (.pack))
    ∧ decodeLine (line ['U', 'N', 'P', 'A', 'C', 'K', ' ', '[', ']'])
      = .ok (.op (.unpack []))
    ∧ decodeLine (line ['R', 'E', 'C', 'E', 'I', 'V', 'E'])
      = .ok (.op (.receive))
    ∧ decodeLine (line ['D', 'E', 'C', 'O', 'D', 'E', ' ', 'M', 'C', ',', ' ', '[', '9', '9', ' ', '0', '1', ' ', '0', '2', ' ', '0', '3', ']'])
      = .ok (.op (.decode .mc [0x99, 0x01, 0x02, 0x03])) := by decide

/-- R101: `SET_NUNCHUCK 127, 200, false, true`; `RESET`; `SEND [00]`; `EXCHANGE BMS`; `CRC_OVER [31 FF]`. -/
theorem test_decode_control_and_pseudo :
    decodeLine (line ['S', 'E', 'T', '_', 'N', 'U', 'N', 'C', 'H', 'U', 'C', 'K', ' ', '1', '2', '7', ',', ' ', '2', '0', '0', ',', ' ', 'f', 'a', 'l', 's', 'e', ',', ' ', 't', 'r', 'u', 'e'])
      = .ok (.op (.setNunchuck 127 200 false true))
    ∧ decodeLine (line ['R', 'E', 'S', 'E', 'T'])
      = .ok (.op (.reset))
    ∧ decodeLine (line ['S', 'E', 'N', 'D', ' ', '[', '0', '0', ']'])
      = .ok (.op (.send [0x00]))
    ∧ decodeLine (line ['E', 'X', 'C', 'H', 'A', 'N', 'G', 'E', ' ', 'B', 'M', 'S'])
      = .ok (.op (.exchange .bms))
    ∧ decodeLine (line ['C', 'R', 'C', '_', 'O', 'V', 'E', 'R', ' ', '[', '3', '1', ' ', 'F', 'F', ']'])
      = .ok (.op (.crcOver [0x31, 0xFF])) := by decide

/-- R85, R199: a frame's first two bytes, and the byte at its end. -/
theorem test_decode_wire :
    decodeStart 0x02 0x05 = .frameShort 0x05 ∧ decodeStart 0x03 0x00 = .frameLong 0x00
    ∧ decodeStart 0xAA 0x55 = .startInvalid 0xAA 0x55 ∧ decodeStart 0x04 0x02 = .startInvalid 0x04 0x02
    ∧ decodeEnd 0x03 = .ok .endMark ∧ decodeEnd 0x02 = .error .notEndMark := by decide

/-- R88, R231, R234, R239, R249 under TC: one payload of each row. -/
theorem test_decode_payloads :
    let d := decodePayload Config.reference
    d .mc [0x00, 0x05, 0x02] = .cmdFwVersion [0x05, 0x02] ∧ d .mc [0x33] = .cmdGetValuesSetupSelective []
    ∧ d .mc [0x1F, 0x00] = .cmdGetDecodedPpm [0x00] ∧ d .bms [0xB0] = .cmdBmsGetValues []
    ∧ d .bms [0xB1, 0x02] = .cmdBmsGetBmsCells [0x02] ∧ d .mc [0x22] = .cmdForwardToPeer []
    ∧ d .mc [0x23] = .cmdSetChuckData [] ∧ d .mc [0x06, 0x00, 0x00, 0x30, 0xD4] = .cmdSetCurrent [0x00, 0x00, 0x30, 0xD4]
    ∧ d .mc [0x07] = .cmdSetCurrentBrake [] ∧ d .mc [0x08] = .cmdSetRpm [] ∧ d .mc [0x05] = .cmdSetDuty []
    ∧ d .mc [0x99] = .cmdUnknown .mc [0x99] ∧ d .bms [0x00, 0x05] = .cmdUnknown .bms [0x00, 0x05]
    ∧ d .mc [] = .cmdUnknown .mc [] := by decide

/-- R101: a delivery line, a joined one (program P8), a comment, and lines rejected by name. -/
theorem test_decode_other_lines :
    decodeLine (line ['I', 'N', 'Q', ' ', '<', '-', ' ', '[', '0', '2', ' ', '0', '3', ']']) = .ok (.deliver [0x02, 0x03])
    ∧ decodeLine (line ['I', 'N', 'Q', ' ', '<', '-', ' ', '[', '0', '2', ']', ' ', '+', '+', ' ', '[', '0', '3', ']']) = .ok (.deliver [0x02, 0x03])
    ∧ decodeLine (line [';', ' ', 'n', 'o', 't', 'e']) = .ok .blank
    ∧ decodeLine (line ['N', 'O', 'P']) = .error .unknownMnemonic
    ∧ decodeLine (line ['P', 'A', 'C', 'K', ' ', '1']) = .error .operandCount
    ∧ decodeLine (line ['C', 'R', 'C', '_', 'U', 'P', 'D', 'A', 'T', 'E', ' ', '3']) = .error .badByte
    ∧ decodeLine (line ['D', 'E', 'C', 'O', 'D', 'E', ' ', 'X', 'X', ',', ' ', '[', ']']) = .error .badDialect := by decide

/-- The table's words: the two start bytes, and a line laid out from its first character (`PACK`). -/
theorem test_decode_table_words :
    decodeTableWord 8 0x02 = some (.frameShort 0x00) ∧ decodeTableWord 8 0x03 = some (.frameLong 0x00)
    ∧ decodeTableWord 32 0x4B434150 = some .pack := by decide

/-- The first step after reset runs the placed word: PACK of the empty payload (section 2.3, first row). -/
theorem test_fetch_line : nextIs (step (State.reset.withFetchWord 32 0x4B434150)) (fun t =>
    t.outq == [0x02, 0x00, 0x00, 0x00, 0x03]) = true := by decide

/-- The first step after reset classifies the placed start byte: RX_EXPECT = 0 + 5 (V1.2). -/
theorem test_fetch_start : nextIs (step (State.reset.withFetchWord 8 0x02)) (fun t =>
    decide (t.rxState = .body) && t.rxExpect == some 5) = true := by decide

/-! ## CRC (section 2.1) -/

/-- CRC_INIT gives 0x0000 from any value. -/
theorem test_crc_init :
    nextIs (exec .crcInit { State.reset with crcAcc := 0xFFFF }) (fun t => t.crcAcc == 0x0000) = true := by decide

/-- CRC_ACC = 0xFFFF, then CRC_UPDATE 00, gives 0xE1F0. -/
theorem test_crc_update :
    nextIs (exec (.crcUpdate 0x00) { State.reset with crcAcc := 0xFFFF }) (fun t => t.crcAcc == 0xE1F0) = true := by decide

/-- CRC_UPDATE 02 after 0x1021 gives 0x1373. -/
theorem test_crc_update_second :
    nextIs (exec (.crcUpdate 0x02) { State.reset with crcAcc := 0x1021 }) (fun t => t.crcAcc == 0x1373) = true := by decide

/-- CRC_READ answers CRC_ACC and keeps it. -/
theorem test_crc_read :
    nextIs (exec .crcRead { State.reset with crcAcc := 0x31C3 })
      (fun t => t.result == .crc 0x31C3 && t.crcAcc == 0x31C3) = true := by decide

/-- R118: the check value of "123456789" is 0x31C3; CRC_ACC is not used. -/
theorem test_crc16_check_value :
    nextIs (exec (.crc16 [0x31, 0x32, 0x33, 0x34, 0x35, 0x36, 0x37, 0x38, 0x39]) { State.reset with crcAcc := 0x1234 })
      (fun t => t.result == .crc 0x31C3 && t.crcAcc == 0x1234) = true := by decide +kernel

/-- crc16([00 05 02]) = 0xDFB7, and the residue with it appended is 0x0000. -/
theorem test_crc16_frame :
    crc16 [0x00, 0x05, 0x02] = 0xDFB7 ∧ crc16 [0x00, 0x05, 0x02, 0xDF, 0xB7] = 0x0000 := by decide +kernel

/-- P4: CRC_OVER is CRC_INIT, the updates and CRC_READ (R102); the updates' last one leaves 0x31C3 (section 2.1). -/
theorem test_crc_over :
    nextIs (exec (.crcOver [0x31, 0x32]) { State.reset with crcAcc := 0xFFFF })
      (fun t => t.crcAcc == 0x0000 && t.host == [.op (.crcUpdate 0x31), .op (.crcUpdate 0x32), .op .crcRead]) = true := by decide

/-- An operation of an expansion runs in a step of its own: the last CRC_UPDATE of P4. -/
theorem test_crc_over_next_item :
    nextIs (step { State.reset with crcAcc := crc16 [0x31, 0x32, 0x33, 0x34, 0x35, 0x36, 0x37, 0x38], host := [.op (.crcUpdate 0x39), .op .crcRead] })
      (fun t => t.crcAcc == 0x31C3 && t.host == [.op .crcRead]) = true := by decide +kernel

/-! ## Field codec (section 2.2) -/

/-- FC_CLEAR empties PB and resets CUR. -/
theorem test_fc_clear :
    nextIs (exec .fcClear (buf [0x01] 1)) (fun t => t.pb.read 0 == none && t.cur == 0) = true := by decide

/-- FC_LOAD [01 02]: PB[0], PB[1] and the first cell after them. -/
theorem test_fc_load :
    nextIs (exec (.fcLoad [0x01, 0x02]) (buf [0x07, 0x08, 0x09] 3))
      (fun t => t.pb.read 0 == some 0x01 && t.pb.read 1 == some 0x02 && t.pb.read 2 == none && t.cur == 0) = true := by decide

/-- CUR = 252, FC_SKIP 4 gives CUR = 256. -/
theorem test_fc_skip :
    nextIs (exec (.fcSkip 4) (buf [] 252)) (fun t => t.cur == 256 && t.fault == none) = true := by decide

/-- CUR = 253, FC_SKIP 4 raises Fault(Overrun) with CUR still 253. -/
theorem test_fc_skip_overrun :
    nextIs (exec (.fcSkip 4) (buf [] 253)) (fun t => t.cur == 253 && t.fault == some .overrun) = true := by decide

/-- CUR = 255, APPEND_UINT8 7: PB[255] = 07, CUR = 256. -/
theorem test_append_uint8 :
    nextIs (exec (.appendUint8 7) (buf [] 255)) (fun t => t.pb.read 255 == some 0x07 && t.cur == 256) = true := by decide

/-- CUR = 256, APPEND_UINT8 0: Fault(Overrun), PB and CUR unchanged. -/
theorem test_append_uint8_overrun :
    nextIs (exec (.appendUint8 0) (buf [0x09] 256))
      (fun t => t.fault == some .overrun && t.cur == 256 && t.pb == [(0, 0x09)]) = true := by decide

/-- GET_UINT8 on [FF] gives 255. -/
theorem test_get_uint8 :
    nextIs (exec .getUint8 (buf [0xFF] 0)) (fun t => t.result == .unsigned 255 && t.cur == 1) = true := by decide

/-- GET_UINT8 after FC_CLEAR raises Fault(Unwritten). -/
theorem test_get_uint8_unwritten :
    nextIs (exec .getUint8 (buf [] 0)) (fun t => t.fault == some .unwritten && t.cur == 0) = true := by decide

/-- APPEND_BOOL true writes 01, false 00. -/
theorem test_append_bool :
    nextIs (exec (.appendBool true) (buf [] 0)) (fun t => t.pb == [(0, 0x01)]) = true
    ∧ nextIs (exec (.appendBool false) (buf [] 0)) (fun t => t.pb == [(0, 0x00)]) = true := by decide

/-- GET_BOOL on [80] gives true (D12), on [00] false. -/
theorem test_get_bool :
    nextIs (exec .getBool (buf [0x80] 0)) (fun t => t.result == .bool true) = true
    ∧ nextIs (exec .getBool (buf [0x00] 0)) (fun t => t.result == .bool false) = true := by decide

/-- APPEND_INT16 −2 writes [FF FE]. -/
theorem test_append_int16 :
    nextIs (exec (.appendInt16 (-2)) (buf [] 0)) (fun t => t.pb == [(0, 0xFF), (1, 0xFE)] && t.cur == 2) = true := by decide

/-- CUR = 255, APPEND_INT16 0: Fault(Overrun), nothing written. -/
theorem test_append_int16_overrun :
    nextIs (exec (.appendInt16 0) (buf [] 255)) (fun t => t.fault == some .overrun && t.pb == []) = true := by decide

/-- APPEND_UINT16 0xABCD writes [AB CD]. -/
theorem test_append_uint16 :
    nextIs (exec (.appendUint16 0xABCD) (buf [] 0)) (fun t => t.pb == [(0, 0xAB), (1, 0xCD)]) = true := by decide

/-- APPEND_INT32 −2^31 writes [80 00 00 00]. -/
theorem test_append_int32 :
    nextIs (exec (.appendInt32 (-2147483648)) (buf [] 252))
      (fun t => t.pb == [(252, 0x80), (253, 0x00), (254, 0x00), (255, 0x00)] && t.cur == 256) = true := by decide

/-- APPEND_UINT32 0x11223344 writes [11 22 33 44]. -/
theorem test_append_uint32 :
    nextIs (exec (.appendUint32 0x11223344) (buf [] 0))
      (fun t => t.pb == [(0, 0x11), (1, 0x22), (2, 0x33), (3, 0x44)]) = true := by decide

/-- GET_INT16 on [80 00] gives −32768. -/
theorem test_get_int16 :
    nextIs (exec .getInt16 (buf [0x80, 0x00] 0)) (fun t => t.result == .signed (-32768) && t.cur == 2) = true := by decide

/-- CUR = 255, PB[255] = none, GET_INT16: Fault(Overrun), the bound check comes first. -/
theorem test_get_int16_bound_first :
    nextIs (exec .getInt16 (buf [] 255)) (fun t => t.fault == some .overrun) = true := by decide

/-- GET_UINT16 on [FF FF] gives 65535. -/
theorem test_get_uint16 :
    nextIs (exec .getUint16 (buf [0xFF, 0xFF] 0)) (fun t => t.result == .unsigned 65535) = true := by decide

/-- Mixed width (R64): GET_UINT16 at CUR = 2 of [11 22 33 44] gives 0x3344. -/
theorem test_get_uint16_mixed :
    nextIs (exec .getUint16 (buf [0x11, 0x22, 0x33, 0x44] 2)) (fun t => t.result == .unsigned 0x3344 && t.cur == 4) = true := by decide

/-- GET_INT32 on [FF FF FC 18] gives −1000. -/
theorem test_get_int32 :
    nextIs (exec .getInt32 (buf [0xFF, 0xFF, 0xFC, 0x18] 0)) (fun t => t.result == .signed (-1000)) = true := by decide

/-- Mixed width: the bytes [11 22 33 44] read as one GET_INT32 give 287454020. -/
theorem test_get_int32_mixed :
    nextIs (exec .getInt32 (buf [0x11, 0x22, 0x33, 0x44] 0)) (fun t => t.result == .signed 287454020) = true := by decide

/-- GET_UINT32 on [FF FF FF FF] gives 4294967295. -/
theorem test_get_uint32 :
    nextIs (exec .getUint32 (buf [0xFF, 0xFF, 0xFF, 0xFF] 0)) (fun t => t.result == .unsigned 4294967295) = true := by decide

/-- V1.5: −12.34 with scale 10 is raw −123, [FF 85]. -/
theorem test_append_float16 :
    nextIs (exec (.appendFloat16 (.finite (-1234 / 100)) 10) (buf [] 0)) (fun t => t.pb == [(0, 0xFF), (1, 0x85)]) = true := by decide +kernel

/-- Ties go away from zero: 2.5 gives 3 and −2.5 gives −3 with scale 1. -/
theorem test_append_float16_ties :
    nextIs (exec (.appendFloat16 (.finite (5 / 2)) 1) (buf [] 0)) (fun t => t.pb == [(0, 0x00), (1, 0x03)]) = true
    ∧ nextIs (exec (.appendFloat16 (.finite (-5 / 2)) 1) (buf [] 0)) (fun t => t.pb == [(0, 0xFF), (1, 0xFD)]) = true := by decide +kernel

/-- Section 2.2.3: NaN at CUR = 255 is Overrun, at 0 NotFinite; 3276.75 with scale 10 is Range; +∞ NotFinite. -/
theorem test_append_float_faults :
    nextIs (exec (.appendFloat16 .nan 10) (buf [] 255)) (fun t => t.fault == some .overrun) = true
    ∧ nextIs (exec (.appendFloat16 .nan 10) (buf [] 0)) (fun t => t.fault == some .notFinite) = true
    ∧ nextIs (exec (.appendFloat16 (.finite (327675 / 100)) 10) (buf [] 0)) (fun t => t.fault == some .range) = true
    ∧ nextIs (exec (.appendFloat32 .posInf 100) (buf [] 0)) (fun t => t.fault == some .notFinite) = true := by decide +kernel

/-- 12.5 with scale 1000 is raw 12500, [00 00 30 D4]. -/
theorem test_append_float32 :
    nextIs (exec (.appendFloat32 (.finite (25 / 2)) 1000) (buf [] 0))
      (fun t => t.pb == [(0, 0x00), (1, 0x00), (2, 0x30), (3, 0xD4)]) = true := by decide +kernel

/-- Toward zero: −0.00005 with scale 10000 is raw 0 (to nearest it is −1). -/
theorem test_append_float32_toward_zero :
    nextIs (exec (.appendFloat32 (.finite (-5 / 100000)) 10000)
      { buf [] 0 with cfg := { Config.reference with scaleRound := .towardZero } })
      (fun t => t.pb == [(0, 0x00), (1, 0x00), (2, 0x00), (3, 0x00)]) = true := by decide +kernel

/-- GET_FLOAT16 10 on [FF 85] gives (−123, 10), value −12.3. -/
theorem test_get_float16 :
    nextIs (exec (.getFloat16 10) (buf [0xFF, 0x85] 0)) (fun t => t.result == .scaled (-123) 10) = true
    ∧ scaledValue (-123) 10 = -123 / 10 := by decide +kernel

/-- GET_FLOAT32 10000 on [00 00 30 3A] gives (12346, 10000). -/
theorem test_get_float32 :
    nextIs (exec (.getFloat32 10000) (buf [0x00, 0x00, 0x30, 0x3A] 0)) (fun t => t.result == .scaled 12346 10000) = true := by decide +kernel

/-! ## Frame codec (section 2.3) -/

/-- PACK of [00 05 02] emits F; PB and CUR stay. -/
theorem test_pack :
    nextIs (exec .pack (buf [0x00, 0x05, 0x02] 3)) (fun t => t.outq == frameF && t.result == .length 8 && t.cur == 3) = true := by decide +kernel

/-- FC_SKIP 2 then PACK is Fault(Unwritten); CUR = 256 is PayloadTooLong, which comes first. -/
theorem test_pack_corners :
    nextIs (exec .pack (buf [] 2)) (fun t => t.fault == some .unwritten && t.outq == []) = true
    ∧ nextIs (exec .pack (buf [] 256)) (fun t => t.fault == none && t.status == .payloadTooLong && t.outq == []) = true := by decide

/-- UNPACK of F gives (OK, [00 05 02]); a CRC bit flip gives ChecksumMismatch. -/
theorem test_unpack :
    unpack frameF = (.ok, some [0x00, 0x05, 0x02])
    ∧ unpack [0x02, 0x03, 0x00, 0x05, 0x02, 0xDF, 0x37, 0x03] = (.checksumMismatch, none) := by decide +kernel

/-- The length byte, the start byte, the end byte, 4 bytes, none, 261 bytes: MalformedFrame. -/
theorem test_unpack_malformed :
    ([[0x02, 0x02, 0x00, 0x05, 0x02, 0xDF, 0xB7, 0x03], [0x03, 0x03, 0x00, 0x05, 0x02, 0xDF, 0xB7, 0x03],
      [0x02, 0x03, 0x00, 0x05, 0x02, 0xDF, 0xB7, 0x02], [0x02, 0x00, 0x00, 0x03], [],
      List.replicate 261 0x00] : List Bytes).all (fun raw => unpack raw == (.malformedFrame, none)) = true := by decide +kernel

/-- P1: SEND [00] is FC_LOAD [00], then FC_SKIP 1 and PACK as the host's next items (R102). -/
theorem test_send :
    nextIs (exec (.send [0x00]) (buf [0x07, 0x08] 2)) (fun t =>
      t.cur == 0 && t.pb == [(0, 0x00)] && t.outq == [] && t.host == [.op (.fcSkip 1), .op .pack]) = true := by decide

/-- P1: its PACK emits [02 01 00 00 00 03], result 6. -/
theorem test_send_packs :
    nextIs (step { buf [0x00] 1 with host := [.op .pack] }) (fun t =>
      t.outq == [0x02, 0x01, 0x00, 0x00, 0x00, 0x03] && t.result == .length 6 && t.host == []) = true := by decide

/-! ## Frame receiver (section 2.4) -/

/-- R190: RECEIVE clears the receiver and starts in IDLE; STATUS is not written yet. -/
theorem test_receive :
    nextIs (exec .receive { State.reset with rxDiag := ⟨true, true⟩, rxCount := 8, rxResult := some (.timeout, none), status := .timeout, now := 7 })
      (fun t => decide (t.rxState = .idle) && t.rxDiag == ⟨false, false⟩ && t.rxCount == 0 && t.rxResult == none && t.t0 == 7 && t.status == .timeout) = true := by decide

/-- V1.2: a length byte of 0xFF gives RX_EXPECT = 260. -/
theorem test_frame_short :
    nextIs (exec (.frameShort 0xFF) (header 0x02 [])) (fun t => decide (t.rxState = .body) && t.rxExpect == some 260 && t.rxCount == 2) = true := by decide

/-- "long start": the bit, the event, and the hunt. -/
theorem test_frame_long :
    nextIs (exec (.frameLong 0x00) (header 0x03 [])) (fun t => t.rxDiag == ⟨false, true⟩ && t.diagq == [.unsupportedFrameType]
      && decide (t.rxState = .hunt) && t.rb == [] && t.rxCount == 0) = true := by decide

/-- R278: "If no sink is connected, events are dropped"; the bit is set all the same. -/
theorem test_no_sink :
    nextIs (exec (.frameLong 0x00) { header 0x03 [] with cfg := { Config.reference with sinkConnected := false } }) (fun t =>
      t.rxDiag == ⟨false, true⟩ && t.diagq == [] && decide (t.rxState = .hunt)) = true := by decide

/-- "one garbage byte": the re-examined 02 starts the next candidate (R196). -/
theorem test_start_invalid :
    nextIs (exec (.startInvalid 0xAA 0x02) (header 0xAA [])) (fun t => t.rxDiag == ⟨true, false⟩
      && t.diagq == [.invalidStartMarker] && decide (t.rxState = .header) && t.rb == [(0, 0x02)] && t.rxCount == 1) = true := by decide

/-- "clean": the last byte of F ends the attempt (OK, [00 05 02]). -/
theorem test_end_mark :
    nextIs (exec .endMark (body [0x02, 0x03, 0x00, 0x05, 0x02, 0xDF, 0xB7] 8 [])) (fun t =>
      t.rxResult == some (.ok, some [0x00, 0x05, 0x02]) && decide (t.rxState = .inactive) && t.status == .ok && t.rxCount == 8) = true := by decide +kernel

/-- "bad CRC": (ChecksumMismatch, none). -/
theorem test_end_mark_bad_crc :
    nextIs (exec .endMark (body [0x02, 0x01, 0x01, 0x10, 0x20] 6 [])) (fun t => t.rxResult == some (.checksumMismatch, none)) = true := by decide

/-- "bad end marker": (MalformedFrame, none), the next frame stays in INQ. -/
theorem test_bad_end_marker :
    nextIs (step (body [0x02, 0x01, 0x00, 0x00, 0x00] 6 (0x04 :: frameF))) (fun t =>
      t.rxResult == some (.malformedFrame, none) && t.inq == frameF) = true := by decide

/-- "After 3 byte steps": (Timeout, none), and the rest stays in INQ. -/
theorem test_deadline_row :
    nextIs (step { body [0x02, 0x03, 0x00] 8 [0x05, 0x02, 0xDF, 0xB7, 0x03] with now := 100, schedule := [.deadlineFirst] })
      (fun t => t.rxResult == some (.timeout, none) && t.inq == [0x05, 0x02, 0xDF, 0xB7, 0x03] && t.status == .timeout) = true := by decide

/-! ## Command dispatcher (section 2.5, under TC) -/

/-- MC, G: all eight fields. -/
theorem test_decode_setup_selective :
    nextIs (exec (.decode .mc payloadG) State.reset) (fun t => t.status == .ok && t.mcSnap ==
      ⟨none, none, some 300, some 1000, some (-100), some 3000, some 500, some 10000, some 0, some 3, none⟩) = true := by decide

/-- BMS with FW_VERSION's id, MC with a BMS id, MC [] : UnsupportedCommand. -/
theorem test_decode_dialects :
    ([.decode .bms [0x00, 0x05, 0x02], .decode .mc [0xB0, 0, 0, 0, 0, 0, 0, 0, 0, 0x4B], .decode .mc []] : List Instr).all
      (fun i => nextIs (exec i State.reset) (fun t => t == { State.reset with status := .unsupportedCommand, result := .decoded .unsupportedCommand [] })) = true := by decide

/-- MC, [00 05 02 77]: fw 5.2, the trailing byte ignored; [00 05] is PayloadTooShort. -/
theorem test_cmd_fw_version :
    nextIs (exec (.cmdFwVersion [0x05, 0x02, 0x77]) State.reset) (fun t => t.mcSnap.fwMajor == some 5 && t.mcSnap.fwMinor == some 2) = true
    ∧ nextIs (exec (.cmdFwVersion [0x05]) State.reset) (fun t => t.status == .payloadTooShort && t.mcSnap == McSnap.reset) = true := by decide

/-- G without its last byte is PayloadTooShort; scenario B gives all eight fields 0. -/
theorem test_cmd_setup_selective :
    nextIs (exec (.cmdGetValuesSetupSelective (payloadG.drop 1).dropLast) State.reset) (fun t => t.status == .payloadTooShort) = true
    ∧ nextIs (exec (.cmdGetValuesSetupSelective ([0xDE, 0xAD, 0xBE, 0xEF] ++ List.replicate 25 0x00)) State.reset) (fun t =>
      t.mcSnap == ⟨none, none, some 0, some 0, some 0, some 0, some 0, some 0, some 0, some 0, none⟩) = true := by decide

/-- MC, [1F FF FF D8 F0]: throttle −10000; [1F 00 00 13] is PayloadTooShort. -/
theorem test_cmd_decoded_ppm :
    nextIs (exec (.cmdGetDecodedPpm [0xFF, 0xFF, 0xD8, 0xF0]) State.reset) (fun t => t.mcSnap.throttle == some (-10000)) = true
    ∧ nextIs (exec (.cmdGetDecodedPpm [0x00, 0x00, 0x13]) State.reset) (fun t => t.status == .payloadTooShort) = true := by decide

/-- BMS, [B0 11 22 33 44 55 66 77 88 C8]: soc 200; one byte less is PayloadTooShort. -/
theorem test_cmd_bms_values :
    nextIs (exec (.cmdBmsGetValues [0x11, 0x22, 0x33, 0x44, 0x55, 0x66, 0x77, 0x88, 0xC8]) State.reset) (fun t => t.bmsSnap.soc == some 200) = true
    ∧ nextIs (exec (.cmdBmsGetValues (List.replicate 8 0x00)) State.reset) (fun t => t.status == .payloadTooShort) = true := by decide

/-- BMS, [B1 02 0E 10 0F A0] ++ [00]^20: count 2, cells 3600, 4000 and ten zeros. -/
theorem test_cmd_bms_cells :
    nextIs (exec (.cmdBmsGetBmsCells ([0x02, 0x0E, 0x10, 0x0F, 0xA0] ++ List.replicate 20 0x00)) State.reset) (fun t =>
      t.bmsSnap.cellCount == some 2 && t.bmsSnap.cellVoltage.toList == [some 3600, some 4000] ++ List.replicate 10 (some 0)) = true := by decide

/-- R249: each outbound id is UnsupportedCommand and writes nothing. -/
theorem test_cmd_outbound :
    ([.cmdForwardToPeer [], .cmdSetChuckData [], .cmdSetCurrent [0x00, 0x00, 0x30, 0xD4], .cmdSetCurrentBrake [], .cmdSetRpm [], .cmdSetDuty []] : List Instr).all
      (fun i => nextIs (exec i State.reset) (fun t => t.status == .unsupportedCommand && t.mcSnap == McSnap.reset)) = true := by decide

/-- MC, [99]: UnsupportedCommand. -/
theorem test_cmd_unknown :
    nextIs (exec (.cmdUnknown .mc [0x99]) State.reset) (fun t => t.status == .unsupportedCommand) = true := by decide

/-- I1, R302: a telemetry field no DECODE has written is Fault(Unwritten); MC, [00 05 02] gives fw_major 5 (R238). -/
theorem test_read_field :
    nextIs (readField .fwMajor State.reset) (fun t => t.fault == some .unwritten && t.result == .none) = true
    ∧ nextIs (exec (.decode .mc [0x00, 0x05, 0x02]) State.reset) (fun t =>
      nextIs (readField .fwMajor t) (fun u => u.result == .telemetry 5 1 && u.fault == none)) = true := by decide +kernel

/-! ## Reset and other operations (section 2.6), programs -/

/-- RESET from FAULT = Range during an attempt, with bytes in INQ. -/
theorem test_reset :
    nextIs (exec .reset { body [0x02, 0x03] 8 [0x07] with fault := some .range, pb := [(0, 0x01)], nunchuck := ⟨1, 2, true, true⟩, schedule := [] })
      (fun t => t == { State.reset with inq := [0x07] }) = true := by decide

/-- SET_NUNCHUCK 127, 200, false, true. -/
theorem test_set_nunchuck :
    nextIs (exec (.setNunchuck 127 200 false true) State.reset) (fun t => t.nunchuck == ⟨127, 200, false, true⟩ && t.status == .ok) = true := by decide

/-- EXCHANGE MC starts the attempt; the conditional DECODE is the host's next item. -/
theorem test_exchange :
    nextIs (exec (.exchange .mc) State.reset) (fun t => decide (t.rxState = .idle) && t.host == [.decodeIfOk .mc]) = true := by decide

/-- P2's EXCHANGE MC: after (OK, [00 05 02]) the DECODE writes fw 5.2; after a failure (P8) it writes nothing. -/
theorem test_exchange_decodes :
    nextIs (step { State.reset with host := [.decodeIfOk .mc], rxResult := some (.ok, some [0x00, 0x05, 0x02]) }) (fun t =>
      t.mcSnap.fwMajor == some 5 && t.mcSnap.fwMinor == some 2 && t.host == []) = true
    ∧ nextIs (step { State.reset with host := [.decodeIfOk .mc], rxResult := some (.checksumMismatch, none), status := .checksumMismatch }) (fun t =>
      t.mcSnap == McSnap.reset && t.status == .checksumMismatch) = true := by decide

/-- P6: PACK does not execute while FAULT is set, and the host goes on; RESET clears FAULT. -/
theorem test_faulted_line :
    nextIs (step { faulted .overrun with host := [.line (line ['P', 'A', 'C', 'K'])] }) (fun t => t == faulted .overrun) = true
    ∧ nextIs (step { faulted .overrun with host := [.line (line ['R', 'E', 'S', 'E', 'T'])] }) (fun t => t == State.reset) = true := by decide

/-! ## Witnesses: the hypotheses of each statement are met -/

/-- An operation that answers a next state, as a premise of a statement needs it. -/
theorem nextIs_next {o : Out} {test : State → Bool} (h : nextIs o test = true) : ∃ t, o = .next t :=
  let ⟨t, ht, _⟩ := nextIs_exists h; ⟨t, ht⟩

/-- The state after reset is ready, whatever PB and CUR. -/
theorem ready_buf (pb : Bytes) (cur : Nat) : (buf pb cur).Ready := ⟨rfl, rfl, rfl⟩

/-- During an attempt and while FAULT is set; and RESET out of turn. -/
theorem witness_ResetCompletes : (faulted .range).cfg.valid = true ∧ (faulted .range).fault ≠ none
    ∧ (let s : State := { body [0x02, 0x03] 8 [] with schedule := [.world .reset] };
      s.cfg.valid = true ∧ s.schedule = .world .reset :: []) := ⟨rfl, by simp [faulted], rfl, rfl⟩

theorem witness_PowerOnIsReset : (buf [0x01] 1).cfg.valid = true := rfl

theorem witness_CrcRegisterOps : State.Ready { State.reset with crcAcc := 0xFFFF } := ⟨rfl, rfl, rfl⟩

theorem witness_Crc16Pure : State.reset.Ready := ⟨rfl, rfl, rfl⟩

/-- A turn for each item, by default and scheduled. -/
theorem witness_CrcOverIsCrc16 : State.reset.Ready ∧ BlockTurns State.reset (9 + 1) []
    ∧ BlockTurns { State.reset with schedule := List.replicate (0 + 1) .byteFirst ++ [] } (0 + 1) [] :=
  ⟨⟨rfl, rfl, rfl⟩, .inr ⟨rfl, rfl⟩, .inl rfl⟩

theorem witness_CrcAlgebra : ([0x12, 0x34] : Bytes).length = ([0xFF, 0xFF] : Bytes).length := rfl

theorem witness_CrcSingleBitError : 4 < frameF.length ∧ 7 < 8 := by decide

/-- Both bounds of FC_LOAD and FC_SKIP, and both outcomes of FC_SKIP where they meet. -/
theorem witness_BufferOps : (buf [] 1).Ready ∧ (List.replicate 256 (0x00 : Byte)).length ≤ 256
    ∧ 256 < (List.replicate 257 (0x00 : Byte)).length ∧ ((257 : Int) < 0 ∨ 256 < (257 : Int))
    ∧ 256 < ((buf [] 1).cur : Int) + 256 ∧ ((buf [] 0).cur : Int) + 256 ≤ 256 ∧ ((buf [] 256).cur : Int) + 0 ≤ 256 :=
  ⟨ready_buf _ _, by decide +kernel, by decide +kernel, by decide, by decide, by decide, by decide⟩

/-- At the bounds of the operands; the outcomes meet at CUR + width = 256. -/
theorem witness_AppendIntegers : (buf [] 253).Ready ∧ 256 < (buf [] 253).cur + (four 4294967295).length
    ∧ (buf [] 252).cur + (four (-2147483648)).length ≤ 256 ∧ (buf [] 254).cur + (two 65535).length ≤ 256
    ∧ 256 < (buf [] 256).cur + 1 := ⟨ready_buf _ _, by decide, by decide, by decide, by decide⟩

/-- Overrun, Unwritten where the bytes fit but one is none, and a value. -/
theorem witness_GetIntegers : (buf [0x01] 0).Ready ∧ 256 < (buf [] 253).cur + 4
    ∧ ((buf [0x01] 0).cur + 2 ≤ 256 ∧ ∃ j, j < 2 ∧ (buf [0x01] 0).pb.read ((buf [0x01] 0).cur + j) = none)
    ∧ (∀ j, j < 2 → (buf [0x80, 0x00] 0).pb.read ((buf [0x80, 0x00] 0).cur + j) = ([0x80, 0x00] : Bytes)[j]?) :=
  ⟨ready_buf _ _, by decide, ⟨by decide, 1, by decide, rfl⟩, by decide⟩

theorem witness_OverrunCheckedFirst : width .getInt32 = some 4 ∧ Instr.wf .getInt32 = true ∧ (buf [] 253).Ready
    ∧ 256 < (buf [] 253).cur + 4 := ⟨rfl, rfl, ready_buf _ _, by decide⟩

theorem witness_ReadBackWritten : (buf [] 254).Ready ∧ (buf [] 254).cur + 2 ≤ 256 ∧ (buf [] 252).cur + 4 ≤ 256 :=
  ⟨ready_buf _ _, by decide, by decide⟩

/-- The three outcomes, with the products of 3276.75 · 10 (Range, to nearest), 2.5 · 1 (a tie) and −2.5 · 1 toward
zero; and an operand with a value and one without, under any configuration. -/
theorem witness_AppendScaled : (∀ c : Config, HasValue c (.finite (5 / 2)) (5 / 2) ∧ NoValue c .nan)
    ∧ (buf [] 0).Ready ∧ (0 : Rat) < 10 ∧ 256 < (buf [] 255).cur + 2 ∧ (buf [] 254).cur + 2 ≤ 256
    ∧ (Rounds .nearestTiesAway (65535 / 2) 32768 ∧ (32767 : Int) < 32768)
    ∧ Rounds .nearestTiesAway (5 / 2) 3 ∧ Rounds .towardZero (-5 / 2) (-2) ∧ (0 : Rat) ≤ 0 := by
  refine ⟨fun _ => ⟨.inl rfl, .inl rfl⟩, ready_buf _ _, by norm_num, by decide, by decide, ⟨?_, by decide⟩, ?_, ?_, le_refl _⟩ <;>
    norm_num [Rounds, abs_of_nonneg, abs_of_neg]

theorem witness_GetScaled : (buf [0xFF, 0x85] 0).Ready ∧ (0 : Rat) < 10
    ∧ (∀ j, j < 2 → (buf [0xFF, 0x85] 0).pb.read ((buf [0xFF, 0x85] 0).cur + j) = ([0xFF, 0x85] : Bytes)[j]?) :=
  ⟨ready_buf _ _, by norm_num, by decide⟩

/-- 0.005 with scale 100 is a tie (V1.5); both roundings. -/
theorem witness_QuantisationBound : (buf [] 0).Ready ∧ HasValue (buf [] 0).cfg (.finite (5 / 1000)) (5 / 1000)
    ∧ (∃ t, exec (.appendFloat16 (.finite (5 / 1000)) 100) (buf [] 0) = .next t ∧ t.fault = none)
    ∧ (∃ t, exec (.appendFloat32 (.finite (5 / 1000)) 100)
        { buf [] 0 with cfg := { Config.reference with scaleRound := .towardZero } } = .next t ∧ t.fault = none) := by
  refine ⟨ready_buf _ _, .inl rfl, ?_, ?_⟩
  · obtain ⟨t, h, hf⟩ := nextIs_exists (test := fun t => decide (t.fault = none))
      (o := exec (.appendFloat16 (.finite (5 / 1000)) 100) (buf [] 0)) (by decide +kernel)
    exact ⟨t, h, of_decide_eq_true hf⟩
  · obtain ⟨t, h, hf⟩ := nextIs_exists (test := fun t => decide (t.fault = none))
      (o := exec (.appendFloat32 (.finite (5 / 1000)) 100)
        { buf [] 0 with cfg := { Config.reference with scaleRound := .towardZero } }) (by decide +kernel)
    exact ⟨t, h, of_decide_eq_true hf⟩

/-- CUR = 256, CUR = 255 with a cell that holds none, and CUR = 255 with all 255 bytes. -/
theorem witness_PackOutcomes : (buf [] 256).Ready ∧ 255 < (buf [] 256).cur
    ∧ ((buf [] 255).cur ≤ 255 ∧ ∃ a, a < (buf [] 255).cur ∧ (buf [] 255).pb.read a = none)
    ∧ (List.replicate 255 (0xFF : Byte)).length = (buf (List.replicate 255 0xFF) 255).cur
    ∧ ∀ a, a < 255 → (buf (List.replicate 255 0xFF) 255).pb.read a = (List.replicate 255 (0xFF : Byte))[a]? :=
  ⟨ready_buf _ _, by decide, ⟨by decide, 0, by decide, rfl⟩, by decide +kernel, by decide +kernel⟩

theorem witness_UnpackOutcomes : State.reset.Ready := ⟨rfl, rfl, rfl⟩

theorem witness_UnpackOfFrame : State.reset.Ready ∧ (List.replicate 255 (0x02 : Byte)).length ≤ 255 :=
  ⟨⟨rfl, rfl, rfl⟩, by decide +kernel⟩

/-- The bits of the start marker, of a payload byte and of the end marker. -/
theorem witness_UnpackDetectsBitFlip : State.reset.Ready ∧ ([0x00, 0x05, 0x02] : Bytes).length ≤ 255
    ∧ 0 < 3 + 5 ∧ 2 < 3 + 5 ∧ 7 < 3 + 5 ∧ 7 < 8 := ⟨⟨rfl, rfl, rfl⟩, by decide⟩

theorem witness_SendEmitsFrame : State.reset.Ready ∧ (List.replicate 255 (0x03 : Byte)).length ≤ 255
    ∧ BlockTurns State.reset 2 [] ∧ BlockTurns { State.reset with schedule := [.byteFirst, .byteFirst] } 2 [] :=
  ⟨⟨rfl, rfl, rfl⟩, by decide +kernel, .inr ⟨rfl, rfl⟩, .inl rfl⟩

/-- A ready block; and an attempt with a line still to issue, with a byte step to take. -/
theorem witness_ReceiveStartsAttempt : (buf [] 0).Ready
    ∧ (let u : State := { attempt [0x02] with host := [.line (line ['P', 'A', 'C', 'K'])] };
      u.rxState ≠ .inactive ∧ BlockTurn u [] ∧ u.inq ≠ [] ∧ nextIs (step u) (fun _ => true) = true)
    ∧ decodeLine (line ['P', 'A', 'C', 'K']) = .ok (.op .pack) ∧ Instr.pack ≠ .reset :=
  ⟨ready_buf _ _, ⟨by simp [attempt], .inr (.inl rfl), by simp [attempt], by decide +kernel⟩, by decide +kernel, by decide⟩

/-- A byte step is taken with the candidate's start byte in RB, whatever the two bytes are. -/
theorem byteTurn_header (a b : Byte) : ByteTurn (header a [b]) b { header a [b] with inq := [], schedule := [] } :=
  ⟨⟨rfl, rfl, by simp [header]⟩, [], [], rfl, rfl, .inl rfl⟩

/-- The candidate's start byte is 0x02 (byteTurn_header gives the byte step). -/
theorem witness_FrameShortRow : (header 0x02 []).cfg.valid = true ∧ (header 0x02 []).fault = none
    ∧ (header 0x02 []).rxState = .header ∧ (header 0x02 []).rb.read 0 = some 0x02 := by decide

/-- 0x03, and 0x04, the first start byte above it that START_INVALID takes. -/
theorem witness_RejectRows : (header 0x03 []).cfg.valid = true ∧ (header 0x03 []).fault = none
    ∧ ((header 0x03 []).rxState = .header ∧ (header 0x03 []).rb.read 0 = some 0x03)
    ∧ ((0x04 : Byte) ≠ 0x02 ∧ (0x04 : Byte) ≠ 0x03 ∧ (header 0x04 []).rxState = .header
        ∧ (header 0x04 []).rb.read 0 = some 0x04) := by decide

/-- A byte step is taken at a frame's end. -/
theorem byteTurn_body (held : Bytes) (e : Nat) (b : Byte) :
    ByteTurn (body held e [b]) b { body held e [b] with inq := [], schedule := [] } :=
  ⟨⟨rfl, rfl, by simp [body]⟩, [], [], rfl, rfl, .inl rfl⟩

/-- The last byte of the smallest and of the largest frame (byteTurn_body gives the byte step). -/
theorem witness_EndMarkRow :
    ((body [0x02, 0x00, 0x00, 0x00] 5 []).rxState = .body ∧ (body [0x02, 0x00, 0x00, 0x00] 5 []).rxExpect = some 5
      ∧ (body [0x02, 0x00, 0x00, 0x00] 5 []).rxCount = 4
      ∧ ∀ j, j < 4 → (body [0x02, 0x00, 0x00, 0x00] 5 []).rb.read j = ([0x02, 0x00, 0x00, 0x00, 0x03] : Bytes)[j]?)
    ∧ (let s := body (0x02 :: 0xFF :: List.replicate 257 0x00) 260 [];
      s.rxExpect = some (s.rxCount + 1) ∧ s.rxCount < 261) := ⟨by decide, by decide +kernel⟩

/-- A receiver that is elsewhere; a cell that holds none; an RB without such a cell; a payload FW_VERSION's row takes. -/
theorem witness_OutOfPlaceRowsStop : State.reset.cfg.valid = true ∧ State.reset.fault = none
    ∧ ¬ ((header 0x03 []).rxState = .header ∧ (header 0x03 []).rb.read 0 = some 0x02)
    ∧ ¬ (State.reset.rxState = .header ∧ State.reset.rb.read 0 = some 0x03)
    ∧ ¬ ((header 0x02 []).rxState = .header ∧ (header 0x02 []).rb.read 0 = some 0x02 ∧ (0x02 : Byte) ≠ 0x02 ∧ (0x02 : Byte) ≠ 0x03)
    ∧ ¬ (State.reset.rxState = .body ∧ State.reset.rxExpect = some (State.reset.rxCount + 1))
    ∧ (let s : State := { body [0x02, 0x00] 5 [] with rxCount := 4 };
      s.rxState = .body ∧ s.rxExpect = some (s.rxCount + 1) ∧ s.rxCount < 261 ∧ ∃ j, j < s.rxCount ∧ s.rb.read j = none)
    ∧ (let s : State := { body [0x02, 0x00] 262 [] with rxCount := 261 };
      s.rxState = .body ∧ s.rxExpect = some (s.rxCount + 1) ∧ 261 ≤ s.rxCount)
    ∧ ∃ id ∈ ([0x00] : Bytes).head?, id ∈ decodedIds State.reset.cfg .mc :=
  ⟨rfl, rfl, by decide, by decide, by decide, by decide, ⟨rfl, rfl, by decide, 2, by decide, rfl⟩, by decide,
    0x00, rfl, by decide⟩

/-- A byte step is taken from each state a clause names; the last clauses meet at RX_COUNT + 1 = 261. -/
theorem witness_ByteStepInFull :
    (∀ b : Byte, ByteTurn (attempt [b]) b { attempt [b] with inq := [], schedule := [] } ∧ (attempt [b]).rxState = .idle)
    ∧ (∀ b : Byte, ByteTurn { attempt [b] with rxState := .hunt } b { attempt [b] with rxState := .hunt, inq := [], schedule := [] })
    ∧ (∀ a b : Byte, ByteTurn (header a [b]) b { header a [b] with inq := [], schedule := [] }
        ∧ (header a [b]).rb.read 0 = some a)
    ∧ (∀ (b : Byte) (n e : Nat), ByteTurn { body [0x02, 0x00] e [b] with rxCount := n } b
        { body [0x02, 0x00] e [b] with rxCount := n, inq := [], schedule := [] })
    ∧ ((some 261 : Option Nat) ≠ some (260 + 1) ∨ (some 5 : Option Nat) ≠ some (260 + 1) ∧ 260 + 1 = 261 ∧ 259 + 1 < 261) := by
  refine ⟨fun b => ⟨⟨⟨rfl, rfl, by simp [attempt]⟩, [], [], rfl, rfl, .inl rfl⟩, rfl⟩,
    fun b => ⟨⟨rfl, rfl, by simp⟩, [], [], rfl, rfl, .inl rfl⟩,
    fun a b => ⟨⟨⟨rfl, rfl, by simp [header]⟩, [], [], rfl, rfl, .inl rfl⟩, rfl⟩,
    fun b n e => ⟨⟨rfl, rfl, by simp [body]⟩, [], [], rfl, rfl, .inl rfl⟩, by decide⟩

/-- An attempt of a run: the state RECEIVE leaves. Its invariant is that of the statements below. -/
theorem inv_attempt (inq : Bytes) (ts : List Turn) (now : Nat) :
    State.Inv { State.reset with rxState := .idle, inq := inq, schedule := ts, now := now } where
  pbWf := List.Pairwise.nil
  pbBelow := by intro c hc; cases hc
  curLe := Nat.zero_le _
  rbWf := List.Pairwise.nil
  rbBelow := by intro c hc; cases hc
  countLe := Nat.zero_le _
  expectRange := by intro n hn; cases hn
  rxCoherent := ⟨rfl, rfl, rfl⟩
  resultOk := trivial
  attemptOpen := fun _ => ⟨rfl, rfl, Nat.zero_le _⟩
  statusFinal := (by decide : Status.ok ≠ .invalidStartMarker ∧ Status.ok ≠ .unsupportedFrameType ∧ Status.ok ≠ .bufferOverflow)
  mcRange := by constructor <;> intro x hx <;> cases hx
  bmsRange := by
    intro i x hx
    have h : ∀ j : Fin 12, BmsSnap.reset.cellVoltage[j] = none := by decide
    rw [show ({ State.reset with rxState := .idle, inq := inq, schedule := ts, now := now } : State).bmsSnap.cellVoltage[i]
      = BmsSnap.reset.cellVoltage[i] from rfl, h i] at hx
    cases hx

/-- The deadline is reached exactly; an attempt of a run then ends with Timeout. -/
theorem witness_DeadlineStep :
    (let s : State := { attempt [0x02] with now := 100, schedule := [.deadlineFirst] };
      s.InAttempt ∧ s.t0 + s.cfg.rxDeadline ≤ s.now ∧ s.schedule = .deadlineFirst :: [])
    ∧ (let s : State := { attempt [] with now := 100 };
      s.InAttempt ∧ s.t0 + s.cfg.rxDeadline ≤ s.now ∧ s.inq = [] ∧ BlockTurn s []
      ∧ nextIs (step s) (fun t => decide (t.rxResult = some (.timeout, none))) = true) :=
  ⟨⟨⟨rfl, rfl, by simp [attempt]⟩, by decide, rfl⟩, ⟨rfl, rfl, by simp [attempt]⟩, by decide, rfl, .inl ⟨rfl, rfl⟩, by decide⟩

/-- The second clause: an attempt of a run, the clock at the deadline, INQ empty. -/
theorem witness_DeadlineStep_run :
    let s : State := { attempt [] with now := 100 };
    State.Inv s ∧ s.rxState ≠ .inactive ∧ ∃ t, step s = .next t ∧ t.rxResult = some (.timeout, none) := by
  intro s
  obtain ⟨t, h, hr⟩ := nextIs_exists (o := step s) (test := fun t => decide (t.rxResult = some (.timeout, none)))
    (by decide)
  exact ⟨inv_attempt [] [] 100, by simp [s, attempt], t, h, of_decide_eq_true hr⟩

theorem witness_DeadlineRace :
    let s : State := { body [0x02, 0x00, 0x00, 0x00] 5 [0x03] with now := 100 };
    s.InAttempt ∧ s.rxState = .body ∧ ([] : Bytes).length ≤ 255 ∧ s.rxCount = ([] : Bytes).length + 4
      ∧ s.rxExpect = some (([] : Bytes).length + 5) ∧ (∀ a, a < 4 → s.rb.read a = (wireFrame [])[a]?)
      ∧ s.inq = 0x03 :: [] ∧ s.t0 + s.cfg.rxDeadline ≤ s.now :=
  ⟨⟨rfl, rfl, by simp [body]⟩, rfl, by decide, rfl, rfl, by decide, rfl, by decide⟩

/-- An attempt one tick before its deadline, and an idle block with nothing to issue. -/
theorem witness_WaitForTheWorld :
    (let s : State := { attempt [] with now := 99 };
      s.cfg.valid = true ∧ s.InAttempt ∧ s.inq = [] ∧ s.now < s.t0 + s.cfg.rxDeadline ∧ s.schedule = [])
    ∧ (State.reset.rxState = .inactive ∧ State.reset.host = []) :=
  ⟨⟨rfl, ⟨rfl, rfl, by simp [attempt]⟩, rfl, by decide, rfl⟩, rfl, rfl⟩

theorem witness_WorldMoves (m : WorldMove) :
    let s : State := { State.reset with schedule := [.world m] };
    s.cfg.valid = true ∧ s.schedule = .world m :: [] := ⟨rfl, rfl⟩

/-- The last turn comes at t0 + RX_DEADLINE exactly, and the block has a turn before it. -/
theorem witness_EmptyStreamTimesOut :
    let pre : List Turn := [.byteFirst, .world (.elapse 100)]
    let s : State := { attempt [] with schedule := pre ++ .deadlineFirst :: [] };
    FreshAttempt s ∧ s.inq = [] ∧ s.host = [] ∧ s.rxResult = none ∧ s.schedule.all quiet = true
      ∧ ∃ u, Host.Core.run core pre.length s = .next u ∧ s.t0 + s.cfg.rxDeadline ≤ u.now := by
  intro pre s
  obtain ⟨u, h, hu⟩ := nextIs_exists (o := Host.Core.run core pre.length s) (test := fun u => decide (100 ≤ u.now))
    (by decide)
  exact ⟨⟨rfl, rfl, rfl, rfl, rfl, rfl, rfl⟩, rfl, rfl, rfl, rfl, u, h, of_decide_eq_true hu⟩

/-- "two garbage bytes" and no garbage, the empty payload. -/
theorem witness_ReceivesFrameAfterGarbage :
    FreshAttempt (attempt ([0xAA, 0x55] ++ wireFrame [])) ∧ FreshAttempt (attempt ([] ++ wireFrame []))
    ∧ (∀ b ∈ ([0xAA, 0x55] : Bytes), b ≠ 0x02)
    ∧ (attempt ([0xAA, 0x55] ++ wireFrame [])).schedule = List.replicate (2 + 0 + 5) .byteFirst ++ [] :=
  ⟨⟨rfl, rfl, rfl, rfl, rfl, rfl, rfl⟩, ⟨rfl, rfl, rfl, rfl, rfl, rfl, rfl⟩, by decide, by decide⟩

/-- The length byte 0, with the end marker and without it. -/
theorem witness_CandidateEndsAtDeclaredLength : ∀ e : Byte, FreshAttempt (attempt ([0x02, 0x00] ++ [0x00, 0x00] ++ [e] ++ []))
    ∧ ([0x00, 0x00] : Bytes).length = (0x00 : Byte).toNat + 2
    ∧ (attempt ([0x02, 0x00] ++ [0x00, 0x00] ++ [e] ++ [])).schedule
        = List.replicate ((0x00 : Byte).toNat + 5) .byteFirst ++ [] :=
  fun _ => ⟨⟨rfl, rfl, rfl, rfl, rfl, rfl, rfl⟩, rfl, rfl⟩

theorem witness_OverflowUnreachable : State.Inv (attempt [0x02]) ∧ nextIs (step (attempt [0x02])) (fun _ => true) = true :=
  ⟨inv_attempt [0x02] _ 0, by decide⟩

theorem witness_AttemptFrame : (attempt [0x02]).InAttempt ∧ BlockTurn (attempt [0x02]) [] ∧ (attempt [0x02]).inq ≠ []
    ∧ ∃ t, step (attempt [0x02]) = .next t :=
  ⟨⟨rfl, rfl, by simp [attempt]⟩, .inr (.inl rfl), by simp [attempt], nextIs_next (test := fun _ => true) (by decide)⟩

theorem witness_DecodeFwVersion : State.reset.Ready ∧ ([0x05, 0x02, 0x77] : Bytes) = 0x05 :: 0x02 :: [0x77]
    ∧ ([0x05, 0x02, 0x77] : Bytes).length ≤ 254 := ⟨⟨rfl, rfl, rfl⟩, rfl, by decide⟩

theorem witness_DecodeSetupSelective : State.reset.Ready ∧ (payloadG.drop 1).length = 29
    ∧ payloadG.drop 1 = [0x00, 0x00, 0x00, 0x00, 0x01, 0x2C, 0x00, 0x00, 0x03, 0xE8, 0xFF, 0xFF, 0xFF, 0x9C,
      0x00, 0x00, 0x0B, 0xB8, 0x01, 0xF4, 0x00, 0x00, 0x27, 0x10, 0x00, 0x00, 0x00, 0x00, 0x03] ++ [] :=
  ⟨⟨rfl, rfl, rfl⟩, rfl, rfl⟩

theorem witness_DecodeDecodedPpm : State.reset.Ready
    ∧ ([0xFF, 0xFF, 0xD8, 0xF0] : Bytes) = [0xFF, 0xFF, 0xD8, 0xF0] ++ [] := ⟨⟨rfl, rfl, rfl⟩, rfl⟩

theorem witness_DecodeBmsValues : State.reset.Ready
    ∧ ([0x11, 0x22, 0x33, 0x44, 0x55, 0x66, 0x77, 0x88] : Bytes).length = 8 := ⟨⟨rfl, rfl, rfl⟩, rfl⟩

theorem witness_DecodeBmsCells : State.reset.Ready
    ∧ (0x0E :: (List.finRange 12).flatMap (fun _ => [0x0E, 0x10]) ++ [] : Bytes).length ≤ 254 :=
  ⟨⟨rfl, rfl, rfl⟩, by decide⟩

/-- Each command at one byte below its minimum (the last clause of each command's own statement has the same premises). -/
theorem witness_ShortPayloadWritesNothing : State.reset.Ready
    ∧ (decodedRows State.reset.cfg).map (fun r => r.2.2.1 - 1) = [2, 29, 4, 9, 25] ∧ 1 + 1 < 3 :=
  ⟨⟨rfl, rfl, rfl⟩, rfl, by decide⟩

/-- The empty payload, and an id no dialect decodes. -/
theorem witness_UnsupportedChangesNothing : State.reset.Ready
    ∧ (∀ id ∈ ([] : Bytes).head?, id ∉ decodedIds State.reset.cfg .mc)
    ∧ (∀ id ∈ ([0x99] : Bytes).head?, id ∉ decodedIds State.reset.cfg .bms) := ⟨⟨rfl, rfl, rfl⟩, by decide, by decide⟩

/-- Every outbound id of TC is undecoded; under another valid configuration one equals a decoded id. -/
theorem witness_OutboundRows : State.reset.Ready
    ∧ (∀ r ∈ outboundRows State.reset.cfg, r.1 ∉ decodedIds State.reset.cfg .mc)
    ∧ (let c : Config := { Config.reference with cmdSetDuty := 0x00 };
      c.valid = true ∧ c.cmdSetDuty ∈ decodedIds c .mc) := by
  refine ⟨⟨rfl, rfl, rfl⟩, ?_, by decide⟩
  intro r hr
  have h : ((outboundRows State.reset.cfg).map Prod.fst).all (fun id => decide (id ∉ decodedIds State.reset.cfg .mc)) = true := by
    decide
  exact of_decide_eq_true (List.all_eq_true.1 h r.1 (List.mem_map_of_mem hr))

theorem witness_DecodeIsItsRow : (List.replicate 255 (0x00 : Byte)).length ≤ 255 := by decide +kernel

theorem witness_DecodeAtomic : ∃ t, exec (.decode .mc [0x00, 0x05, 0x02]) State.reset = .next t :=
  nextIs_next (test := fun _ => true) (by decide)

/-- The last offset at which each width fits. -/
theorem witness_ReadersAgreeWithGets : State.reset.Ready ∧ payloadG.length ≤ 256 ∧ 29 + 1 ≤ payloadG.length
    ∧ 28 + 2 ≤ payloadG.length ∧ 26 + 4 ≤ payloadG.length := ⟨⟨rfl, rfl, rfl⟩, by decide⟩

theorem witness_SetNunchuckCompletes : State.reset.Ready ∧ 0 ≤ 255 ∧ 255 ≤ 255 := ⟨⟨rfl, rfl, rfl⟩, by decide⟩

theorem witness_ExchangeDecodesOnlyOk : State.reset.Ready
    ∧ (let s : State := { State.reset with host := [.decodeIfOk .mc], rxResult := some (.ok, some [0x00]) };
      s.Ready ∧ s.host = .decodeIfOk .mc :: [] ∧ BlockTurn s [] ∧ s.rxResult = some (.ok, some [0x00]))
    ∧ (let s : State := { State.reset with host := [.decodeIfOk .mc], rxResult := some (.timeout, none) };
      s.Ready ∧ ∀ p, s.rxResult ≠ some (.ok, some p)) :=
  ⟨⟨rfl, rfl, rfl⟩, ⟨⟨rfl, rfl, rfl⟩, rfl, .inl ⟨rfl, rfl⟩, rfl⟩, ⟨rfl, rfl, rfl⟩, by simp⟩

theorem witness_FaultsArePrecise : (buf [] 256).fault = none
    ∧ ∃ t, exec .getUint8 (buf [] 256) = .next t ∧ t.fault = some .overrun := by
  obtain ⟨t, h, hf⟩ := nextIs_exists (o := exec .getUint8 (buf [] 256)) (test := fun t => decide (t.fault = some .overrun))
    (by decide)
  exact ⟨rfl, t, h, of_decide_eq_true hf⟩

/-- A faulted block: an operation that does not execute, a faulted attempt, a step that is taken. -/
theorem witness_FaultedBlockStops : (faulted .overrun).cfg.valid = true ∧ (faulted .overrun).fault = some .overrun
    ∧ Instr.pack ≠ .reset ∧ Instr.wf .pack = true
    ∧ (let s : State := { attempt [0x02] with fault := some .overrun };
      s.rxState ≠ .inactive ∧ BlockTurn s [])
    ∧ nextIs (step { faulted .overrun with schedule := [.byteFirst] }) (fun _ => true) = true :=
  ⟨rfl, rfl, by decide, rfl, ⟨by simp [attempt], .inr (.inl rfl)⟩, by decide⟩

/-- P6's host line on a faulted block, RESET's, and a read. -/
theorem witness_FaultedHostGoesOn : (faulted .overrun).cfg.valid = true ∧ (faulted .overrun).fault = some .overrun
    ∧ (∀ it : HostItem, let s : State := { faulted .overrun with host := [it] };
      s.rxState = .inactive ∧ s.host = it :: [] ∧ BlockTurn s [])
    ∧ decodeLine (line ['P', 'A', 'C', 'K']) = .ok (.op .pack) ∧ Instr.pack ≠ .reset ∧ Instr.wf .pack = true
    ∧ decodeLine (line ['R', 'E', 'S', 'E', 'T']) = .ok (.op .reset) :=
  ⟨rfl, rfl, fun _ => ⟨rfl, rfl, .inl ⟨rfl, rfl⟩⟩, by decide +kernel, by decide, rfl, by decide +kernel⟩

/-- A field that holds a value, one that holds none, and the block's turn with a read of either. -/
theorem witness_TelemetryReads :
    (let s : State := { State.reset with bmsSnap := { BmsSnap.reset with soc := some 0x4B } };
      (TelemetryField.soc, some 75, 1) ∈ telemetryRows s ∧ (TelemetryField.rpm, none, 1) ∈ telemetryRows s)
    ∧ (∀ f, let s : State := { State.reset with host := [.readField f] };
      s.Ready ∧ s.host = .readField f :: [] ∧ BlockTurn s []) :=
  ⟨by decide +kernel, fun _ => ⟨⟨rfl, rfl, rfl⟩, rfl, .inl ⟨rfl, rfl⟩⟩⟩

/-- An operand outside its domain, a start byte that is not START_INVALID's, and a configuration that is refused. -/
theorem witness_IllFormedRefused : Instr.wf (.fcSkip 257) = false ∧ Instr.wf (.startInvalid 0x03 0x00) = false
    ∧ State.reset.cfg.valid = true ∧ State.reset.fault = none
    ∧ (let s : State := { State.reset with cfg := { Config.reference with cmdBmsGetValues := 0xB1 } };
      s.cfg.cmdBmsGetValues = s.cfg.cmdBmsGetBmsCells) := by decide

theorem witness_StepKeepsInv : State.Inv (attempt [0x02]) ∧ ∃ t, step (attempt [0x02]) = .next t :=
  ⟨inv_attempt [0x02] _ 0, nextIs_next (test := fun _ => true) (by decide)⟩

/-- Each register the statement speaks of is changed by an operation it names. -/
theorem witness_OnlyWriters :
    let r := State.reset
    nextIs (exec (.crcUpdate 0x01) r) (fun t => t.crcAcc != r.crcAcc && t.status == .ok) = true
    ∧ nextIs (exec (.setNunchuck 1 2 true true) r) (fun t => t.nunchuck != r.nunchuck) = true
    ∧ nextIs (exec (.appendUint8 1) r) (fun t => t.pb != r.pb && t.cur != r.cur) = true
    ∧ nextIs (exec .pack r) (fun t => t.outq != r.outq) = true
    ∧ nextIs (exec .getUint8 r) (fun t => t.fault != r.fault) = true
    ∧ nextIs (exec .receive { r with now := 7, rxResult := some (.timeout, none) })
        (fun t => decide (t.rxState ≠ r.rxState) && t.t0 == 7 && t.rxResult == none) = true
    ∧ nextIs (exec (.frameShort 0x01) (header 0x02 []))
        (fun t => t.rb != [(0, 0x02)] && t.rxCount == 2 && t.rxExpect == some 6) = true
    ∧ nextIs (exec (.startInvalid 0xAA 0x00) (header 0xAA [])) (fun t => t.rxDiag != r.rxDiag && t.diagq != r.diagq) = true
    ∧ nextIs (exec .endMark (body [0x02, 0x00, 0x00, 0x00] 5 [])) (fun t => t.rxResult == some (.ok, some [])) = true
    ∧ nextIs (exec (.cmdFwVersion [0x05, 0x02]) r) (fun t => t.mcSnap != r.mcSnap) = true
    ∧ nextIs (exec (.decode .bms [0xB0, 0, 0, 0, 0, 0, 0, 0, 0, 0x4B]) r) (fun t => t.bmsSnap != r.bmsSnap) = true
    ∧ nextIs (exec (.decode .bms []) r) (fun t => t.status != r.status) = true
    ∧ nextIs (step (attempt [0x02])) (fun _ => true) = true := by decide +kernel

/-- The block's turn with an item at the head of the host's program, and a line of each kind. -/
theorem witness_StepRunsDecodedLine :
    (∀ it : HostItem, let s : State := { State.reset with host := [it], schedule := [.byteFirst] };
      s.cfg.valid = true ∧ s.rxState = .inactive ∧ s.host = it :: [] ∧ BlockTurn s [] ∧ s.fault = none)
    ∧ decodeLine (line ['R', 'E', 'C', 'E', 'I', 'V', 'E']) = .ok (.op .receive)
    ∧ decodeLine (line ['I', 'N', 'Q', ' ', '<', '-', ' ', '[', ']']) = .ok (.deliver [])
    ∧ decodeLine [] = .ok .blank ∧ decodeLine (line ['N', 'O', 'P']) = .error .unknownMnemonic :=
  ⟨fun _ => ⟨rfl, rfl, rfl, .inr (.inl rfl), rfl⟩, by decide +kernel, by decide +kernel, by decide +kernel,
    by decide +kernel⟩

/-- The configuration of State.reset, an operation of each encoding, and an id CMD_UNKNOWN may have. -/
theorem witness_DecodeEncode : Config.reference.valid = true ∧ (Config.reference.idsOf .mc).Nodup
    ∧ Instr.wf (.appendInt16 (-32768)) = true ∧ Instr.wf .endMark = true ∧ Instr.wf (.cmdFwVersion [0x05]) = true
    ∧ (∀ id ∈ ([0x99] : Bytes).head?, id ∉ Config.reference.idsOf .mc) := by decide

end Sys2Proof.Tests
end

/-! PROOFS. The CRC generator (40_crc16.md, R110 to R114): the machine's update agrees with the rule's own arithmetic on
natural numbers, and what each CRC operation leaves in a ready state. -/

namespace Sys2Proof.Claims

open Sys2Proof.Machine

/-! ### The update is the rule's arithmetic -/

/-- One round: the word's top bit is `32768 ≤ c`, and shifting it left is doubling modulo 2^16. -/
theorem crcShift_toNat (c : Half) : (crcShift c).toNat = crcRound c.toNat := by
  have hdouble : (c <<< 1).toNat = 2 * c.toNat % 65536 := by
    rw [BitVec.toNat_shiftLeft, Nat.shiftLeft_eq, Nat.mul_comm, Nat.pow_one]
  have hmsb : c.msb = decide (32768 ≤ c.toNat) := BitVec.msb_eq_decide c
  by_cases htop : 32768 ≤ c.toNat
  · simp [crcShift, crcRound, hmsb, htop, hdouble, crcPoly]
  · simp [crcShift, crcRound, hmsb, htop, hdouble]

theorem crcShift_repeat_toNat (n : Nat) (c : Half) :
    (Nat.repeat crcShift n c).toNat = Nat.repeat crcRound n c.toNat := by
  induction n with
  | zero => rfl
  | succ n ih => rw [Nat.repeat, Nat.repeat, crcShift_toNat, ih]

/-- A byte placed in the high half of a word. -/
theorem byteToHigh_toNat (b : Byte) : (b.setWidth 16 <<< 8).toNat = b.toNat * 256 := by
  have := b.isLt
  rw [BitVec.toNat_shiftLeft, BitVec.toNat_setWidth, Nat.shiftLeft_eq]
  omega

theorem crcUpdate_toNat (c : Half) (b : Byte) : (crcUpdate c b).toNat = crcByte c.toNat b := by
  rw [crcUpdate, crcByte, crcShift_repeat_toNat, BitVec.toNat_xor, byteToHigh_toNat]

theorem crcFold_toNat (c : Half) (s : Bytes) : (crcFold c s).toNat = s.foldl crcByte c.toNat :=
  (List.foldl_hom BitVec.toNat fun c b => (crcUpdate_toNat c b).symm).symm

theorem crc16_toNat (s : Bytes) : (crc16 s).toNat = crcBytes s := by
  have hxor : crc16 s = crcFold crcInitValue s := BitVec.xor_zero
  rw [hxor, crcFold_toNat]
  rfl

theorem crcUpdate_eq_ofNat (c : Half) (b : Byte) : crcUpdate c b = BitVec.ofNat 16 (crcByte c.toNat b) := by
  rw [← crcUpdate_toNat, BitVec.ofNat_toNat, BitVec.setWidth_eq]

theorem crc16_eq_ofNat (s : Bytes) : crc16 s = BitVec.ofNat 16 (crcBytes s) := by
  rw [← crc16_toNat, BitVec.ofNat_toNat, BitVec.setWidth_eq]

/-! ### What each operation leaves in a ready state -/

section
variable {s : State} (h : s.Ready)
include h

theorem exec_crcInit_ready :
    exec .crcInit s = .next { s with crcAcc := 0x0000, status := .ok, result := .none } := by
  rw [exec, execCrcInit, hostOp_ready h]
  rfl

theorem exec_crcUpdate_ready (b : Byte) :
    exec (.crcUpdate b) s = .next { s with crcAcc := crcUpdate s.crcAcc b, status := .ok, result := .none } := by
  rw [exec, execCrcUpdate, hostOp_ready h]
  rfl

theorem exec_crcRead_ready : exec .crcRead s = .next { s with status := .ok, result := .crc s.crcAcc } := by
  rw [exec, execCrcRead, hostOp_ready h]
  rfl

theorem exec_crc16_ready (str : Bytes) :
    exec (.crc16 str) s = .next { s with status := .ok, result := .crc (crc16 str) } := by
  rw [exec, execCrc16, hostOp_ready h]
  rfl

end

/-! ### The obligations -/

/-- Settles O3: each operation's effect in a ready state, with the update read as R112's arithmetic. -/
theorem crcRegisterOps : Obligations.CrcRegisterOps := by
  intro s h
  refine ⟨exec_crcInit_ready h, fun b => ?_, exec_crcRead_ready h⟩
  rw [exec_crcUpdate_ready h, crcUpdate_eq_ofNat]

/-- Settles O4: CRC16's effect in a ready state, with the string's fold read as R114's arithmetic. -/
theorem crc16Pure : Obligations.Crc16Pure := by
  intro s str h
  rw [exec_crc16_ready h, crc16_eq_ofNat]

end Sys2Proof.Claims

/-! PROOFS. The field codec (41_field_codec.md, R130 to R152): the machine's fields and readings agree with the rules' own
arithmetic, SCALE_ROUND's rounding is the one the rule characterises, and what each move of PB and CUR does in a ready
state. -/

namespace Sys2Proof.Claims

open Sys2Proof.Machine

/-! ### Operand domains -/

theorem inU8_iff {v : Int} : inU8 v = true ↔ 0 ≤ v ∧ v ≤ 255 := by simp [inU8]
theorem inU16_iff {v : Int} : inU16 v = true ↔ 0 ≤ v ∧ v ≤ 65535 := by simp [inU16]
theorem inU32_iff {v : Int} : inU32 v = true ↔ 0 ≤ v ∧ v ≤ 4294967295 := by simp [inU32]
theorem inS16_iff {v : Int} : inS16 v = true ↔ -32768 ≤ v ∧ v ≤ 32767 := by simp [inS16]
theorem inS32_iff {v : Int} : inS32 v = true ↔ -2147483648 ≤ v ∧ v ≤ 2147483647 := by simp [inS32]
theorem inSkip_iff {n : Int} : inSkip n = true ↔ 0 ≤ n ∧ n ≤ 256 := by simp [inSkip]
theorem inLoad_iff {str : Bytes} : inLoad str = true ↔ str.length ≤ 256 := by simp [inLoad]
theorem inScale_iff {k : Rat} : inScale k = true ↔ 0 < k := by simp [inScale]

/-! ### Big-endian fields -/

theorem emod_mul_ediv (v b : Int) {a : Int} (ha : 0 < a) : v % (a * b) / a = v / a % b := by
  rw [Int.emod_def, Int.emod_def, Int.mul_assoc, Int.sub_mul_ediv_left _ _ ha.ne', Int.ediv_ediv_of_nonneg ha.le]

/-- The byte at bit `i` of a word is its value shifted down by `i` bits, modulo 2^8. -/
theorem extractLsb'_ofInt {w i : Nat} (v : Int) (h : i + 8 ≤ w) :
    (BitVec.ofInt w v).extractLsb' i 8 = BitVec.ofInt 8 (v / 2 ^ i) := by
  obtain ⟨n, rfl⟩ := Nat.exists_eq_add_of_le h
  have hword : (2 : Int) ^ (i + 8 + n) = 2 ^ i * (2 ^ 8 * 2 ^ n) := by rw [pow_add, pow_add, mul_assoc]
  have hbyte : v % 2 ^ (i + 8 + n) / 2 ^ i % 2 ^ 8 = v / 2 ^ i % 2 ^ 8 := by
    rw [hword, emod_mul_ediv _ _ (by positivity), Int.emod_emod_of_dvd _ (Dvd.intro _ rfl)]
  apply BitVec.eq_of_toNat_eq
  rw [BitVec.extractLsb'_toNat, BitVec.toNat_ofInt, BitVec.toNat_ofInt, Nat.shiftRight_eq_div_pow]
  zify
  rw [Int.toNat_of_nonneg (Int.emod_nonneg _ (by simp)), Int.toNat_of_nonneg (Int.emod_nonneg _ (by simp))]
  exact_mod_cast hbyte

theorem encode16_eq_two (v : Int) : encode16 v = two v := by
  simp [encode16, bytes16, hi8, lo8, wrap16, two, extractLsb'_ofInt]

theorem encode32_eq_four (v : Int) : encode32 v = four v := by
  simp [encode32, bytes32, wrap32, four, extractLsb'_ofInt]

/-! ### Readings -/

theorem readBool_eq (bs : Bytes) : readBool bs = decide ((bs.getD 0 0).toNat ≠ 0) := by
  rw [Bool.eq_iff_iff, readBool, bne_iff_ne, decide_eq_true_iff]
  exact not_congr BitVec.toNat_inj.symm

theorem readU16_eq (bs : Bytes) : readU16 bs = (bs.getD 0 0).toNat * 256 + (bs.getD 1 0).toNat := be16_toNat _ _

theorem readU32_eq (bs : Bytes) :
    readU32 bs = u32 (bs.getD 0 0) (bs.getD 1 0) (bs.getD 2 0) (bs.getD 3 0) := be32_toNat _ _ _ _

/-- The top bit of the word is that of its first byte. -/
theorem readS16_eq (bs : Bytes) : readS16 bs = s16 (bs.getD 0 0) (bs.getD 1 0) := by
  have hlow := (bs.getD 1 0).isLt
  rw [readS16, s16, BitVec.toInt_eq_toNat_cond, be16_toNat]
  split <;> split <;> omega

theorem readS32_eq (bs : Bytes) :
    readS32 bs = s32 (bs.getD 0 0) (bs.getD 1 0) (bs.getD 2 0) (bs.getD 3 0) := by
  have h1 := (bs.getD 1 0).isLt
  have h2 := (bs.getD 2 0).isLt
  have h3 := (bs.getD 3 0).isLt
  rw [readS32, s32, u32, BitVec.toInt_eq_toNat_cond, be32_toNat]
  split <;> split <;> omega

/-! ### Rounding: exactly one integer meets the rule's characterisation, and it is the machine's -/

theorem rounds_neg {m : ScaleRound} {x : Rat} {r : Int} : Rounds m (-x) (-r) ↔ Rounds m x r := by
  have hdist : |-x + r| = |x - r| := by rw [← abs_neg, neg_add, neg_neg, sub_eq_add_neg]
  cases m <;> simp [Rounds, hdist]

theorem roundScaled_neg (m : ScaleRound) (x : Rat) : roundScaled m (-x) = -roundScaled m x := by
  cases m with
  | towardZero => simp [roundScaled, roundTowardZero]
  | nearestTiesAway =>
    rcases lt_trichotomy x.num 0 with h | h | h
    · simp [roundScaled, roundNearestAway, h.le, not_le.2 h]
    · have : (x.den : Int) / (2 * x.den) = 0 := Int.ediv_eq_zero_of_lt (by omega) (by have := x.den_pos; omega)
      simp [roundScaled, roundNearestAway, h, this]
    · simp [roundScaled, roundNearestAway, h.le, not_le.2 h]

theorem roundNearestAway_of_nonneg {x : Rat} (hx : 0 ≤ x) : roundNearestAway x = ⌊x + 1 / 2⌋ := by
  have hsum : x + 1 / 2 = ((2 * x.num + x.den : Int) : Rat) / ((2 * x.den : Nat) : Rat) := by
    have hden : (x.den : Rat) ≠ 0 := by exact_mod_cast x.den_ne_zero
    have hnum : x * x.den = x.num := Rat.mul_den_eq_num x
    push_cast
    rw [← hnum]
    field_simp
  rw [hsum, Rat.floor_intCast_div_natCast, roundNearestAway, if_pos (Rat.num_nonneg.2 hx)]
  push_cast
  rfl

theorem roundTowardZero_of_nonneg {x : Rat} (hx : 0 ≤ x) : roundTowardZero x = ⌊x⌋ := by
  rw [roundTowardZero, Int.tdiv_eq_ediv_of_nonneg (Rat.num_nonneg.2 hx), Rat.floor_def']

/-- For `0 ≤ x` the nearest integer, ties away from zero, is the one with `r ≤ x + 1/2 < r + 1`. -/
theorem rounds_nearest_iff_of_nonneg {x : Rat} (hx : 0 ≤ x) {r : Int} :
    Rounds .nearestTiesAway x r ↔ ⌊x + 1 / 2⌋ = r := by
  rw [Int.floor_eq_iff, Rounds, abs_le, abs_of_nonneg hx]
  constructor
  · rintro ⟨⟨hlo, hhi⟩, htie⟩
    refine ⟨by linarith, lt_of_le_of_ne (by linarith) fun heq => ?_⟩
    have hhalf : x - r = 1 / 2 := by linarith
    have hr : x < |(r : Rat)| := htie (by rw [hhalf]; norm_num)
    have hneg : r ≤ -1 := by
      by_contra hcon
      rw [abs_of_nonneg (by exact_mod_cast (by omega : (0 : Int) ≤ r))] at hr
      linarith
    have : (r : Rat) ≤ -1 := by exact_mod_cast hneg
    linarith
  · rintro ⟨hlo, hhi⟩
    refine ⟨⟨by linarith, by linarith⟩, fun htie => lt_of_lt_of_le ?_ (le_abs_self _)⟩
    rcases (abs_eq (by norm_num)).1 htie with h | h <;> linarith

/-- For `0 ≤ x` rounding toward zero is rounding down. -/
theorem rounds_towardZero_iff_of_nonneg {x : Rat} (hx : 0 ≤ x) {r : Int} :
    Rounds .towardZero x r ↔ ⌊x⌋ = r := by
  rw [Int.floor_eq_iff, Rounds, abs_lt, abs_of_nonneg hx]
  constructor
  · rintro ⟨hle, ⟨hlo, hhi⟩, -⟩
    exact ⟨(le_abs_self _).trans hle, by linarith⟩
  · rintro ⟨hlo, hhi⟩
    have hr : (0 : Rat) ≤ r := by
      have : (-1 : Rat) < r := by linarith
      exact_mod_cast (by exact_mod_cast this : (-1 : Int) < r)
    exact ⟨by rwa [abs_of_nonneg hr], ⟨by linarith, by linarith⟩, mul_nonneg hx hr⟩

theorem rounds_iff_of_nonneg {m : ScaleRound} {x : Rat} (hx : 0 ≤ x) {r : Int} :
    Rounds m x r ↔ roundScaled m x = r := by
  cases m with
  | nearestTiesAway => rw [rounds_nearest_iff_of_nonneg hx, roundScaled, roundNearestAway_of_nonneg hx]
  | towardZero => rw [rounds_towardZero_iff_of_nonneg hx, roundScaled, roundTowardZero_of_nonneg hx]

/-- The machine's rounding is the only one R148 allows; a negative product is the mirror of a positive one. -/
theorem rounds_iff {m : ScaleRound} {x : Rat} {r : Int} : Rounds m x r ↔ roundScaled m x = r := by
  rcases le_total 0 x with hx | hx
  · exact rounds_iff_of_nonneg hx
  · rw [← rounds_neg, rounds_iff_of_nonneg (neg_nonneg.2 hx), roundScaled_neg, neg_inj]

/-! ### The scaled encoder's raw value -/

theorem toRat_of_noValue {c : Config} {v : FloatIn} (h : NoValue c v) : v.toRat c = none := by
  rcases h with rfl | rfl | rfl | ⟨bits, rfl, hb⟩
  · rfl
  · rfl
  · rfl
  · exact hb

theorem toRat_of_hasValue {c : Config} {v : FloatIn} {q : Rat} (h : HasValue c v q) : v.toRat c = some q := by
  rcases h with rfl | ⟨bits, rfl, hb⟩
  · rfl
  · exact hb

theorem scaledRaw_of_noValue {c : Config} {v : FloatIn} (h : NoValue c v) (inRange : Int → Bool) (k : Rat) :
    scaledRaw c inRange v k = .error .notFinite := by
  rw [scaledRaw, toRat_of_noValue h]

theorem scaledRaw_of_hasValue {c : Config} {v : FloatIn} {q k : Rat} {r : Int} (h : HasValue c v q)
    (hr : Rounds c.scaleRound (q * k) r) (inRange : Int → Bool) :
    scaledRaw c inRange v k = if inRange r then .ok r else .error .range := by
  rw [scaledRaw, toRat_of_hasValue h]
  simp only [rounds_iff.1 hr]

/-! ### What a move of PB and CUR does in a ready state -/

theorem faults_of_raiseFault {i : Instr} {r : FaultReason} {s : State} (h : s.Ready) (he : exec i s = raiseFault r s) :
    Faults i r s := by
  obtain ⟨-, hfault, -⟩ := h
  exact he.trans (raiseFault_eq hfault)

theorem stores_of_putBytes {i : Instr} {bs : Bytes} {s : State}
    (he : exec i s = .next ((s.putBytes bs).complete .ok .none)) : Stores i bs s :=
  ⟨_, he, Memory.read_writeBytes s.pb s.cur bs, rfl⟩

theorem appends_of_appendField {i : Instr} {domain : Bool} {bs : Bytes}
    (he : ∀ s, exec i s = hostOp domain s (appendField bs)) (hd : domain = true) : Appends i bs := by
  intro s h
  have hrun : exec i s = appendField bs s := (he s).trans (hostOp_run h hd)
  exact ⟨fun hover => faults_of_raiseFault h (hrun.trans (withRoom_overrun hover)),
    fun hfits => stores_of_putBytes (hrun.trans (appendField_fits hfits))⟩

theorem gets_of_getField {i : Instr} {domain : Bool} {w : Nat} {value : Bytes → OpResult}
    (he : ∀ s, exec i s = hostOp domain s (getField w value)) (hd : domain = true) : Gets i w value := by
  intro s h
  have hrun : exec i s = getField w value s := (he s).trans (hostOp_run h hd)
  refine ⟨fun hover => ?_, fun hfits hnone => ?_, fun hfits bs hlen hbytes => ?_⟩
  · exact faults_of_raiseFault h (hrun.trans (withRoom_overrun hover))
  · exact faults_of_raiseFault h (hrun.trans (getField_unwritten hfits (Memory.readBytes_eq_none.2 hnone)))
  · have hread : s.pb.readBytes s.cur w = some bs :=
      Memory.readBytes_eq_some.2 ⟨hlen, fun j hj => by rw [hbytes j (hlen ▸ hj), List.getElem?_eq_getElem hj]⟩
    exact hrun.trans (getField_reads hfits hread)

section
variable {s : State} {w : Nat} {inRange : Int → Bool} {bytes : Int → Bytes} {v : FloatIn} {k : Rat}

theorem appendScaled_of_error {e : FaultReason} (h : s.cur + w ≤ 256) (he : scaledRaw s.cfg inRange v k = .error e) :
    appendScaled w inRange bytes v k s = raiseFault e s := by
  rw [appendScaled, withRoom_fits h, he]

theorem appendScaled_of_ok {r : Int} (h : s.cur + w ≤ 256) (hw : (bytes r).length = w)
    (hr : scaledRaw s.cfg inRange v k = .ok r) :
    appendScaled w inRange bytes v k s = .next ((s.putBytes (bytes r)).complete .ok .none) := by
  rw [appendScaled, withRoom_fits h, hr]
  exact appendField_fits (hw ▸ h)

end

theorem appendsScaled_of_appendScaled {op : FloatIn → Rat → Instr} {w : Nat} {lo hi : Int} {inRange : Int → Bool}
    {bytes : Int → Bytes} (he : ∀ v k s, exec (op v k) s = hostOp (inScale k) s (appendScaled w inRange bytes v k))
    (hw : ∀ r, (bytes r).length = w) (hrange : ∀ r, inRange r = true ↔ lo ≤ r ∧ r ≤ hi) :
    AppendsScaled op w lo hi bytes := by
  refine ⟨fun s k h hk => ?_, fun s v k h hk => ?_⟩
  · have hrun : ∀ v, exec (op v k) s = appendScaled w inRange bytes v k s := fun v =>
      (he v k s).trans (hostOp_run h (inScale_iff.2 hk))
    refine ⟨fun hover v => ?_, fun hfits v hv => ?_, fun hfits v q r hv hr => ⟨fun hout => ?_, fun hlo hhi => ?_⟩⟩
    · exact faults_of_raiseFault h ((hrun v).trans (withRoom_overrun hover))
    · exact faults_of_raiseFault h ((hrun v).trans (appendScaled_of_error hfits (scaledRaw_of_noValue hv _ _)))
    · have hnot : ¬ inRange r = true := fun hin => by
        obtain ⟨hlo, hhi⟩ := (hrange r).1 hin
        omega
      have hraw := scaledRaw_of_hasValue hv hr inRange
      rw [if_neg hnot] at hraw
      exact faults_of_raiseFault h ((hrun v).trans (appendScaled_of_error hfits hraw))
    · have hraw := scaledRaw_of_hasValue hv hr inRange
      rw [if_pos ((hrange r).2 ⟨hlo, hhi⟩)] at hraw
      exact stores_of_putBytes ((hrun v).trans (appendScaled_of_ok hfits (hw r) hraw))
  · obtain ⟨hvalid, -, -⟩ := h
    have hscale : inScale k = false := Bool.eq_false_iff.2 fun hpos => (inScale_iff.1 hpos).not_ge hk
    exact (he v k s).trans (hostOp_illFormed hvalid hscale)

/-- Every operation that moves or skips `w` bytes is, in a ready state, a checked move of `w` bytes (R131). -/
theorem exec_eq_withRoom {i : Instr} {w : Nat} {s : State} (hw : width i = some w) (hwf : i.wf = true)
    (h : s.Ready) : ∃ f, exec i s = withRoom w s f := by
  cases i <;> cases hw
  all_goals
    rw [exec]
    exact ⟨_, hostOp_run h hwf⟩

section
variable {s : State} (h : s.Ready)
include h

theorem exec_fcClear_ready :
    exec .fcClear s = .next { s with pb := [], cur := 0, status := .ok, result := .none } := by
  rw [exec, execFcClear, hostOp_ready h]
  rfl

theorem exec_fcLoad_ready {str : Bytes} (hlen : str.length ≤ 256) :
    exec (.fcLoad str) s =
      .next { s with pb := Memory.ofBytes str, cur := 0, status := .ok, result := .none } := by
  rw [exec, execFcLoad, hostOp_run h (inLoad_iff.2 hlen)]
  rfl

theorem exec_fcSkip_ready {n : Int} (hlo : 0 ≤ n) (hhi : n ≤ 256) :
    exec (.fcSkip n) s = withRoom n.toNat s fun s =>
      .next { s with cur := s.cur + n.toNat, status := .ok, result := .none } := by
  rw [exec, execFcSkip, hostOp_run h (inSkip_iff.2 ⟨hlo, hhi⟩)]
  rfl

end

/-! ### The obligations -/

/-- Settles O9: FC_CLEAR, FC_LOAD and FC_SKIP run in a ready state; the skip's check is that of every move. -/
theorem bufferOps : Obligations.BufferOps := by
  intro s h
  have hvalid : s.cfg.valid = true := h.1
  refine ⟨⟨_, exec_fcClear_ready h, Memory.read_nil, rfl⟩, fun str hlen => ?_, fun str hlen => ?_, ?_,
    fun n hout => ?_, fun n hlo hhi => ⟨fun hover => ?_, fun hfits => ?_⟩⟩
  · exact ⟨_, exec_fcLoad_ready h hlen, Memory.read_ofBytes str, rfl⟩
  · rw [exec, execFcLoad, hostOp_illFormed hvalid (Bool.eq_false_iff.2 fun hin => (inLoad_iff.1 hin).not_gt hlen)]
  · exact (exec_fcLoad_ready h (Nat.zero_le _)).trans (exec_fcClear_ready h).symm
  · have hskip : ¬ inSkip n = true := fun hin => by
      obtain ⟨hlo, hhi⟩ := inSkip_iff.1 hin
      omega
    rw [exec, execFcSkip, hostOp_illFormed hvalid (Bool.eq_false_iff.2 hskip)]
  · exact faults_of_raiseFault h ((exec_fcSkip_ready h hlo hhi).trans (withRoom_overrun (by omega)))
  · exact (exec_fcSkip_ready h hlo hhi).trans (withRoom_fits (by omega))

/-- Settles O10: each APPEND writes its field's encoding, whose bytes are those of the rule's arithmetic. -/
theorem appendIntegers : Obligations.AppendIntegers := by
  refine ⟨fun v hlo hhi => ?_, fun v => ?_, fun v hlo hhi => ?_, fun v hlo hhi => ?_, fun v hlo hhi => ?_,
    fun v hlo hhi => ?_⟩
  · exact appends_of_appendField (fun _ => rfl) (inU8_iff.2 ⟨hlo, hhi⟩)
  · exact appends_of_appendField (fun _ => rfl) rfl
  · exact encode16_eq_two v ▸ appends_of_appendField (fun _ => rfl) (inS16_iff.2 ⟨hlo, hhi⟩)
  · exact encode16_eq_two v ▸ appends_of_appendField (fun _ => rfl) (inU16_iff.2 ⟨hlo, hhi⟩)
  · exact encode32_eq_four v ▸ appends_of_appendField (fun _ => rfl) (inS32_iff.2 ⟨hlo, hhi⟩)
  · exact encode32_eq_four v ▸ appends_of_appendField (fun _ => rfl) (inU32_iff.2 ⟨hlo, hhi⟩)

/-- Settles O11: each GET answers its reading, which is the rule's arithmetic on the bytes at CUR. -/
theorem getIntegers : Obligations.GetIntegers := by
  unfold Obligations.GetIntegers
  simp only [← readBool_eq, ← readS16_eq, ← readU16_eq, ← readS32_eq, ← readU32_eq]
  refine ⟨?_, ?_, ?_, ?_, ?_, ?_⟩ <;> exact gets_of_getField (fun _ => rfl) rfl

/-- Settles O12: a checked move past the buffer's end is Overrun, whatever the move would do. -/
theorem overrunCheckedFirst : Obligations.OverrunCheckedFirst := by
  intro i w s hw hwf h hover
  obtain ⟨f, hrun⟩ := exec_eq_withRoom hw hwf h
  exact faults_of_raiseFault h (hrun.trans (withRoom_overrun hover))

/-- Settles O14: the two widths of the scaled encoder, and the one rounding `rounds_iff` gives. -/
protected theorem appendScaled : Obligations.AppendScaled := by
  refine ⟨?_, ?_, fun m x => ⟨roundScaled m x, rounds_iff.2 rfl, fun r hr => (rounds_iff.1 hr).symm⟩⟩
  · rw [← funext encode16_eq_two]
    exact appendsScaled_of_appendScaled (fun _ _ _ => rfl) encode16_length fun _ => inS16_iff
  · rw [← funext encode32_eq_four]
    exact appendsScaled_of_appendScaled (fun _ _ _ => rfl) encode32_length fun _ => inS32_iff

/-- Settles O15: the scaled GETs are GETs of the signed readings, answered with their scale. -/
theorem getScaled : Obligations.GetScaled := by
  refine ⟨fun k hk => ⟨?_, ?_⟩, fun c raw k => ⟨rfl, rfl⟩⟩
  · simp only [← readS16_eq]
    exact gets_of_getField (fun _ => rfl) (inScale_iff.2 hk)
  · simp only [← readS32_eq]
    exact gets_of_getField (fun _ => rfl) (inScale_iff.2 hk)

end Sys2Proof.Claims

/-! PROOFS. The frame codec (42_frame_codec.md, R170 to R175): the machine's frame is the wire frame byte by byte, its
envelope and CRC checks are the rule's own predicates, and what PACK and UNPACK do in a ready state. -/

namespace Sys2Proof.Claims

open Sys2Proof.Machine

/-! ### The frame, byte by byte -/

theorem hi8_eq_ofNat (v : Half) : hi8 v = BitVec.ofNat 8 (v.toNat / 256) := by
  rw [hi8, BitVec.extractLsb', Nat.shiftRight_eq_div_pow]

theorem lo8_eq_ofNat (v : Half) : lo8 v = BitVec.ofNat 8 (v.toNat % 256) := by
  apply BitVec.eq_of_toNat_eq
  rw [lo8, BitVec.extractLsb'_toNat, BitVec.toNat_ofNat, Nat.shiftRight_zero, Nat.mod_mod]

theorem frame_eq_wireFrame (p : Bytes) : frame p = wireFrame p := by
  rw [frame_eq, hi8_eq_ofNat, lo8_eq_ofNat, crc16_toNat]
  rfl

/-! ### UNPACK's checks are the rule's -/

theorem getD_eq_iff_getElem? {raw : Bytes} {i : Nat} {b : Byte} (h : i < raw.length) :
    raw.getD i 0 = b ↔ raw[i]? = some b := by
  rw [List.getD_eq_getElem _ _ h, List.getElem?_eq_getElem h, Option.some_inj]

/-- At five bytes or more, each position the envelope reads lies within the string. -/
theorem envelopeOk_iff (raw : Bytes) : envelopeOk raw = true ↔ Envelope raw := by
  simp only [envelopeOk, Envelope, Bool.and_eq_true, decide_eq_true_eq, beq_iff_eq, and_assoc]
  refine and_congr_right fun hlen => and_congr_right fun _ => ?_
  have hlength : (raw.getD 1 0).toNat = raw.length - 5
      ↔ ∃ l : Byte, raw[1]? = some l ∧ l.toNat = raw.length - 5 := by
    rw [(getD_eq_iff_getElem? (by omega)).1 rfl]
    simp
  rw [getD_eq_iff_getElem? (by omega), getD_eq_iff_getElem? (by omega), hlength]
  rfl

theorem crc16_eq_frameCrc_iff (raw : Bytes) :
    crc16 (framePayload raw) = frameCrc raw ↔ crcBytes (payloadOf raw) = crcFieldOf raw := by
  rw [← BitVec.toNat_inj, crc16_toNat, frameCrc, be16_toNat]
  rfl

/-- The machine's answer is the one the rule gives, case by case. -/
theorem unpacks_unpack (raw : Bytes) : Unpacks raw (unpack raw).1 (unpack raw).2 := by
  rcases unpack_cases raw with ⟨henv, hres⟩ | ⟨henv, hcrc, hres⟩ | ⟨henv, hcrc, hres⟩ <;> rw [hres]
  · exact .inl ⟨fun hEnv => Bool.eq_false_iff.1 henv ((envelopeOk_iff raw).2 hEnv), rfl, rfl⟩
  · exact .inr (.inl ⟨(envelopeOk_iff raw).1 henv, mt (crc16_eq_frameCrc_iff raw).2 hcrc, rfl, rfl⟩)
  · exact .inr (.inr ⟨(envelopeOk_iff raw).1 henv, (crc16_eq_frameCrc_iff raw).1 hcrc, rfl, rfl⟩)

/-! ### What PACK and UNPACK do in a ready state -/

section
variable {s : State} (h : s.Ready)
include h

theorem exec_pack_tooLong (hlong : 255 < s.cur) :
    exec .pack s = .next { s with status := .payloadTooLong, result := .none } := by
  rw [exec, execPack, hostOp_ready h, payloadMax, if_pos hlong]
  rfl

theorem exec_pack_unwritten (hfits : s.cur ≤ 255) (hnone : s.pb.readBytes 0 s.cur = none) :
    exec .pack s = raiseFault .unwritten s := by
  rw [exec, execPack, hostOp_ready h, payloadMax, if_neg hfits.not_gt, hnone]

theorem exec_pack_frame {p : Bytes} (hfits : s.cur ≤ 255) (hread : s.pb.readBytes 0 s.cur = some p) :
    exec .pack s =
      .next { s with outq := s.outq ++ wireFrame p, status := .ok, result := .length (s.cur + 5) } := by
  rw [exec, execPack, hostOp_ready h, payloadMax, if_neg hfits.not_gt, hread, ← frame_eq_wireFrame]
  rfl

theorem exec_unpack_ready (raw : Bytes) :
    exec (.unpack raw) s =
      .next { s with status := (unpack raw).1, result := .unpacked (unpack raw).1 (unpack raw).2 } := by
  rw [exec, execUnpack, hostOp_ready h]
  rfl

end

/-! ### The obligations -/

/-- Settles O17: PACK's length check, then its read of the cells below CUR, which is all of them or none. -/
theorem packOutcomes : Obligations.PackOutcomes := by
  intro s h
  refine ⟨exec_pack_tooLong h, fun hfits ⟨a, ha, hnone⟩ => ?_, fun hfits p hlen hbytes => ?_⟩
  · have hread : s.pb.readBytes 0 s.cur = none :=
      Memory.readBytes_eq_none.2 ⟨a, ha, by rwa [Nat.zero_add]⟩
    exact faults_of_raiseFault h (exec_pack_unwritten h hfits hread)
  · have hread : s.pb.readBytes 0 s.cur = some p :=
      Memory.readBytes_eq_some.2 ⟨hlen, fun j hj => by
        rw [Nat.zero_add, hbytes j (hlen ▸ hj), List.getElem?_eq_getElem hj]⟩
    exact exec_pack_frame h hfits hread

/-- Settles O18: UNPACK answers what `unpack` gives, and that is what the rule's predicate says of `raw`. -/
theorem unpackOutcomes : Obligations.UnpackOutcomes :=
  fun _ raw h => ⟨_, _, unpacks_unpack raw, exec_unpack_ready h raw⟩

end Sys2Proof.Claims

/-! PROOFS. The frame receiver (43_frame_receiver.md, R190 to R216): which step an attempt's turn takes, what the byte
step and each wire row do, when the deadline ends an attempt, and how RECEIVE starts one. -/

namespace Sys2Proof.Claims

open Sys2Proof.Machine

/-! ### Which step an attempt's turn takes -/

section
variable {s u : State} {b : Byte} {ts : List Turn}

/-- The block's own turn of an attempt: one or the other winner of a race is scheduled, or nothing is. -/
theorem step_attemptTurn (hc : s.cfg.valid = true) (ha : s.rxState ≠ .inactive) (h : BlockTurn s ts) :
    ∃ w, step s = attemptStep w (s.turned ts s.freeIdx) := by
  rcases h with ⟨hnone, rfl⟩ | hsched | hsched
  · refine ⟨none, Eq.trans (step_unscheduled hc hnone) (Eq.trans (blockStep_attempt ha) ?_)⟩
    rw [State.turned, ← hnone]
  · exact ⟨_, Eq.trans (step_byteFirst hc hsched) (blockStep_attempt ha)⟩
  · exact ⟨_, Eq.trans (step_deadlineFirst hc hsched) (blockStep_attempt ha)⟩

/-- A turn of an attempt that answers a next state found no fault (R277). -/
theorem inAttempt_of_step {t : State} (ha : s.rxState ≠ .inactive) (hturn : BlockTurn s ts) (h : step s = .next t) :
    s.InAttempt := by
  obtain ⟨hc, -⟩ := step_cases h
  obtain ⟨w, hstep⟩ := step_attemptTurn hc ha hturn
  refine ⟨hc, ?_, ha⟩
  by_contra hne
  obtain ⟨r, hr⟩ := Option.ne_none_iff_exists'.1 hne
  have hstuck : attemptStep w (s.turned ts s.freeIdx) = .fault (.faulted r) := attemptStep_faulted hr
  cases h.symm.trans (hstep.trans hstuck)

theorem deadlinePassed_iff : deadlinePassed s = true ↔ s.t0 + s.cfg.rxDeadline ≤ s.now := decide_eq_true_iff

theorem deadlinePassed_eq_false (h : s.now < s.t0 + s.cfg.rxDeadline) : deadlinePassed s = false :=
  decide_eq_false h.not_ge

/-- The byte step that a byte's turn takes (R191). -/
theorem step_byteTurn (h : ByteTurn s b u) : step s = rxByteStep b u := by
  obtain ⟨⟨hc, hf, ha⟩, rest, ts, hinq, rfl, hturn⟩ := h
  have hbyte : ∃ w, step s = attemptStep w (s.turned ts s.freeIdx) ∧ (deadlinePassed s = false ∨ w = some false) := by
    rcases hturn with hsched | ⟨hearly, hblock⟩
    · exact ⟨_, Eq.trans (step_byteFirst hc hsched) (blockStep_attempt ha), .inr rfl⟩
    · obtain ⟨w, hw⟩ := step_attemptTurn hc ha hblock
      exact ⟨w, hw, .inl (deadlinePassed_eq_false hearly)⟩
  obtain ⟨w, hstep, hwins⟩ := hbyte
  rw [hstep]
  exact attemptStep_byte hf hinq hwins

/-- The deadline step that the deadline's turn takes (R191, R213). -/
theorem step_deadlineTurn (h : s.InAttempt) (hpassed : s.t0 + s.cfg.rxDeadline ≤ s.now)
    (hturn : s.schedule = .deadlineFirst :: ts ∨ (s.inq = [] ∧ BlockTurn s ts)) :
    step s = .next ({ s with schedule := ts }.endAttempt .timeout none) := by
  obtain ⟨hc, hf, ha⟩ := h
  have hdeadline : ∃ w, step s = attemptStep w (s.turned ts s.freeIdx) ∧ (s.inq = [] ∨ w = some true) := by
    rcases hturn with hsched | ⟨hinq, hblock⟩
    · exact ⟨_, Eq.trans (step_deadlineFirst hc hsched) (blockStep_attempt ha), .inr rfl⟩
    · obtain ⟨w, hw⟩ := step_attemptTurn hc ha hblock
      exact ⟨w, hw, .inl hinq⟩
  obtain ⟨w, hstep, hwins⟩ := hdeadline
  rw [hstep]
  exact attemptStep_deadline hf (deadlinePassed_iff.2 hpassed) hwins

/-- A turn of an attempt that does not wait takes the head of INQ, or ends the attempt with Timeout (R191). -/
theorem step_pending (h : s.InAttempt) (hturn : BlockTurn s ts)
    (hpending : s.inq ≠ [] ∨ s.t0 + s.cfg.rxDeadline ≤ s.now) :
    (∃ b rest n, s.inq = b :: rest ∧ step s = rxByteStep b { s.turned ts n with inq := rest })
      ∨ ∃ n, step s = .next ((s.turned ts n).endAttempt .timeout none) := by
  obtain ⟨hc, hf, ha⟩ := h
  obtain ⟨w, hstep⟩ := step_attemptTurn hc ha hturn
  rw [hstep]
  rcases hinq : s.inq with _ | ⟨b, rest⟩
  · have hpassed := hpending.resolve_left fun hne => hne hinq
    exact .inr ⟨s.freeIdx, attemptStep_deadline hf (deadlinePassed_iff.2 hpassed) (.inl hinq)⟩
  · rcases Nat.lt_or_ge s.now (s.t0 + s.cfg.rxDeadline) with hearly | hpassed
    · exact .inl ⟨b, rest, s.freeIdx, rfl, attemptStep_byte hf hinq (.inl (deadlinePassed_eq_false hearly))⟩
    · rcases w with _ | _ | _
      · have hrace := attemptStep_race (s := s.turned ts s.freeIdx) hf (deadlinePassed_iff.2 hpassed) hinq
        split at hrace
        · exact .inr ⟨s.freeIdx + 1, hrace⟩
        · exact .inl ⟨b, rest, s.freeIdx + 1, rfl, hrace⟩
      · exact .inl ⟨b, rest, s.freeIdx, rfl, attemptStep_byte hf hinq (.inr rfl)⟩
      · exact .inr ⟨s.freeIdx, attemptStep_deadline hf (deadlinePassed_iff.2 hpassed) (.inr rfl)⟩

end

/-! ### What a byte step and a move of the world leave -/

section
variable {s t : State} {b : Byte}

theorem rxStep_host (h : RxStep b s t) : t.host = s.host := by
  cases h <;> simp

theorem unpack_status_ne_timeout (raw : Bytes) : (unpack raw).1 ≠ .timeout := by
  rcases unpack_cases raw with ⟨-, h⟩ | ⟨-, -, h⟩ | ⟨-, -, h⟩ <;> simp [h]

/-- Only the deadline writes Timeout: a byte step keeps RX_RESULT or ends with another status. -/
theorem rxStep_rxResult (h : RxStep b s t) :
    t.rxResult = s.rxResult ∨ ∃ st pl, st ≠ .timeout ∧ t.rxResult = some (st, pl) := by
  cases h
  case overflow => exact .inr ⟨.bufferOverflow, none, by decide, rfl⟩
  case malformed => exact .inr ⟨.malformedFrame, none, by decide, rfl⟩
  case complete raw _ => exact .inr ⟨_, _, unpack_status_ne_timeout raw, rfl⟩
  all_goals exact .inl (by simp)

theorem worldStep_rxResult {m : WorldMove} (h : worldStep m s = .next t) :
    t.rxResult = s.rxResult ∨ t.rxResult = none := by
  cases m with
  | reset =>
    have hreset : execReset s = .next t := h
    unfold execReset at hreset
    split at hreset <;> cases hreset
    exact .inr rfl
  | _ => cases h; exact .inl rfl

end

/-! ### The wire rows -/

section
variable {s : State} {b : Byte}

/-- The frame's last byte written after the bytes held gives the whole frame (R198, R200). -/
theorem readBytes_write_end {m : Memory} {n : Nat} {raw : Bytes} (hlen : raw.length = n + 1)
    (hheld : ∀ j, j < n → m.read j = raw[j]?) (hlast : raw[n]? = some b) :
    (m.write n b).readBytes 0 (n + 1) = some raw := by
  refine Memory.readBytes_eq_some.2 ⟨hlen, fun j hj => ?_⟩
  rw [Nat.zero_add, Memory.read_write, ← List.getElem?_eq_getElem hj]
  split
  · next heq => rw [heq, hlast]
  · exact hheld j (by omega)

/-- END_MARK on a frame whose other bytes are held (R199, R200). -/
theorem exec_endMark_run (hc : s.cfg.valid = true) (hf : s.fault = none) (hs : s.rxState = .body)
    (hx : s.rxExpect = some (s.rxCount + 1)) (hn : s.rxCount < 261) {raw : Bytes} (hlen : raw.length = s.rxCount + 1)
    (hheld : ∀ j, j < s.rxCount → s.rb.read j = raw[j]?) (hlast : raw[s.rxCount]? = some 0x03) :
    exec .endMark s = .next ((s.storeBody endMarkByte).endAttempt (unpack raw).1 (unpack raw).2) :=
  execEndMark_run hc hf (atFrameEnd_iff.2 ⟨hs, hx⟩) hn (readBytes_write_end hlen hheld hlast)

/-- A rejected candidate's two cells hold nothing (R196). -/
theorem read_erase_candidate (m : Memory) (b : Byte) (x : Nat) :
    (((m.write 1 b).erase 0).erase 1).read x = if x = 0 then none else if x = 1 then none else m.read x := by
  rw [Memory.read_erase, Memory.read_erase, Memory.read_write]
  by_cases h0 : x = 0
  · simp [h0]
  · by_cases h1 : x = 1 <;> simp [h0, h1]

/-- The rejection R194 and R195 share, the diagnostic bits and the event left open. -/
theorem rejected_rejectCandidate (d : RxDiag) (e : DiagEvent) :
    Rejected s b d e ({ s.storeSecond b with rxDiag := d, diagq := s.diagqAfter e }.rejectCandidate b) := by
  by_cases hb : b = startShort
  · subst hb
    rw [State.rejectCandidate_restart]
    refine ⟨fun x => ?_, rfl⟩
    rw [Memory.read_write, State.storeSecond_rb, read_erase_candidate]
    by_cases h0 : x = 0 <;> simp [h0, startShort]
  · rw [State.rejectCandidate_hunt _ _ hb]
    have hnot : ¬ b = 0x02 := hb
    refine ⟨fun x => ?_, ?_⟩
    · rw [State.storeSecond_rb, read_erase_candidate, if_neg hnot]
    · rw [if_neg hnot, if_neg hnot]
      rfl

end

/-! ### The byte step in each state of the receiver -/

section
variable {s u : State} {b : Byte} (h : ByteTurn s b u)
include h

theorem step_startCandidate (hstart : s.rxState = .idle ∨ (s.rxState = .hunt ∧ b = 0x02)) :
    step s = .next (u.startCandidate b) := by
  rw [step_byteTurn h]
  obtain ⟨-, rest, ts, -, rfl, -⟩ := h
  rcases hstart with hidle | ⟨hhunt, rfl⟩
  · exact rxByteStep_idle hidle
  · exact rxByteStep_huntStart hhunt

theorem step_huntSkip (hs : s.rxState = .hunt) (hb : b ≠ 0x02) : step s = .next u := by
  rw [step_byteTurn h]
  obtain ⟨-, rest, ts, -, rfl, -⟩ := h
  exact rxByteStep_huntSkip hs hb

theorem step_header (hs : s.rxState = .header) {a : Byte} (h0 : s.rb.read 0 = some a) :
    step s = exec (if a = 0x02 then .frameShort b else if a = 0x03 then .frameLong b else .startInvalid a b) u := by
  rw [step_byteTurn h]
  obtain ⟨-, rest, ts, -, rfl, -⟩ := h
  refine Eq.trans (rxByteStep_header hs) (Eq.trans (headerByte_eq h0) ?_)
  simp only [apply_ite exec, ite_apply]
  rfl

theorem step_malformed (hs : s.rxState = .body) (hx : s.rxExpect = some (s.rxCount + 1)) (hb : b ≠ 0x03)
    (hn : s.rxCount < 261) : step s = .next ((u.storeBody b).endAttempt .malformedFrame none) := by
  rw [step_byteTurn h]
  obtain ⟨-, rest, ts, -, rfl, -⟩ := h
  exact Eq.trans (rxByteStep_malformed hs hx hb) (malformedByte_ends hn)

theorem step_inner (hs : s.rxState = .body) (hx : s.rxExpect ≠ some (s.rxCount + 1)) : step s = innerByte b u := by
  rw [step_byteTurn h]
  obtain ⟨-, rest, ts, -, rfl, -⟩ := h
  exact rxByteStep_inner hs hx

end

theorem step_endMark {s u : State} (h : ByteTurn s 0x03 u) (hs : s.rxState = .body)
    (hx : s.rxExpect = some (s.rxCount + 1)) : step s = exec .endMark u := by
  rw [step_byteTurn h]
  obtain ⟨-, rest, ts, -, rfl, -⟩ := h
  exact rxByteStep_end hs hx

/-! ### The last byte of a frame -/

/-- The receiver holds all of a payload's frame but its end marker. -/
def HoldsAllButLast (s : State) (p : Bytes) : Prop :=
  s.rxState = .body ∧ s.rxCount = p.length + 4 ∧ s.rxExpect = some (p.length + 5)
    ∧ ∀ a, a < p.length + 4 → s.rb.read a = (wireFrame p)[a]?

/-- Taking the end marker ends the attempt with OK and the payload (R177, R200). -/
theorem rxByteStep_completes {s : State} {p : Bytes} (hc : s.cfg.valid = true) (hf : s.fault = none)
    (hp : p.length ≤ 255) (h : HoldsAllButLast s p) :
    rxByteStep 0x03 s = .next ((s.storeBody 0x03).endAttempt .ok (some p)) := by
  obtain ⟨hs, hn, hx, hheld⟩ := h
  have hx' : s.rxExpect = some (s.rxCount + 1) := by rw [hx, hn]
  have hlen : (wireFrame p).length = s.rxCount + 1 := by rw [hn, ← frame_eq_wireFrame, frame_length]
  have hlast : (wireFrame p)[s.rxCount]? = some 0x03 := by
    rw [hn]
    simp [wireFrame]
  have hend := exec_endMark_run hc hf hs hx' (by omega) hlen (hn ▸ hheld) hlast
  rw [← frame_eq_wireFrame, unpack_frame_of_length hp] at hend
  exact (rxByteStep_end hs hx').trans hend

/-! ### What RECEIVE does in a ready state -/

theorem exec_receive_ready {s : State} (h : s.Ready) : exec .receive s = .next s.startAttempt := by
  rw [exec, execReceive, hostOp_ready h]

/-! ### The obligations -/

/-- Settles O24: the two rows share the rejection, and the byte step in HEADER runs the row of the start byte. -/
theorem rejectRows : Obligations.RejectRows := by
  intro s b hc hf
  refine ⟨fun hs h0 => ?_, fun hs h0 u hu => step_header hu hs h0, fun a hshort hlong => ⟨fun hs h0 => ?_, ?_⟩⟩
  · exact ⟨_, execFrameLong_run hc hf hs h0 b, rejected_rejectCandidate _ _⟩
  · have hinvalid : isInvalidStart a = true := isInvalidStart_iff.2 ⟨hshort, hlong⟩
    exact ⟨_, execStartInvalid_run hc hf hs h0 hinvalid b, rejected_rejectCandidate _ _⟩
  · intro hs h0 u hu
    have hstep := step_header hu hs h0
    rwa [if_neg hshort, if_neg hlong] at hstep

/-- Settles O25: with the end marker stored RB reads as the whole frame, and UNPACK answers what the rule gives. -/
theorem endMarkRow : Obligations.EndMarkRow := by
  intro s hc hf
  refine ⟨fun hs hx hn raw hlen hheld hlast => ?_, fun hs hx u hu => step_endMark hu hs hx⟩
  exact ⟨_, _, _, exec_endMark_run hc hf hs hx hn hlen hheld hlast, unpacks_unpack raw,
    Memory.read_write s.rb s.rxCount 0x03, rfl⟩

/-- Settles O26: each clause is the byte step in one state of the receiver, and a stored byte is one cell of RB. -/
theorem byteStepInFull : Obligations.ByteStepInFull := by
  intro s b u h
  have hstores : ∀ a, RbStores s a b { u with rb := u.rb.write a b } := by
    obtain ⟨-, rest, ts, -, rfl, -⟩ := h
    exact fun a => Memory.read_write s.rb a b
  have hcount : u.rxCount = s.rxCount := by
    obtain ⟨-, rest, ts, -, rfl, -⟩ := h
    rfl
  refine ⟨fun hstart => ?_, step_huntSkip h, fun hs a h0 => step_header h hs h0, fun hs hx hb => ?_,
    fun hs hx hb hn => ?_, fun hs hx hn => ?_, fun hs hx hn => ?_⟩
  · exact ⟨_, step_startCandidate h hstart, hstores 0, rfl⟩
  · exact step_endMark (hb ▸ h) hs hx
  · rw [← hcount]
    exact ⟨_, step_malformed h hs hx hb hn, hstores u.rxCount, rfl⟩
  · rw [← hcount] at hn ⊢
    exact ⟨_, (step_inner h hs hx).trans (innerByte_stores hn), hstores u.rxCount, rfl⟩
  · rw [← hcount] at hn ⊢
    rw [← hn]
    exact ⟨_, (step_inner h hs hx).trans (innerByte_overflows hn), hstores u.rxCount, rfl⟩

/-- Settles O27: the deadline's turn runs the deadline step, and of all steps of a run that step alone writes Timeout. -/
protected theorem deadlineStep : Obligations.DeadlineStep := by
  refine ⟨fun s ts h hpassed hturn => step_deadlineTurn h hpassed hturn, fun s t hinv ha hstep htimeout => ?_⟩
  obtain ⟨hopen, -, -⟩ := hinv.attemptOpen ha
  obtain ⟨-, hcase⟩ := step_cases hstep
  cases hcase with
  | deadline _ _ _ _ hpassed => exact hpassed
  | op hs => exact absurd hs ha
  | read hs => exact absurd hs ha
  | noOp hs => exact absurd hs ha
  | wait ts n =>
    have hkept : s.rxResult = some (.timeout, none) := htimeout
    simp [hopen] at hkept
  | world ts n m _ hw =>
    have hnone : t.rxResult = none := (worldStep_rxResult hw).elim (·.trans hopen) id
    simp [hnone] at htimeout
  | byte _ _ ts n b rest _ _ hbyte =>
    rcases rxStep_rxResult hbyte with hkept | ⟨st, pl, hst, hended⟩
    · simp [hkept.trans hopen] at htimeout
    · rw [hended] at htimeout
      cases htimeout
      exact absurd rfl hst

/-- Settles O28: the byte's turn completes the frame, the deadline's turn times out, and an unscheduled turn is one of
the two. -/
theorem deadlineRace : Obligations.DeadlineRace := by
  intro s p rest ts hattempt hs hp hn hx hheld hinq hpassed
  obtain ⟨hc, hf, ha⟩ := hattempt
  have hholds : HoldsAllButLast s p := ⟨hs, hn, hx, hheld⟩
  refine ⟨?_, ?_, ?_⟩
  · have hturn : ByteTurn { s with schedule := .byteFirst :: ts } 0x03 { s with inq := rest, schedule := ts } :=
      ⟨⟨hc, hf, ha⟩, rest, ts, hinq, rfl, .inl rfl⟩
    exact ⟨_, (step_byteTurn hturn).trans (rxByteStep_completes hc hf hp hholds), rfl, rfl⟩
  · exact ⟨_, step_deadlineTurn ⟨hc, hf, ha⟩ hpassed (.inl rfl), rfl, rfl⟩
  · rcases step_pending (s := { s with schedule := [] }) ⟨hc, hf, ha⟩ (.inl ⟨rfl, rfl⟩) (.inr hpassed) with
      ⟨b, rest', n, hinq', hstep⟩ | ⟨n, hstep⟩
    · obtain ⟨rfl, rfl⟩ : 0x03 = b ∧ rest = rest' := List.cons.inj (hinq.symm.trans hinq')
      exact ⟨_, hstep.trans (rxByteStep_completes hc hf hp hholds), .inl rfl⟩
    · exact ⟨_, hstep, .inr rfl⟩

/-- Settles O22: RECEIVE's effect in a ready state; a step of the attempt takes a byte or ends it, and a line's operation
runs in a ready state only. -/
theorem receiveStartsAttempt : Obligations.ReceiveStartsAttempt := by
  intro s h
  refine ⟨_, exec_receive_ready h, Memory.read_nil, rfl, fun u v ts ha hturn hpending hstep => ?_,
    fun u v text i ha hdec hi hexec => ?_⟩
  · have hattempt : u.InAttempt := inAttempt_of_step ha hturn hstep
    rcases step_pending hattempt hturn hpending with ⟨b, rest, n, -, hbyte⟩ | ⟨n, hdeadline⟩
    · exact (rxStep_host (rxByteStep_cases (hbyte.symm.trans hstep))).trans rfl
    · cases hdeadline.symm.trans hstep
      rfl
  · obtain ⟨-, -, hidle⟩ := lineOp_ready (decodeLine_isLineOp hdec) hi hexec
    exact ha hidle

/-- Settles O23: FRAME_SHORT's effect, and the byte step in HEADER with start byte 0x02 runs it. -/
theorem frameShortRow : Obligations.FrameShortRow := by
  intro s len hc hf
  refine ⟨fun hs h0 => ?_, fun hs h0 u hu => step_header hu hs h0⟩
  exact ⟨_, execFrameShort_run hc hf hs h0 len, Memory.read_write s.rb 1 len, rfl⟩

end Sys2Proof.Claims

/-! PROOFS. The command decoder (44_command_decoder.md, R230 to R250): a command's payload row and the DECODE of the
same payload do one thing, what that leaves in each telemetry field, and SET_NUNCHUCK. -/

namespace Sys2Proof.Claims

open Sys2Proof.Machine

/-! ### The rows of the dispatch table (R232) -/

/-- The dialect of a command's row. -/
def commandDialect : Command → Dialect
  | .fwVersion | .getValuesSetupSelective | .getDecodedPpm => .mc
  | .bmsGetValues | .bmsGetBmsCells => .bms

/-- The id of a command's row. -/
def commandId (c : Config) : Command → Byte
  | .fwVersion => c.cmdFwVersion
  | .getValuesSetupSelective => c.cmdGetValuesSetupSelective
  | .getDecodedPpm => c.cmdGetDecodedPpm
  | .bmsGetValues => c.cmdBmsGetValues
  | .bmsGetBmsCells => c.cmdBmsGetBmsCells

/-- The operation of a command's row. -/
def commandRow : Command → Bytes → Instr
  | .fwVersion => .cmdFwVersion
  | .getValuesSetupSelective => .cmdGetValuesSetupSelective
  | .getDecodedPpm => .cmdGetDecodedPpm
  | .bmsGetValues => .cmdBmsGetValues
  | .bmsGetBmsCells => .cmdBmsGetBmsCells

theorem exec_commandRow (k : Command) (fields : Bytes) (s : State) :
    exec (commandRow k fields) s
      = hostOp (inFields fields) s fun s => .next (runCommand k (commandId s.cfg k :: fields) s) := by
  cases k <;> rfl

/-- A valid configuration's ids are distinct within a dialect (R10), so no earlier row takes a command's id. -/
theorem dispatch_commandId {c : Config} (hc : c.valid = true) (k : Command) :
    dispatch c (commandDialect k) (commandId c k) = some k := by
  simp only [Config.valid, Bool.and_eq_true, bne_iff_ne, ne_eq] at hc
  obtain ⟨⟨⟨hfwSetup, hfwPpm⟩, hsetupPpm⟩, hbms⟩ := hc
  cases k with
  | fwVersion => exact if_pos rfl
  | getValuesSetupSelective => exact (if_neg (Ne.symm hfwSetup)).trans (if_pos rfl)
  | getDecodedPpm =>
    exact (if_neg (Ne.symm hfwPpm)).trans ((if_neg (Ne.symm hsetupPpm)).trans (if_pos rfl))
  | bmsGetValues => exact if_pos rfl
  | bmsGetBmsCells => exact (if_neg (Ne.symm hbms)).trans (if_pos rfl)

theorem commandDialect_of_dispatch {c : Config} {d : Dialect} {id : Byte} {k : Command}
    (h : dispatch c d id = some k) : commandDialect k = d := by
  cases d <;>
  · simp only [dispatch] at h
    split_ifs at h <;> cases h <;> rfl

theorem dispatch_eq_none_iff {c : Config} {d : Dialect} {id : Byte} :
    dispatch c d id = none ↔ id ∉ decodedIds c d := by
  cases d <;>
  · simp only [dispatch, decodedIds]
    split_ifs <;> simp [*]

theorem isUnknown_iff {c : Config} {d : Dialect} {p : Bytes} :
    isUnknown c d p = true ↔ ∀ id ∈ p.head?, id ∉ decodedIds c d := by
  cases p <;> simp [isUnknown, dispatch_eq_none_iff]

theorem commandRow_of_mem_decodedRows {c : Config} {d : Dialect} {id : Byte} {min : Nat} {op : Bytes → Instr}
    (h : (d, id, min, op) ∈ decodedRows c) :
    ∃ k, d = commandDialect k ∧ id = commandId c k ∧ min = minLen k ∧ op = commandRow k := by
  simp only [decodedRows, List.mem_cons, List.not_mem_nil, or_false, Prod.mk.injEq] at h
  rcases h with h | h | h | h | h
  · exact ⟨.fwVersion, h⟩
  · exact ⟨.getValuesSetupSelective, h⟩
  · exact ⟨.getDecodedPpm, h⟩
  · exact ⟨.bmsGetValues, h⟩
  · exact ⟨.bmsGetBmsCells, h⟩

/-! ### Everything DECODE can do -/

theorem inPayload_iff {p : Bytes} : inPayload p = true ↔ p.length ≤ 255 := by simp [inPayload]
theorem inFields_iff {fields : Bytes} : inFields fields = true ↔ fields.length ≤ 254 := by simp [inFields]

theorem runCommand_short {k : Command} {p : Bytes} (h : p.length < minLen k) (s : State) :
    runCommand k p s = s.complete .payloadTooShort (.decoded .payloadTooShort []) := if_pos h

theorem runCommand_writes {k : Command} {p : Bytes} (h : minLen k ≤ p.length) (s : State) :
    runCommand k p s = (writeFields k p s).complete .ok (.decoded .ok (touchedBy k)) := if_neg (Nat.not_lt.2 h)

theorem decodeBody_dispatched {s : State} {d : Dialect} {id : Byte} {k : Command} (h : dispatch s.cfg d id = some k)
    (fields : Bytes) : decodeBody d (id :: fields) s = runCommand k (id :: fields) s := by
  simp only [decodeBody, h]

theorem decodeBody_unknown {s : State} {d : Dialect} {p : Bytes} (h : isUnknown s.cfg d p = true) :
    decodeBody d p s = s.unsupported := by
  cases p with
  | nil => rfl
  | cons id fields =>
    have hnone : dispatch s.cfg d id = none := Option.isNone_iff_eq_none.1 h
    simp only [decodeBody, hnone]

/-- DECODE writes nothing and answers a status other than OK, or writes the fields of a command of its dialect. -/
theorem decodeBody_cases (d : Dialect) (p : Bytes) (s : State) :
    (∃ st, st ≠ .ok ∧ decodeBody d p s = s.complete st (.decoded st []))
      ∨ ∃ k, commandDialect k = d
        ∧ decodeBody d p s = (writeFields k p s).complete .ok (.decoded .ok (touchedBy k)) := by
  rcases p with _ | ⟨id, fields⟩
  · exact .inl ⟨.unsupportedCommand, by decide, rfl⟩
  · rcases hk : dispatch s.cfg d id with _ | k
    · exact .inl ⟨.unsupportedCommand, by decide, decodeBody_unknown (Option.isNone_iff_eq_none.2 hk)⟩
    · rw [decodeBody_dispatched hk]
      rcases Nat.lt_or_ge (id :: fields).length (minLen k) with hshort | hlong
      · exact .inl ⟨.payloadTooShort, by decide, runCommand_short hshort s⟩
      · exact .inr ⟨k, commandDialect_of_dispatch hk, runCommand_writes hlong s⟩

/-! ### A command's payload, by DECODE and by its own row -/

section
variable {s : State} {k : Command} {fields : Bytes} {i : Instr} (h : s.Ready)
  (hi : i = .decode (commandDialect k) (commandId s.cfg k :: fields) ∨ i = commandRow k fields)
include h hi

theorem exec_command (hlen : fields.length ≤ 254) :
    exec i s = .next (runCommand k (commandId s.cfg k :: fields) s) := by
  rcases hi with rfl | rfl
  · have hpayload : inPayload (commandId s.cfg k :: fields) = true := inPayload_iff.2 (Nat.succ_le_succ hlen)
    have hvalid : s.cfg.valid = true := h.1
    rw [exec, execDecode, hostOp_run h hpayload, decodeBody_dispatched (dispatch_commandId hvalid k)]
  · rw [exec_commandRow, hostOp_run h (inFields_iff.2 hlen)]

theorem exec_command_writes (hmin : minLen k ≤ fields.length + 1) (hlen : fields.length ≤ 254) :
    exec i s = .next ((writeFields k (commandId s.cfg k :: fields) s).complete .ok (.decoded .ok (touchedBy k))) := by
  rw [exec_command h hi hlen, runCommand_writes hmin]

end

theorem minLen_le (k : Command) : minLen k ≤ 30 := by cases k <;> decide

/-- R235 for every row of the dispatch table. -/
theorem tooShort_command (k : Command) : TooShort (commandDialect k) (commandId · k) (minLen k) (commandRow k) := by
  intro s fields i h hshort hi
  have hmin := minLen_le k
  rw [exec_command h hi (by omega), runCommand_short (p := commandId s.cfg k :: fields) hshort]
  rfl

/-! ### The readers at the layouts' offsets (R154) -/

theorem s16at_eq (p : Bytes) (i : Nat) : s16at p i = s16 (p.getD i 0) (p.getD (i + 1) 0) := by
  simp [s16at, readS16_eq]

theorem s32at_eq (p : Bytes) (i : Nat) :
    s32at p i = s32 (p.getD i 0) (p.getD (i + 1) 0) (p.getD (i + 2) 0) (p.getD (i + 3) 0) := by
  simp [s32at, readS32_eq]

theorem s16at_cons_succ (b : Byte) (p : Bytes) (i : Nat) : s16at (b :: p) (i + 1) = s16at p i := rfl

/-- The 16-bit reading at the `j`-th pair of a string of byte pairs. -/
theorem s16at_flatMap_pair {α : Type} (pair : α → Byte × Byte) (rest : Bytes) (l : List α) (j : Nat)
    (hj : j < l.length) :
    s16at (l.flatMap (fun a => [(pair a).1, (pair a).2]) ++ rest) (2 * j) = s16 (pair l[j]).1 (pair l[j]).2 := by
  induction l generalizing j with
  | nil => exact absurd hj (Nat.not_lt_zero j)
  | cons a l ih =>
    cases j with
    | zero => exact s16at_eq _ 0
    | succ j => exact ih j (Nat.lt_of_succ_lt_succ hj)

theorem s16at_cell (id n : Byte) (cells : Fin 12 → Byte × Byte) (rest : Bytes) (j : Fin 12) :
    s16at (id :: (n :: (List.finRange 12).flatMap (fun j => [(cells j).1, (cells j).2]) ++ rest)) (2 + 2 * j.val)
      = s16 (cells j).1 (cells j).2 := by
  have hpair := s16at_flatMap_pair cells rest (List.finRange 12) j (by simp)
  rw [Nat.add_comm, List.cons_append, s16at_cons_succ, s16at_cons_succ]
  simpa using hpair

/-! ### What a command leaves in each telemetry field -/

/-- The raw value a payload gives a field, where its command writes the field (R89 to R93). -/
def fieldOf (p : Bytes) : TelemetryField → Int
  | .fwMajor => (u8at p 1).toNat
  | .fwMinor => (u8at p 2).toNat
  | .tempMotor => s16at p 5
  | .avgMotorCurrent => s32at p 7
  | .avgInputCurrent => s32at p 11
  | .rpm => s32at p 15
  | .inputVoltage => s16at p 19
  | .wattHours => s32at p 21
  | .wattHoursCharged => s32at p 25
  | .faultCode => (u8at p 29).toNat
  | .throttle => s32at p 1
  | .soc => (u8at p 9).toNat
  | .cellCount => (u8at p 1).toNat
  | .cellVoltage i => s16at p (2 + 2 * i.val)

/-- A command writes its touched set and no other field (R237). -/
theorem rawOf_writeFields (k : Command) (p : Bytes) (f : TelemetryField) (s : State) :
    rawOf f (writeFields k p s) = if f ∈ touchedBy k then some (fieldOf p f) else rawOf f s := by
  cases k with
  | bmsGetBmsCells => cases f <;> simp [rawOf, writeFields, writeBmsCells, touchedBy, fieldOf]
  | _ => cases f <;> rfl

@[simp] theorem rawOf_complete (f : TelemetryField) (st : Status) (r : OpResult) (s : State) :
    rawOf f (s.complete st r) = rawOf f s := by cases f <;> rfl

theorem writeFields_otherSnap (k : Command) (p : Bytes) (s : State) :
    (commandDialect k = .mc → (writeFields k p s).bmsSnap = s.bmsSnap)
      ∧ (commandDialect k = .bms → (writeFields k p s).mcSnap = s.mcSnap) := by
  cases k <;> simp [commandDialect, writeFields]

/-- A command writes the snapshots only. -/
theorem writeFields_frame (k : Command) (p : Bytes) (s : State) :
    writeFields k p s
      = { s with mcSnap := (writeFields k p s).mcSnap, bmsSnap := (writeFields k p s).bmsSnap } := by
  cases k <;> rfl

theorem telemetryValue_of_rawOf {f : TelemetryField} {s : State} {raw : Int} (h : rawOf f s = some raw) :
    telemetryValue f s = some (raw / scaleOf f) := by
  rw [telemetryValue, h]
  rfl

/-! ### The obligations -/

/-- Settles O37: the row's write at the layout's offsets, the mask and the tail being read by none of the readers. -/
theorem decodeSetupSelective : Obligations.DecodeSetupSelective := by
  refine ⟨?_, tooShort_command .getValuesSetupSelective⟩
  intro s m0 m1 m2 m3 h0 h1 a0 a1 a2 a3 i0 i1 i2 i3 r0 r1 r2 r3 v0 v1 w0 w1 w2 w3 c0 c1 c2 c3 f
    rest fields i h hf hlen hi
  have hmin : minLen .getValuesSetupSelective ≤ fields.length + 1 := by simp [hf, minLen]
  refine ⟨_, exec_command_writes (k := .getValuesSetupSelective) h hi hmin hlen, ?_⟩
  subst hf
  simp only [writeFields, writeSetupSelective, s16at_eq, s32at_eq]
  have hrpm {t : State} {raw : Int} (hraw : rawOf .rpm t = some raw) : telemetryValue .rpm t = some (raw : Rat) :=
    (telemetryValue_of_rawOf hraw).trans (congrArg some (div_one _))
  exact ⟨rfl, telemetryValue_of_rawOf rfl, telemetryValue_of_rawOf rfl, telemetryValue_of_rawOf rfl, hrpm rfl,
    telemetryValue_of_rawOf rfl, telemetryValue_of_rawOf rfl, telemetryValue_of_rawOf rfl⟩

/-- Settles O40: the row's write, each cell's two bytes found by `s16at_cell`. -/
theorem decodeBmsCells : Obligations.DecodeBmsCells := by
  refine ⟨?_, tooShort_command .bmsGetBmsCells⟩
  intro s n cells rest fields i h hf hlen hi
  have hmin : minLen .bmsGetBmsCells ≤ fields.length + 1 := by simp [hf, minLen]
  refine ⟨_, exec_command_writes (k := .bmsGetBmsCells) h hi hmin hlen, ?_⟩
  subst hf
  simp only [writeFields, writeBmsCells, s16at_cell]
  refine ⟨rfl, fun j => telemetryValue_of_rawOf ?_⟩
  simp [rawOf]

/-- Settles O42: both operations answer as DECODE does on a payload no row of the dispatch table takes. -/
theorem unsupportedChangesNothing : Obligations.UnsupportedChangesNothing := by
  intro s d p h hlen hids
  have hunknown : isUnknown s.cfg d p = true := isUnknown_iff.2 hids
  have hpayload : inPayload p = true := inPayload_iff.2 hlen
  constructor
  · rw [Unsupported, exec, execDecode, hostOp_run h hpayload, decodeBody_unknown hunknown]
    rfl
  · rw [Unsupported, exec, execCmdUnknown, hostOp_run h (by rw [hpayload, hunknown]; rfl)]
    rfl

/-- Settles O45: the two ways a DECODE goes, and what a command's write leaves in each field. -/
theorem decodeAtomic : Obligations.DecodeAtomic := by
  intro s t d p hexec
  obtain ⟨-, -, hnext⟩ := hostOp_eq_next (show execDecode d p s = .next t from hexec)
  obtain rfl : decodeBody d p s = t := by cases hnext; rfl
  rcases decodeBody_cases d p s with ⟨st, hst, hbody⟩ | ⟨k, rfl, hbody⟩
  · rw [hbody]
    exact ⟨[], rfl, fun _ => ⟨rfl, rfl, rfl⟩, fun f hf => absurd hf List.not_mem_nil,
      fun f _ => rawOf_complete f _ _ s, fun _ => rfl, fun _ => rfl, rfl⟩
  · rw [hbody]
    obtain ⟨hmc, hbms⟩ := writeFields_otherSnap k p s
    refine ⟨touchedBy k, rfl, fun hst => absurd rfl hst, fun f hf => ?_, fun f hf => ?_, hmc, hbms, ?_⟩
    · simp [rawOf_writeFields, hf]
    · simp [rawOf_writeFields, hf]
    · exact congrArg (State.complete .ok (.decoded .ok (touchedBy k))) (writeFields_frame k p s)

/-- Settles O36: the row's write of the first two bytes after the id. -/
theorem decodeFwVersion : Obligations.DecodeFwVersion := by
  refine ⟨?_, tooShort_command .fwVersion⟩
  rintro s b1 b2 rest fields i h rfl hlen hi
  exact exec_command_writes (k := .fwVersion) h hi (by simp [minLen]) hlen

/-- Settles O38: the row's write of the signed word after the id. -/
theorem decodeDecodedPpm : Obligations.DecodeDecodedPpm := by
  refine ⟨?_, tooShort_command .getDecodedPpm⟩
  rintro s b0 b1 b2 b3 rest fields i h rfl hlen hi
  refine ⟨_, exec_command_writes (k := .getDecodedPpm) h hi (by simp [minLen]) hlen, ?_⟩
  simp only [writeFields, writeDecodedPpm, s32at_eq]
  exact ⟨rfl, telemetryValue_of_rawOf rfl⟩

/-- Settles O39: the row's write of the ninth byte after the id. -/
theorem decodeBmsValues : Obligations.DecodeBmsValues := by
  refine ⟨?_, tooShort_command .bmsGetValues⟩
  rintro s skipped rest fields b i h hskipped rfl hlen hi
  have hsoc : u8at (s.cfg.cmdBmsGetValues :: (skipped ++ b :: rest)) 9 = b := by
    simp [u8at, List.getD_eq_getElem?_getD, hskipped]
  have hmin : minLen .bmsGetValues ≤ (skipped ++ b :: rest).length + 1 := by
    rw [List.length_append, List.length_cons, hskipped, minLen]
    omega
  rw [exec_command_writes (k := .bmsGetValues) h hi hmin hlen]
  simp only [writeFields, writeBmsValues, commandId, hsoc]
  rfl

/-- Settles O41: every row of the table is a command's. -/
theorem shortPayloadWritesNothing : Obligations.ShortPayloadWritesNothing := by
  intro s d id min op fields i h hrow hshort hi
  obtain ⟨k, rfl, rfl, rfl, rfl⟩ := commandRow_of_mem_decodedRows hrow
  exact tooShort_command k s fields i h hshort hi

/-- Settles O47: both coordinates lie in their domain, where the operand's byte is the natural number's. -/
theorem setNunchuckCompletes : Obligations.SetNunchuckCompletes := by
  intro s x y lower upper h hx hy
  have hdomain : (inU8 x && inU8 y) = true := by simp [inU8_iff, hx, hy]
  rw [exec, execSetNunchuck, hostOp_run h hdomain, wrap8, wrap8, BitVec.ofInt_natCast, BitVec.ofInt_natCast]
  rfl

end Sys2Proof.Claims

/-! PROOFS. Faults (60_exceptions.md, R275 to R277): the guard each operation runs under, that a fault leaves every
register but FAULT as it was, and that a faulted block does nothing but RESET. -/

namespace Sys2Proof.Claims

open Sys2Proof.Machine

/-! ### The guard of each operation -/

/-- What follows a guarded operation runs under its guard. -/
theorem andThen_hostOp {domain : Bool} {s : State} {f g : State → Out} :
    andThen (hostOp domain s f) g = hostOp domain s fun s => andThen (f s) g := by
  unfold hostOp
  repeat' split
  all_goals rfl

/-- The domain of an operation's operands under a configuration: CMD_UNKNOWN's payload has no decoded row (R231). -/
def inDomain (c : Config) : Instr → Bool
  | .cmdUnknown d p => inPayload p && isUnknown c d p
  | i => i.wf

/-- Every operation but RESET runs under one of the two guards: the host's or the wire's. -/
theorem exec_guarded {i : Instr} (hi : i ≠ .reset) (s : State) :
    (∃ f, exec i s = hostOp (inDomain s.cfg i) s f) ∨ ∃ enabled f, exec i s = wireOp enabled s f := by
  cases i <;> rw [exec]
  case reset => exact absurd rfl hi
  case frameShort | frameLong | startInvalid | endMark => exact .inr ⟨_, _, rfl⟩
  case exchange | crcOver => exact .inl ⟨_, andThen_hostOp⟩
  all_goals exact .inl ⟨_, rfl⟩

/-- No operation but RESET answers a next state while FAULT is set (R277). -/
theorem fault_eq_none_of_exec {i : Instr} {s t : State} (hi : i ≠ .reset) (h : exec i s = .next t) :
    s.fault = none := by
  rcases exec_guarded hi s with ⟨f, hhost⟩ | ⟨enabled, f, hwire⟩
  · obtain ⟨⟨-, hnone, -⟩, -, -⟩ := hostOp_eq_next (hhost.symm.trans h)
    exact hnone
  · obtain ⟨-, hnone, -, -⟩ := wireOp_eq_next (hwire.symm.trans h)
    exact hnone

theorem exec_faulted {i : Instr} {s : State} {r : FaultReason} (hc : s.cfg.valid = true) (hf : s.fault = some r)
    (hi : i ≠ .reset) (hdomain : inDomain s.cfg i = true) : exec i s = .fault (.faulted r) := by
  rcases exec_guarded hi s with ⟨f, hhost⟩ | ⟨enabled, f, hwire⟩
  · rw [hhost, hostOp_faulted hc hdomain hf]
  · rw [hwire, wireOp_faulted hc hf]

theorem inDomain_of_wf {c : Config} {i : Instr} (hwf : i.wf = true)
    (hids : ∀ d p, i = .cmdUnknown d p → ∀ id ∈ p.head?, id ∉ decodedIds c d) : inDomain c i = true := by
  cases i
  case cmdUnknown d p =>
    have hpayload : inPayload p = true := hwf
    rw [inDomain, hpayload, isUnknown_iff.2 (hids d p rfl), Bool.and_self]
  all_goals exact hwf

/-! ### A fault changes FAULT and nothing else (R276) -/

/-- Where the outcome `o` of an operation on `s` is a fault, it is `s` with FAULT set. -/
def FaultsPrecisely (s : State) (o : Out) : Prop :=
  ∀ (t : State) (r : FaultReason), s.fault = none → o = .next t → t.fault = some r → t = { s with fault := some r }

section
variable {s t : State} {f : State → Out}

/-- An outcome that keeps FAULT is no fault. -/
theorem faultsPrecisely_of_fault_eq (h : t.fault = s.fault) : FaultsPrecisely s (.next t) := by
  intro u r hnone hnext hfault
  cases hnext
  simp [h, hnone] at hfault

theorem faultsPrecisely_raiseFault (r : FaultReason) : FaultsPrecisely s (raiseFault r s) := by
  intro t r' hnone hnext hfault
  rw [raiseFault_eq hnone] at hnext
  cases hnext
  cases hfault
  rfl

theorem faultsPrecisely_hostOp {domain : Bool} (h : FaultsPrecisely s (f s)) :
    FaultsPrecisely s (hostOp domain s f) := by
  intro t r hnone hnext
  obtain ⟨-, -, hrun⟩ := hostOp_eq_next hnext
  exact h t r hnone hrun

theorem faultsPrecisely_andThen_hostOp {domain : Bool} {g : State → Out} (h : FaultsPrecisely s (andThen (f s) g)) :
    FaultsPrecisely s (andThen (hostOp domain s f) g) := by
  rw [andThen_hostOp]
  exact faultsPrecisely_hostOp h

theorem faultsPrecisely_wireOp {enabled : Bool} (h : FaultsPrecisely s (f s)) :
    FaultsPrecisely s (wireOp enabled s f) := by
  intro t r hnone hnext
  obtain ⟨-, -, -, hrun⟩ := wireOp_eq_next hnext
  exact h t r hnone hrun

/-! #### The field codec's moves -/

theorem faultsPrecisely_withRoom {w : Nat} (h : FaultsPrecisely s (f s)) : FaultsPrecisely s (withRoom w s f) := by
  rcases withRoom_cases (f := f) w with ⟨-, hfits⟩ | ⟨-, hover⟩
  · rwa [hfits]
  · rw [hover]
    exact faultsPrecisely_raiseFault _

theorem faultsPrecisely_appendField (bs : Bytes) : FaultsPrecisely s (appendField bs s) :=
  faultsPrecisely_withRoom (faultsPrecisely_of_fault_eq rfl)

theorem faultsPrecisely_getField (w : Nat) (value : Bytes → OpResult) : FaultsPrecisely s (getField w value s) := by
  refine faultsPrecisely_withRoom ?_
  split
  · exact faultsPrecisely_raiseFault _
  · exact faultsPrecisely_of_fault_eq rfl

theorem faultsPrecisely_appendScaled (w : Nat) (inRange : Int → Bool) (bytes : Int → Bytes) (v : FloatIn) (k : Rat) :
    FaultsPrecisely s (appendScaled w inRange bytes v k s) := by
  refine faultsPrecisely_withRoom ?_
  split
  · exact faultsPrecisely_raiseFault _
  · exact faultsPrecisely_appendField _

/-! #### The other operations that can fault -/

theorem faultsPrecisely_execPack : FaultsPrecisely s (execPack s) := by
  refine faultsPrecisely_hostOp ?_
  split
  · exact faultsPrecisely_of_fault_eq rfl
  · split
    · exact faultsPrecisely_raiseFault _
    · exact faultsPrecisely_of_fault_eq rfl

theorem faultsPrecisely_completeFrame : FaultsPrecisely s (completeFrame s) := by
  rw [completeFrame]
  split
  · exact faultsPrecisely_raiseFault _
  · exact faultsPrecisely_of_fault_eq rfl

theorem faultsPrecisely_execEndMark : FaultsPrecisely s (execEndMark s) := by
  refine faultsPrecisely_wireOp ?_
  split
  · exact faultsPrecisely_completeFrame
  · intro t r _ hnext
    cases hnext

/-! #### The operations that keep FAULT -/

theorem runCommand_fault (k : Command) (p : Bytes) (s : State) : (runCommand k p s).fault = s.fault := by
  rcases Nat.lt_or_ge p.length (minLen k) with hshort | hlong
  · simp [runCommand_short hshort]
  · simp [runCommand_writes hlong]

theorem decodeBody_fault (d : Dialect) (p : Bytes) (s : State) : (decodeBody d p s).fault = s.fault := by
  rcases decodeBody_cases d p s with ⟨st, -, hbody⟩ | ⟨k, -, hbody⟩ <;> simp [hbody]

theorem faultsPrecisely_execReset : FaultsPrecisely s (execReset s) := by
  intro t r hnone hnext
  rw [execReset] at hnext
  split at hnext
  · cases hnext
  · exact faultsPrecisely_of_fault_eq hnone.symm t r hnone hnext

end

/-- Every operation takes a fault precisely, by what it is made of: a checked move, or a body that keeps FAULT. -/
theorem faultsPrecisely_exec (i : Instr) (s : State) : FaultsPrecisely s (exec i s) := by
  cases i <;> rw [exec]
  case pack => exact faultsPrecisely_execPack
  case endMark => exact faultsPrecisely_execEndMark
  case reset => exact faultsPrecisely_execReset
  case send => exact faultsPrecisely_hostOp (faultsPrecisely_andThen_hostOp (faultsPrecisely_of_fault_eq rfl))
  case exchange | crcOver => exact faultsPrecisely_andThen_hostOp (faultsPrecisely_of_fault_eq rfl)
  case fcSkip => exact faultsPrecisely_hostOp (faultsPrecisely_withRoom (faultsPrecisely_of_fault_eq rfl))
  case appendUint8 | appendBool | appendInt16 | appendUint16 | appendInt32 | appendUint32 =>
    exact faultsPrecisely_hostOp (faultsPrecisely_appendField _)
  case appendFloat16 | appendFloat32 =>
    exact faultsPrecisely_hostOp (faultsPrecisely_appendScaled _ _ _ _ _)
  case getUint8 | getBool | getInt16 | getUint16 | getInt32 | getUint32 | getFloat16 | getFloat32 =>
    exact faultsPrecisely_hostOp (faultsPrecisely_getField _ _)
  case crcInit | crcUpdate | crcRead | crc16 | fcClear | fcLoad | unpack | receive | setNunchuck | cmdUnknown =>
    exact faultsPrecisely_hostOp (faultsPrecisely_of_fault_eq rfl)
  case cmdFwVersion | cmdGetValuesSetupSelective | cmdGetDecodedPpm | cmdBmsGetValues | cmdBmsGetBmsCells =>
    exact faultsPrecisely_hostOp (faultsPrecisely_of_fault_eq (runCommand_fault _ _ s))
  case decode | cmdForwardToPeer | cmdSetChuckData | cmdSetCurrent | cmdSetCurrentBrake | cmdSetRpm | cmdSetDuty =>
    exact faultsPrecisely_hostOp (faultsPrecisely_of_fault_eq (decodeBody_fault _ _ s))
  case frameShort => exact faultsPrecisely_wireOp (faultsPrecisely_of_fault_eq rfl)
  case frameLong | startInvalid =>
    exact faultsPrecisely_wireOp (faultsPrecisely_of_fault_eq (State.rejectCandidate_fault _ _))

/-! ### What can become of FAULT -/

/-- RESET leaves a state that a second RESET would not change. -/
theorem eq_resetRegisters_of_exec_reset {s t : State} (h : exec .reset s = .next t) : t = t.resetRegisters := by
  rw [exec, execReset] at h
  split at h <;> cases h
  rfl

/-- A move of an external agent keeps FAULT, or is RESET (R8). -/
theorem worldStep_fault {m : WorldMove} {s t : State} (h : worldStep m s = .next t) :
    t.fault = s.fault ∨ t = t.resetRegisters := by
  cases m
  case reset => exact .inr (eq_resetRegisters_of_exec_reset h)
  all_goals
    cases h
    exact .inl rfl

theorem stepCase_faulted {s t : State} {r : FaultReason} (hf : s.fault = some r) (h : StepCase s t) :
    t.fault = some r ∨ t = t.resetRegisters := by
  have hne : s.fault ≠ none := by simp [hf]
  cases h with
  | world ts n m _ hw => exact (worldStep_fault hw).imp_left fun hkeep => hkeep.trans hf
  | wait | noOp => exact .inl hf
  | op _ ts n rest i _ hexec =>
    by_cases hi : i = .reset
    · subst hi
      exact .inr (eq_resetRegisters_of_exec_reset hexec)
    · exact absurd (fault_eq_none_of_exec hi hexec) hne
  | read _ ts n rest f _ hread =>
    obtain ⟨⟨-, hnone, -⟩, -⟩ := readField_eq_next hread
    exact absurd hnone hne
  | byte _ hnone | deadline _ hnone => exact absurd hnone hne

/-! ### The obligations -/

/-- Settles O49: every operation takes its fault precisely. -/
theorem faultsArePrecise : Obligations.FaultsArePrecise :=
  fun i s t r hnone hexec hfault => faultsPrecisely_exec i s t r hnone hexec hfault

/-- Settles O50: both guards stop a faulted block's operation, an attempt's step checks FAULT first, and of all steps
RESET alone writes a FAULT that is set. -/
theorem faultedBlockStops : Obligations.FaultedBlockStops := by
  intro s r hc hf
  refine ⟨fun i hi hwf hids => ?_, fun i t hi hexec => ?_, fun ts ha hturn => ?_, fun t hstep => ?_⟩
  · exact exec_faulted hc hf hi (inDomain_of_wf hwf hids)
  · cases hf.symm.trans (fault_eq_none_of_exec hi hexec)
  · obtain ⟨w, hattempt⟩ := step_attemptTurn hc ha hturn
    exact hattempt.trans (attemptStep_faulted hf)
  · obtain ⟨-, hcase⟩ := step_cases hstep
    exact stepCase_faulted hf hcase

end Sys2Proof.Claims

/-! PROOFS. RESET (70_reset_and_hazards.md, R300). -/

namespace Sys2Proof.Claims

open Sys2Proof.Machine

/-- RESET has one condition, a configuration with a meaning (R10): neither an attempt nor FAULT stops it. -/
theorem exec_reset {s : State} (hc : s.cfg.valid = true) : exec .reset s = .next s.resetRegisters := by
  simp [exec, execReset, hc]

/-- Settles O1: RESET checks neither the attempt nor FAULT, a scheduled RESET is the step, and every other operation
runs under a guard that checks FAULT. -/
theorem resetCompletes : Obligations.ResetCompletes := by
  intro s hc
  refine ⟨⟨s.resetRegisters, exec_reset hc, rfl⟩, fun ts hturn => ?_, fun hfault i t hi hexec => ?_⟩
  · exact step_world hc hturn
  · exact hfault (fault_eq_none_of_exec hi hexec)

end Sys2Proof.Claims

/-! PROOFS. The encodings (30_encoding.md): the round trip of every operation, and words written out from the spec. -/

namespace Sys2Proof.Claims

open Sys2Proof.Laws

/-- The round trip of every operation, one law per constructor. -/
theorem roundTrip : ∀ i : Instr, RoundTrip.Statement i
  | .crcInit => RoundTrip.crcInit
  | .crcUpdate b => RoundTrip.crcUpdate b
  | .crcRead => RoundTrip.crcRead
  | .crc16 s => RoundTrip.crc16 s
  | .fcClear => RoundTrip.fcClear
  | .fcLoad s => RoundTrip.fcLoad s
  | .fcSkip n => RoundTrip.fcSkip n
  | .appendUint8 v => RoundTrip.appendUint8 v
  | .getUint8 => RoundTrip.getUint8
  | .appendBool v => RoundTrip.appendBool v
  | .getBool => RoundTrip.getBool
  | .appendInt16 v => RoundTrip.appendInt16 v
  | .appendUint16 v => RoundTrip.appendUint16 v
  | .appendInt32 v => RoundTrip.appendInt32 v
  | .appendUint32 v => RoundTrip.appendUint32 v
  | .getInt16 => RoundTrip.getInt16
  | .getUint16 => RoundTrip.getUint16
  | .getInt32 => RoundTrip.getInt32
  | .getUint32 => RoundTrip.getUint32
  | .appendFloat16 v k => RoundTrip.appendFloat16 v k
  | .appendFloat32 v k => RoundTrip.appendFloat32 v k
  | .getFloat16 k => RoundTrip.getFloat16 k
  | .getFloat32 k => RoundTrip.getFloat32 k
  | .pack => RoundTrip.pack
  | .unpack raw => RoundTrip.unpack raw
  | .receive => RoundTrip.receive
  | .decode d p => RoundTrip.decode d p
  | .setNunchuck x y lower upper => RoundTrip.setNunchuck x y lower upper
  | .reset => RoundTrip.reset
  | .send p => RoundTrip.send p
  | .exchange d => RoundTrip.exchange d
  | .crcOver s => RoundTrip.crcOver s
  | .frameShort len => RoundTrip.frameShort len
  | .frameLong b => RoundTrip.frameLong b
  | .startInvalid start b => RoundTrip.startInvalid start b
  | .endMark => RoundTrip.endMark
  | .cmdFwVersion f => RoundTrip.cmdFwVersion f
  | .cmdGetValuesSetupSelective f => RoundTrip.cmdGetValuesSetupSelective f
  | .cmdGetDecodedPpm f => RoundTrip.cmdGetDecodedPpm f
  | .cmdBmsGetValues f => RoundTrip.cmdBmsGetValues f
  | .cmdBmsGetBmsCells f => RoundTrip.cmdBmsGetBmsCells f
  | .cmdForwardToPeer f => RoundTrip.cmdForwardToPeer f
  | .cmdSetChuckData f => RoundTrip.cmdSetChuckData f
  | .cmdSetCurrent f => RoundTrip.cmdSetCurrent f
  | .cmdSetCurrentBrake f => RoundTrip.cmdSetCurrentBrake f
  | .cmdSetRpm f => RoundTrip.cmdSetRpm f
  | .cmdSetDuty f => RoundTrip.cmdSetDuty f
  | .cmdUnknown d p => RoundTrip.cmdUnknown d p

/-- Settles O60: the law of each operation. -/
theorem decodeEncode : Obligations.DecodeEncode := fun c i => roundTrip i c

theorem decodePayload_fwVersion (c : Config) (fields : Bytes) :
    decodePayload c .mc (c.cmdFwVersion :: fields) = .cmdFwVersion fields := by
  have hdispatch : dispatch c .mc c.cmdFwVersion = some .fwVersion := if_pos rfl
  simp only [decodePayload, hdispatch]

/-- Settles O59: the decoder run on each word, and the first row of the dispatch table. -/
theorem knownWordsDecode : Obligations.KnownWordsDecode := by
  refine ⟨?_, ?_, ?_, ?_, ?_, ?_, ?_, ?_, ?_, fun c => decodePayload_fwVersion c _⟩
  all_goals decide +kernel

end Sys2Proof.Claims

/-! PROOFS. Everything an operation can do, said once: which registers the next state of each kind of operation differs
in, and that in a ready state no operation stops the machine. -/

namespace Sys2Proof.Claims

open Sys2Proof.Machine

/-! ### The next states of an operation -/

/-- A status that can stand in STATUS (R206, R270): neither a diagnostic event only nor BufferOverflow. -/
def FinalStatus (st : Status) : Prop :=
  st ≠ .invalidStartMarker ∧ st ≠ .unsupportedFrameType ∧ st ≠ .bufferOverflow

theorem finalStatus_ok : FinalStatus .ok := by simp [FinalStatus]

/-- The dialect of an operation that may write a snapshot (R88, R230). -/
def decodesIn : Instr → Option Dialect
  | .decode d _ => some d
  | .cmdFwVersion _ | .cmdGetValuesSetupSelective _ | .cmdGetDecodedPpm _ => some .mc
  | .cmdForwardToPeer _ | .cmdSetChuckData _ | .cmdSetCurrent _ | .cmdSetCurrentBrake _ | .cmdSetRpm _
  | .cmdSetDuty _ => some .mc
  | .cmdBmsGetValues _ | .cmdBmsGetBmsCells _ => some .bms
  | _ => none

/-- Everything an operation other than RESET can answer as a next state: one constructor per kind of effect. -/
inductive OpStep (i : Instr) (s : State) : State → Prop
  | crc (hr : s.Ready) (hi : i = .crcInit ∨ (∃ b, i = .crcUpdate b) ∨ ∃ str, i = .crcOver str) (c : Half)
    (items : List HostItem) : OpStep i s { s with crcAcc := c, status := .ok, result := .none, host := items }
  | answers (hr : s.Ready) (st : Status) (hst : FinalStatus st) (res : OpResult) : OpStep i s (s.complete st res)
  | loads (hr : s.Ready) (hi : i = .fcClear ∨ (∃ str, i = .fcLoad str) ∨ ∃ p, i = .send p) (bs : Bytes)
    (hlen : bs.length ≤ 256) (items : List HostItem) :
    OpStep i s { s with pb := Memory.ofBytes bs, cur := 0, status := .ok, result := .none, host := items }
  | stores (hr : s.Ready) (hi : appends i = true) (bs : Bytes) (hfits : s.cur + bs.length ≤ 256) :
    OpStep i s ((s.putBytes bs).complete .ok .none)
  | moves (hr : s.Ready) (hi : width i ≠ none) (w : Nat) (hfits : s.cur + w ≤ 256) (res : OpResult) :
    OpStep i s ({ s with cur := s.cur + w }.complete .ok res)
  | packs (hr : s.Ready) (hi : i = .pack) (q : Bytes) (res : OpResult) :
    OpStep i s ({ s with outq := q }.complete .ok res)
  | decodes (hr : s.Ready) (k : Command) (hi : decodesIn i = some (commandDialect k)) (p : Bytes) (res : OpResult) :
    OpStep i s ((writeFields k p s).complete .ok res)
  | nunchuck (hr : s.Ready) (hi : ∃ x y l u, i = .setNunchuck x y l u) (n : Nunchuck) :
    OpStep i s ({ s with nunchuck := n }.complete .ok .none)
  | starts (hr : s.Ready) (hi : startsAttempt i) (items : List HostItem) :
    OpStep i s { s.startAttempt with host := items }
  | classifies (hs : s.rxState ≠ .inactive) (b : Byte) (hi : i = .frameShort b) :
    OpStep i s { s.storeSecond b with rxExpect := some (b.toNat + 5), rxState := .body }
  | rejected (hs : s.rxState ≠ .inactive) (hi : rejects i) (b : Byte) (d : RxDiag) (q : List DiagEvent) :
    OpStep i s ({ s.storeSecond b with rxDiag := d, diagq := q }.rejectCandidate b)
  | ends (hs : s.rxState ≠ .inactive) (hf : s.fault = none) (hi : i = .endMark) (st : Status) (pl : Option Bytes) :
    OpStep i s ((s.storeBody endMarkByte).endAttempt st pl)
  | faults (r : FaultReason) : OpStep i s { s with fault := some r }

section
variable {i : Instr} {s t : State}

theorem opStep_raiseFault {r : FaultReason} (hf : s.fault = none) (h : raiseFault r s = .next t) : OpStep i s t := by
  rw [raiseFault_eq hf] at h
  cases h
  exact .faults r

theorem opStep_appendField {bs : Bytes} (hr : s.Ready) (hi : appends i = true) (h : appendField bs s = .next t) :
    OpStep i s t := by
  rcases appendField_cases bs with ⟨hfits, hrun⟩ | ⟨-, hrun⟩ <;> rw [hrun] at h
  · cases h
    exact .stores hr hi bs hfits
  · exact opStep_raiseFault hr.2.1 h

theorem opStep_appendScaled {w : Nat} {inRange : Int → Bool} {bytes : Int → Bytes} {v : FloatIn} {k : Rat}
    (hr : s.Ready) (hi : appends i = true) (hw : ∀ r, (bytes r).length = w)
    (h : appendScaled w inRange bytes v k s = .next t) : OpStep i s t := by
  rcases appendScaled_cases v k hw with ⟨-, hrun⟩ | ⟨-, e, -, hrun⟩ | ⟨hfits, r, -, hrun⟩ <;> rw [hrun] at h
  · exact opStep_raiseFault hr.2.1 h
  · exact opStep_raiseFault hr.2.1 h
  · cases h
    exact .stores hr hi _ (by rwa [hw])

theorem opStep_getField {w : Nat} {value : Bytes → OpResult} (hr : s.Ready) (hi : width i ≠ none)
    (h : getField w value s = .next t) : OpStep i s t := by
  rcases getField_cases w value with ⟨bs, hfits, -, hrun⟩ | ⟨-, -, hrun⟩ | ⟨-, hrun⟩ <;> rw [hrun] at h
  · cases h
    exact .moves hr hi w hfits _
  · exact opStep_raiseFault hr.2.1 h
  · exact opStep_raiseFault hr.2.1 h

theorem opStep_fcSkip {n : Int} (hr : s.Ready) (h : execFcSkip n s = .next t) : OpStep (.fcSkip n) s t := by
  obtain ⟨-, -, hrun⟩ := hostOp_eq_next h
  rcases withRoom_cases (s := s) n.toNat with ⟨hfits, hroom⟩ | ⟨-, hroom⟩ <;> rw [hroom] at hrun
  · cases hrun
    exact .moves hr (by simp [width]) n.toNat hfits _
  · exact opStep_raiseFault hr.2.1 hrun

theorem opStep_runCommand {k : Command} {p : Bytes} (hr : s.Ready) (hi : decodesIn i = some (commandDialect k)) :
    OpStep i s (runCommand k p s) := by
  rcases Nat.lt_or_ge p.length (minLen k) with hshort | hlong
  · rw [runCommand_short hshort]
    exact .answers hr _ (by simp [FinalStatus]) _
  · rw [runCommand_writes hlong]
    exact .decodes hr k hi p _

theorem opStep_unsupported (hr : s.Ready) : OpStep i s s.unsupported := .answers hr _ (by simp [FinalStatus]) _

theorem opStep_decodeBody {d : Dialect} {p : Bytes} (hr : s.Ready) (hi : decodesIn i = some d) :
    OpStep i s (decodeBody d p s) := by
  rcases p with _ | ⟨id, fields⟩
  · exact opStep_unsupported hr
  · rcases hk : dispatch s.cfg d id with _ | k
    · have hunknown : isUnknown s.cfg d (id :: fields) = true := Option.isNone_iff_eq_none.2 hk
      rw [decodeBody_unknown hunknown]
      exact opStep_unsupported hr
    · rw [decodeBody_dispatched hk]
      exact opStep_runCommand hr (by rw [hi, commandDialect_of_dispatch hk])

theorem opStep_pack (hr : s.Ready) (h : execPack s = .next t) : OpStep .pack s t := by
  obtain ⟨-, -, hrun⟩ := hostOp_eq_next h
  split at hrun
  · cases hrun
    exact .answers hr _ (by simp [FinalStatus]) _
  · split at hrun
    · exact opStep_raiseFault hr.2.1 hrun
    · cases hrun
      exact .packs hr rfl _ _

theorem finalStatus_unpack (raw : Bytes) : FinalStatus (unpack raw).1 := by
  rcases unpack_cases raw with ⟨-, hres⟩ | ⟨-, -, hres⟩ | ⟨-, -, hres⟩ <;> simp [hres, FinalStatus]

theorem attempting_of_headerWith {test : Byte → Bool} (h : headerWith test s = true) : s.rxState ≠ .inactive := by
  obtain ⟨hs, -⟩ := headerWith_iff.1 h
  simp [hs]

theorem opStep_endMark (h : execEndMark s = .next t) : OpStep .endMark s t := by
  obtain ⟨-, hf, hend, hrun⟩ := wireOp_eq_next h
  obtain ⟨hs, -⟩ := atFrameEnd_iff.1 hend
  split at hrun
  · rw [completeFrame] at hrun
    split at hrun
    · exact opStep_raiseFault hf hrun
    · cases hrun
      exact .ends (by simp [hs]) hf rfl _ _
  · cases hrun

/-- The guard and the body of a host operation whose body completes. -/
theorem opStep_of_hostOp {domain : Bool} {f : State → State} (h : hostOp domain s (fun s => .next (f s)) = .next t)
    (hbody : s.Ready → OpStep i s (f s)) : OpStep i s t := by
  obtain ⟨hr, -, hrun⟩ := hostOp_eq_next h
  cases hrun
  exact hbody hr

theorem opStep_send {p : Bytes} (h : execSend p s = .next t) : OpStep (.send p) s t := by
  obtain ⟨hr, -, hrun⟩ := hostOp_eq_next h
  obtain ⟨u, hload, rfl⟩ := expandTo_eq_next hrun
  obtain ⟨-, hlen, hloaded⟩ := hostOp_eq_next hload
  cases hloaded
  exact .loads hr (.inr (.inr ⟨p, rfl⟩)) p (inLoad_iff.1 hlen) _

theorem opStep_exchange {d : Dialect} (h : execExchange d s = .next t) : OpStep (.exchange d) s t := by
  obtain ⟨u, hreceive, hrun⟩ := andThen_eq_next h
  obtain ⟨hr, -, hstart⟩ := hostOp_eq_next hreceive
  cases hstart
  cases hrun
  exact .starts hr (.inr ⟨d, rfl⟩) _

theorem opStep_crcOver {str : Bytes} (h : execCrcOver str s = .next t) : OpStep (.crcOver str) s t := by
  obtain ⟨u, hinit, rfl⟩ := expandTo_eq_next h
  obtain ⟨hr, -, hdone⟩ := hostOp_eq_next hinit
  cases hdone
  exact .crc hr (.inr (.inr ⟨str, rfl⟩)) _ _

end

/-- Everything an operation other than RESET can do. -/
theorem exec_cases {i : Instr} {s t : State} (hi : i ≠ .reset) (h : exec i s = .next t) : OpStep i s t := by
  cases i <;> rw [exec] at h
  case reset => exact absurd rfl hi
  case crcInit => exact opStep_of_hostOp h fun hr => .crc hr (.inl rfl) _ s.host
  case crcUpdate b => exact opStep_of_hostOp h fun hr => .crc hr (.inr (.inl ⟨b, rfl⟩)) _ s.host
  case crcOver => exact opStep_crcOver h
  case crcRead | crc16 => exact opStep_of_hostOp h fun hr => .answers hr _ finalStatus_ok _
  case unpack raw => exact opStep_of_hostOp h fun hr => .answers hr _ (finalStatus_unpack raw) _
  case fcClear => exact opStep_of_hostOp h fun hr => .loads hr (.inl rfl) [] (Nat.zero_le _) s.host
  case fcLoad str =>
    obtain ⟨hr, hlen, hrun⟩ := hostOp_eq_next h
    cases hrun
    exact .loads hr (.inr (.inl ⟨str, rfl⟩)) str (inLoad_iff.1 hlen) s.host
  case send => exact opStep_send h
  case fcSkip => exact opStep_fcSkip (hostOp_eq_next h).1 h
  case appendUint8 | appendBool | appendInt16 | appendUint16 | appendInt32 | appendUint32 =>
    obtain ⟨hr, -, hrun⟩ := hostOp_eq_next h
    exact opStep_appendField hr rfl hrun
  case appendFloat16 =>
    obtain ⟨hr, -, hrun⟩ := hostOp_eq_next h
    exact opStep_appendScaled hr rfl encode16_length hrun
  case appendFloat32 =>
    obtain ⟨hr, -, hrun⟩ := hostOp_eq_next h
    exact opStep_appendScaled hr rfl encode32_length hrun
  case getUint8 | getBool | getInt16 | getUint16 | getInt32 | getUint32 | getFloat16 | getFloat32 =>
    obtain ⟨hr, -, hrun⟩ := hostOp_eq_next h
    exact opStep_getField hr (by simp [width]) hrun
  case pack => exact opStep_pack (hostOp_eq_next h).1 h
  case receive => exact opStep_of_hostOp h fun hr => .starts hr (.inl rfl) s.host
  case exchange => exact opStep_exchange h
  case setNunchuck => exact opStep_of_hostOp h fun hr => .nunchuck hr ⟨_, _, _, _, rfl⟩ _
  case decode | cmdForwardToPeer | cmdSetChuckData | cmdSetCurrent | cmdSetCurrentBrake | cmdSetRpm | cmdSetDuty =>
    exact opStep_of_hostOp h fun hr => opStep_decodeBody hr rfl
  case cmdFwVersion | cmdGetValuesSetupSelective | cmdGetDecodedPpm | cmdBmsGetValues | cmdBmsGetBmsCells =>
    exact opStep_of_hostOp h fun hr => opStep_runCommand hr rfl
  case cmdUnknown => exact opStep_of_hostOp h opStep_unsupported
  case frameShort b =>
    obtain ⟨-, -, hheader, hrun⟩ := wireOp_eq_next h
    cases hrun
    exact .classifies (attempting_of_headerWith hheader) b rfl
  case frameLong b =>
    obtain ⟨-, -, hheader, hrun⟩ := wireOp_eq_next h
    cases hrun
    exact .rejected (attempting_of_headerWith hheader) (.inl ⟨b, rfl⟩) b _ _
  case startInvalid a b =>
    obtain ⟨-, -, henabled, hrun⟩ := wireOp_eq_next h
    obtain ⟨-, hheader⟩ := Bool.and_eq_true_iff.1 henabled
    cases hrun
    exact .rejected (attempting_of_headerWith hheader) (.inr ⟨a, b, rfl⟩) b _ _
  case endMark => exact opStep_endMark h

/-! ### In a ready state no operation stops the machine -/

/-- The outcome is no stop with a fault. -/
def NeverStops (o : Out) : Prop := ∀ f : Fault, o ≠ .fault f

section
variable {s t : State} {f : State → Out}

theorem neverStops_next : NeverStops (.next t) := fun _ h => nomatch h

theorem neverStops_raiseFault {r : FaultReason} : NeverStops (raiseFault r s) := neverStops_next

theorem neverStops_hostOp {domain : Bool} (hr : s.Ready) (h : NeverStops (f s)) : NeverStops (hostOp domain s f) := by
  cases domain
  · rw [hostOp_illFormed hr.1 rfl]
    exact fun _ hstop => nomatch hstop
  · rwa [hostOp_ready hr]

/-- In a ready state no byte step is enabled. -/
theorem neverStops_wireOp {enabled : Bool} (hr : s.Ready) (h : enabled = true → s.rxState ≠ .inactive) :
    NeverStops (wireOp enabled s f) := by
  obtain ⟨hc, hf, hs⟩ := hr
  cases enabled
  · simp [NeverStops, wireOp, hc, hf]
  · exact absurd hs (h rfl)

theorem neverStops_andThen_hostOp {domain : Bool} {g : State → Out} (hr : s.Ready) (h : NeverStops (andThen (f s) g)) :
    NeverStops (andThen (hostOp domain s f) g) := by
  rw [andThen_hostOp]
  exact neverStops_hostOp hr h

theorem neverStops_withRoom {w : Nat} (h : NeverStops (f s)) : NeverStops (withRoom w s f) := by
  rcases withRoom_cases (f := f) w with ⟨-, hfits⟩ | ⟨-, hover⟩
  · rwa [hfits]
  · rw [hover]
    exact neverStops_raiseFault

theorem neverStops_getField (w : Nat) (value : Bytes → OpResult) : NeverStops (getField w value s) := by
  refine neverStops_withRoom ?_
  split
  · exact neverStops_raiseFault
  · exact neverStops_next

theorem neverStops_appendScaled (w : Nat) (inRange : Int → Bool) (bytes : Int → Bytes) (v : FloatIn) (k : Rat) :
    NeverStops (appendScaled w inRange bytes v k s) := by
  refine neverStops_withRoom ?_
  split
  · exact neverStops_raiseFault
  · exact neverStops_withRoom neverStops_next

theorem neverStops_execPack (hr : s.Ready) : NeverStops (execPack s) := by
  refine neverStops_hostOp hr ?_
  split
  · exact neverStops_next
  · split
    · exact neverStops_raiseFault
    · exact neverStops_next

theorem neverStops_execReset : NeverStops (execReset s) := by
  rw [execReset]
  split
  · exact fun _ hstop => nomatch hstop
  · exact neverStops_next

end

/-- An operation of the machine stops with a fault only where FAULT is set or an attempt is in progress. -/
theorem exec_neverStops {s : State} (hr : s.Ready) (i : Instr) : NeverStops (exec i s) := by
  cases i <;> rw [exec]
  case reset => exact neverStops_execReset
  case pack => exact neverStops_execPack hr
  case send => exact neverStops_hostOp hr (neverStops_andThen_hostOp hr neverStops_next)
  case exchange | crcOver => exact neverStops_andThen_hostOp hr neverStops_next
  case fcSkip | appendUint8 | appendBool | appendInt16 | appendUint16 | appendInt32 | appendUint32 =>
    exact neverStops_hostOp hr (neverStops_withRoom neverStops_next)
  case appendFloat16 | appendFloat32 => exact neverStops_hostOp hr (neverStops_appendScaled _ _ _ _ _)
  case getUint8 | getBool | getInt16 | getUint16 | getInt32 | getUint32 | getFloat16 | getFloat32 =>
    exact neverStops_hostOp hr (neverStops_getField _ _)
  case frameShort | frameLong => exact neverStops_wireOp hr attempting_of_headerWith
  case startInvalid =>
    exact neverStops_wireOp hr fun henabled => attempting_of_headerWith (Bool.and_eq_true_iff.1 henabled).2
  case endMark => exact neverStops_wireOp hr fun hend => by simp [(atFrameEnd_iff.1 hend).1]
  all_goals exact neverStops_hostOp hr neverStops_next

end Sys2Proof.Claims

/-! PROOFS. The invariant of a run (10_state.md, R20 to R37; 43_frame_receiver.md, R206): the reset state meets it, every
step keeps it, and no step of a run leaves RB or ends an attempt with BufferOverflow. -/

namespace Sys2Proof.Claims

open Sys2Proof.Machine

/-! ### The receiver's registers in each state of the receiver -/

section
variable {s : State}

theorem rxCoherent_idle (hs : s.rxState = .idle) : s.RxCoherent ↔ s.rb = [] ∧ s.rxCount = 0 ∧ s.rxExpect = none := by
  simp only [State.RxCoherent, hs]

theorem rxCoherent_header (hs : s.rxState = .header) :
    s.RxCoherent ↔ (∃ b, s.rb = [(0, b)]) ∧ s.rxCount = 1 ∧ s.rxExpect = none := by
  simp only [State.RxCoherent, hs]

theorem rxCoherent_hunt (hs : s.rxState = .hunt) : s.RxCoherent ↔ s.rb = [] ∧ s.rxCount = 0 ∧ s.rxExpect = none := by
  simp only [State.RxCoherent, hs]

theorem rxCoherent_body (hs : s.rxState = .body) :
    s.RxCoherent ↔ ∃ held : Bytes, s.rb = Memory.ofBytes held ∧ s.rxCount = held.length ∧ 2 ≤ held.length
      ∧ held.getD 0 0 = startShort ∧ s.rxExpect = some ((held.getD 1 0).toNat + 5)
      ∧ held.length < (held.getD 1 0).toNat + 5 := by
  simp only [State.RxCoherent, hs]

/-- In BODY the declared length is at most 260, and RX_COUNT is below it (R193, R206). -/
theorem rxCount_lt_of_body (h : s.Inv) (hs : s.rxState = .body) : s.rxCount < 260 := by
  obtain ⟨held, -, hcount, -, -, -, hlt⟩ := (rxCoherent_body hs).1 h.rxCoherent
  have := (held.getD 1 0).isLt
  omega

/-- The statuses that can stand in RX_RESULT can stand in STATUS too. -/
theorem finalStatus_of_rxResultOk {st : Status} {pl : Option Bytes} (h : rxResultOk (some (st, pl))) :
    FinalStatus st := by
  cases st
  case invalidStartMarker | unsupportedFrameType | bufferOverflow => exact h.elim
  all_goals simp [FinalStatus]

theorem rxResultOk_unpack (raw : Bytes) : rxResultOk (some ((unpack raw).1, (unpack raw).2)) := by
  rcases unpack_cases raw with ⟨-, hres⟩ | ⟨-, -, hres⟩ | ⟨henv, -, hres⟩ <;> rw [hres]
  · trivial
  · trivial
  · exact framePayload_length henv

end

/-! ### The updates that keep the invariant -/

section
variable {s : State}

theorem inv_resetRegisters : s.resetRegisters.Inv where
  pbWf := Memory.wf_nil
  pbBelow := Memory.below_nil _
  curLe := Nat.zero_le _
  rbWf := Memory.wf_nil
  rbBelow := Memory.below_nil _
  countLe := Nat.zero_le _
  expectRange := by simp
  rxCoherent := trivial
  resultOk := trivial
  attemptOpen ha := absurd rfl ha
  statusFinal := finalStatus_ok
  mcRange := by constructor <;> simp [McSnap.reset, rawS16, rawS32]
  bmsRange := by simp [BmsSnap.InRange, BmsSnap.reset, rawS16]

theorem inv_complete (h : s.Inv) {st : Status} (hst : FinalStatus st) (res : OpResult) : (s.complete st res).Inv :=
  { h with statusFinal := hst }

theorem rawS16_s16at (p : Bytes) (i : Nat) : rawS16 (some (s16at p i)) := by
  rintro x ⟨⟩
  exact s16at_range p i

theorem rawS32_s32at (p : Bytes) (i : Nat) : rawS32 (some (s32at p i)) := by
  rintro x ⟨⟩
  exact s32at_range p i

theorem inv_writeFields (h : s.Inv) (k : Command) (p : Bytes) : (writeFields k p s).Inv := by
  cases k with
  | fwVersion => exact { h with mcRange := { h.mcRange with } }
  | getValuesSetupSelective =>
    exact { h with mcRange := {
      h.mcRange with
      tempMotor := rawS16_s16at p _
      avgMotorCurrent := rawS32_s32at p _
      avgInputCurrent := rawS32_s32at p _
      rpm := rawS32_s32at p _
      inputVoltage := rawS16_s16at p _
      wattHours := rawS32_s32at p _
      wattHoursCharged := rawS32_s32at p _ } }
  | getDecodedPpm => exact { h with mcRange := { h.mcRange with throttle := rawS32_s32at p _ } }
  | bmsGetValues => exact { h with bmsRange := h.bmsRange }
  | bmsGetBmsCells =>
    refine { h with bmsRange := fun i => ?_ }
    simpa [writeFields, writeBmsCells] using rawS16_s16at p (2 + 2 * i.val)

theorem inv_startAttempt (h : s.Inv) (hf : s.fault = none) : s.startAttempt.Inv :=
  { h with
    rbWf := Memory.wf_nil
    rbBelow := Memory.below_nil _
    countLe := Nat.zero_le _
    expectRange := by simp
    rxCoherent := ⟨rfl, rfl, rfl⟩
    resultOk := trivial
    attemptOpen := fun _ => ⟨rfl, hf, le_rfl⟩ }

theorem inv_endAttempt (h : s.Inv) {st : Status} {pl : Option Bytes} (hres : rxResultOk (some (st, pl))) :
    (s.endAttempt st pl).Inv :=
  { h with
    rxCoherent := trivial
    resultOk := hres
    attemptOpen := fun ha => absurd rfl ha
    statusFinal := finalStatus_of_rxResultOk hres }

/-- The attempt's end on the byte just stored (R200, R202). -/
theorem inv_endAttempt_storeBody (h : s.Inv) (hs : s.rxState = .body) (b : Byte) {st : Status} {pl : Option Bytes}
    (hres : rxResultOk (some (st, pl))) : ((s.storeBody b).endAttempt st pl).Inv := by
  have hcount := rxCount_lt_of_body h hs
  exact {
    h with
    rbWf := Memory.wf_write h.rbWf _ _
    rbBelow := Memory.below_write h.rbBelow (by omega) _
    countLe := (by omega : s.rxCount + 1 ≤ 261)
    rxCoherent := trivial
    resultOk := hres
    attemptOpen := fun ha => absurd rfl ha
    statusFinal := finalStatus_of_rxResultOk hres }

/-- A candidate started where RB is empty holds its start byte alone (R192, R197). -/
theorem inv_startCandidate (h : s.Inv) (ha : s.rxState ≠ .inactive) (hrb : s.rb = []) (hx : s.rxExpect = none)
    (b : Byte) : (s.startCandidate b).Inv :=
  { h with
    rbWf := Memory.wf_write h.rbWf _ _
    rbBelow := Memory.below_write h.rbBelow (by omega) _
    countLe := (by omega : 1 ≤ 261)
    rxCoherent := ⟨⟨b, by rw [State.startCandidate_rb, hrb]; rfl⟩, rfl, hx⟩
    attemptOpen := fun _ => h.attemptOpen ha }

/-- The receiver gone back to HUNT with nothing held (R196). -/
theorem inv_hunt (h : s.Inv) (ha : s.rxState ≠ .inactive) :
    State.Inv { s with rb := [], rxCount := 0, rxExpect := none, rxState := .hunt } :=
  { h with
    rbWf := Memory.wf_nil
    rbBelow := Memory.below_nil _
    countLe := Nat.zero_le _
    expectRange := by simp
    rxCoherent := ⟨rfl, rfl, rfl⟩
    attemptOpen := fun _ => h.attemptOpen ha }

/-- A rejected candidate leaves RB empty, or holding the second byte as the next candidate's first (R196). -/
theorem inv_rejectCandidate (h : s.Inv) (hs : s.rxState = .header) (b : Byte) (d : RxDiag) (q : List DiagEvent) :
    ({ s.storeSecond b with rxDiag := d, diagq := q }.rejectCandidate b).Inv := by
  obtain ⟨⟨a, hrb⟩, -, -⟩ := (rxCoherent_header hs).1 h.rxCoherent
  have hdiag : State.Inv { s with rxDiag := d, diagq := q } := { h with }
  have hunt := inv_hunt hdiag (by simp [hs])
  by_cases hb : b = startShort
  · subst hb
    have hnext := inv_startCandidate hunt (by simp) rfl rfl startShort
    rw [State.rejectCandidate_restart, State.storeSecond_rb, hrb]
    exact hnext
  · rw [State.rejectCandidate_hunt _ _ hb, State.storeSecond_rb, hrb]
    exact hunt

/-- A short candidate holds its start byte and its length byte (R193). -/
theorem inv_classifyShort (h : s.Inv) (hs : s.rxState = .header) (h0 : s.rb.read 0 = some startShort) (b : Byte) :
    State.Inv { s.storeSecond b with rxExpect := some (b.toNat + 5), rxState := .body } := by
  obtain ⟨⟨a, hrb⟩, -, -⟩ := (rxCoherent_header hs).1 h.rxCoherent
  have hstart : a = startShort := by simpa [hrb, Memory.read] using h0
  subst hstart
  have hlen := b.isLt
  exact {
    h with
    rbWf := Memory.wf_write h.rbWf _ _
    rbBelow := Memory.below_write h.rbBelow (by omega) _
    countLe := (by omega : 2 ≤ 261)
    expectRange := by rintro n ⟨⟩; omega
    rxCoherent := ⟨[startShort, b], by rw [State.storeSecond_rb, hrb]; rfl, rfl, le_rfl, rfl, rfl,
      (by omega : 2 < b.toNat + 5)⟩
    attemptOpen := fun _ => h.attemptOpen (by simp [hs]) }

/-- A body byte that is not the frame's last is one more byte held (R198). -/
theorem inv_storeBody (h : s.Inv) (hs : s.rxState = .body) (hx : s.rxExpect ≠ some (s.rxCount + 1)) (b : Byte) :
    (s.storeBody b).Inv := by
  have hcount := rxCount_lt_of_body h hs
  obtain ⟨held, hrb, hheld, htwo, hstart, hexpect, hlt⟩ := (rxCoherent_body hs).1 h.rxCoherent
  have hlast : (held.getD 1 0).toNat + 5 ≠ held.length + 1 := by simpa [hexpect, hheld] using hx
  have hfirst : ∀ j, j < 2 → (held ++ [b]).getD j 0 = held.getD j 0 := fun j hj =>
    List.getD_append _ _ _ _ (by omega)
  refine {
    h with
    rbWf := Memory.wf_write h.rbWf _ _
    rbBelow := Memory.below_write h.rbBelow (by omega) _
    countLe := (by omega : s.rxCount + 1 ≤ 261)
    rxCoherent := (rxCoherent_body (s := s.storeBody b) hs).2 ⟨held ++ [b], ?_, ?_, ?_, ?_, ?_, ?_⟩ }
  · rw [State.storeBody_rb, hrb, hheld, Memory.write_ofBytes_end]
  · rw [State.storeBody_rxCount, hheld, List.length_append, List.length_singleton]
  · rw [List.length_append]
    omega
  · rw [hfirst 0 (by omega), hstart]
  · rw [hfirst 1 (by omega), State.storeBody_rxExpect, hexpect]
  · rw [hfirst 1 (by omega), List.length_append, List.length_singleton]
    omega

end

/-! ### The steps keep the invariant -/

section
variable {s t : State}

/-- An operation issued outside an attempt keeps the invariant. -/
theorem inv_of_opStep {i : Instr} (h : s.Inv) (hs : s.rxState = .inactive) (hstep : OpStep i s t) : t.Inv := by
  cases hstep with
  | crc => exact { h with statusFinal := finalStatus_ok }
  | answers _ st hst res => exact inv_complete h hst res
  | loads _ _ bs hlen =>
    exact {
      h with
      pbWf := Memory.wf_ofBytes bs
      pbBelow := Memory.below_ofBytes hlen
      curLe := Nat.zero_le _
      statusFinal := finalStatus_ok }
  | stores _ _ bs hfits =>
    exact {
      h with
      pbWf := Memory.wf_writeBytes h.pbWf _ _
      pbBelow := Memory.below_writeBytes h.pbBelow hfits
      curLe := hfits
      statusFinal := finalStatus_ok }
  | moves _ _ w hfits => exact { h with curLe := hfits, statusFinal := finalStatus_ok }
  | packs => exact { h with statusFinal := finalStatus_ok }
  | decodes _ k _ p res => exact inv_complete (inv_writeFields h k p) finalStatus_ok res
  | nunchuck => exact { h with statusFinal := finalStatus_ok }
  | starts hr =>
    obtain ⟨-, hf, -⟩ := hr
    exact { inv_startAttempt h hf with }
  | classifies ha | rejected ha | ends ha => exact absurd hs ha
  | faults => exact { h with attemptOpen := fun ha => absurd hs ha }

/-- A byte step keeps the invariant. -/
theorem inv_of_rxStep {b : Byte} (h : s.Inv) (hstep : RxStep b s t) : t.Inv := by
  cases hstep with
  | idle hs =>
    obtain ⟨hrb, -, hx⟩ := (rxCoherent_idle hs).1 h.rxCoherent
    exact inv_startCandidate h (by simp [hs]) hrb hx b
  | short hs h0 => exact inv_classifyShort h hs h0 b
  | long hs => exact inv_rejectCandidate h hs b _ _
  | invalid hs => exact inv_rejectCandidate h hs b _ _
  | noStart hs h0 =>
    obtain ⟨⟨a, hrb⟩, -, -⟩ := (rxCoherent_header hs).1 h.rxCoherent
    simp [hrb, Memory.read] at h0
  | huntStart hs =>
    obtain ⟨hrb, -, hx⟩ := (rxCoherent_hunt hs).1 h.rxCoherent
    exact inv_startCandidate h (by simp [hs]) hrb hx b
  | huntSkip => exact h
  | inner hs hx => exact inv_storeBody h hs hx b
  | overflow hs _ hn =>
    have := rxCount_lt_of_body h hs
    omega
  | malformed hs => exact inv_endAttempt_storeBody h hs b trivial
  | complete hs _ _ _ raw => exact inv_endAttempt_storeBody h hs b (rxResultOk_unpack raw)
  | noCell hs _ _ hr =>
    obtain ⟨held, hrb, hheld, -⟩ := (rxCoherent_body hs).1 h.rxCoherent
    rw [State.storeBody_rb, hrb, hheld, Memory.write_ofBytes_end, Memory.readBytes_ofBytes _ (by simp)] at hr
    cases hr

theorem inv_of_worldStep {m : WorldMove} (h : s.Inv) (hstep : worldStep m s = .next t) : t.Inv := by
  cases m with
  | reset =>
    have hreset : execReset s = .next t := hstep
    rw [execReset] at hreset
    split at hreset <;> cases hreset
    exact inv_resetRegisters
  | elapse d =>
    cases hstep
    refine { h with attemptOpen := fun ha => ?_ }
    obtain ⟨hresult, hfault, hclock⟩ := h.attemptOpen ha
    exact ⟨hresult, hfault, Nat.le_add_right_of_le hclock⟩
  | _ =>
    cases hstep
    exact { h with }

theorem inv_of_exec {i : Instr} (h : s.Inv) (hs : s.rxState = .inactive) (hexec : exec i s = .next t) : t.Inv := by
  by_cases hi : i = .reset
  · subst hi
    exact inv_of_worldStep (m := .reset) h hexec
  · exact inv_of_opStep h hs (exec_cases hi hexec)

theorem inv_of_readField {f : TelemetryField} (h : s.Inv) (hread : readField f s = .next t) : t.Inv := by
  obtain ⟨⟨-, -, hs⟩, ⟨-, rfl⟩ | ⟨raw, -, rfl⟩⟩ := readField_eq_next hread
  · exact { h with attemptOpen := fun ha => absurd hs ha }
  · exact { h with }

theorem inv_of_stepCase (h : s.Inv) (hcase : StepCase s t) : t.Inv := by
  have hturned : ∀ ts n, (s.turned ts n).Inv := fun ts n => { h with }
  cases hcase with
  | world ts n m _ hw => exact inv_of_worldStep (hturned ts n) hw
  | wait ts n => exact hturned ts n
  | op hs ts n rest i _ hexec =>
    have hissued : State.Inv { s.turned ts n with host := rest } := { h with }
    exact inv_of_exec hissued hs hexec
  | read _ ts n rest f _ hread =>
    have hissued : State.Inv { s.turned ts n with host := rest } := { h with }
    exact inv_of_readField hissued hread
  | noOp => exact { h with }
  | byte _ _ ts n b rest _ _ hbyte =>
    have htaken : State.Inv { s.turned ts n with inq := rest } := { h with }
    exact inv_of_rxStep htaken hbyte
  | deadline _ _ ts n => exact inv_endAttempt (hturned ts n) trivial

end

/-! ### No step of a run addresses a cell RB does not have -/

/-- The outcome is no stop at a cell RB does not have (R60). -/
def StaysInRb (o : Out) : Prop := o ≠ .fault .noSuchCell

section
variable {s : State}

theorem staysInRb_next {t : State} : StaysInRb (.next t) := fun h => nomatch h
theorem staysInRb_refused {r : Refusal} : StaysInRb (.refused r) := fun h => nomatch h
theorem staysInRb_faulted {r : FaultReason} : StaysInRb (.fault (.faulted r)) := fun h => nomatch h

/-- A faulted block's operation stops there, a ready block's does not stop. -/
theorem staysInRb_exec (hc : s.cfg.valid = true) (hs : s.rxState = .inactive) (i : Instr) : StaysInRb (exec i s) := by
  rcases hf : s.fault with _ | r
  · exact exec_neverStops ⟨hc, hf, hs⟩ i _
  · by_cases hi : i = .reset
    · subst hi
      exact neverStops_execReset _
    · rcases exec_guarded hi s with ⟨f, hrun⟩ | ⟨enabled, f, hrun⟩ <;> rw [hrun]
      · rcases hd : inDomain s.cfg i
        · rw [hostOp_illFormed hc rfl]
          exact staysInRb_refused
        · rw [hostOp_faulted hc rfl hf]
          exact staysInRb_faulted
      · rw [wireOp_faulted hc hf]
        exact staysInRb_faulted

theorem staysInRb_passFaulted {o : Out} (h : StaysInRb o) : StaysInRb (passFaulted s o) := by
  unfold passFaulted
  split
  · exact staysInRb_next
  · exact h

theorem staysInRb_readField (f : TelemetryField) : StaysInRb (readField f s) := by
  rw [readField, hostOp]
  repeat' split
  all_goals exact fun h => nomatch h

theorem staysInRb_worldStep (m : WorldMove) : StaysInRb (worldStep m s) := by
  cases m
  case reset => exact neverStops_execReset _
  all_goals exact staysInRb_next

theorem staysInRb_waitStep (scheduled : Bool) : StaysInRb (waitStep scheduled s) := by
  rw [waitStep]
  split
  · exact staysInRb_next
  · exact staysInRb_worldStep _

theorem staysInRb_hostStep (hc : s.cfg.valid = true) (hs : s.rxState = .inactive) (scheduled : Bool) :
    StaysInRb (hostStep scheduled s) := by
  have hissue : ∀ i rest, StaysInRb (issueOp i { s with host := rest }) := fun i rest =>
    staysInRb_passFaulted (staysInRb_exec (s := { s with host := rest }) hc hs i)
  rcases hhost : s.host with _ | ⟨item, rest⟩
  · rw [hostStep_wait hhost]
    exact staysInRb_waitStep scheduled
  · cases item with
    | line text =>
      rw [hostStep_line hhost, issueLine]
      split
      · exact staysInRb_refused
      · exact hissue _ rest
      · exact staysInRb_next
      · exact staysInRb_next
    | op i =>
      rw [hostStep_op hhost]
      exact hissue i rest
    | readField f =>
      rw [hostStep_readField hhost]
      exact staysInRb_passFaulted (staysInRb_readField f)
    | decodeIfOk d =>
      rw [hostStep_decodeIfOk hhost, exchangeDecode]
      split
      · exact hissue _ rest
      · exact staysInRb_next

theorem staysInRb_wireOp {enabled : Bool} {f : State → Out} (h : StaysInRb (f s)) : StaysInRb (wireOp enabled s f) := by
  rw [wireOp]
  split
  · exact staysInRb_refused
  · split
    · exact staysInRb_faulted
    · split
      · exact h
      · exact staysInRb_refused

/-- The byte step of an attempt whose RX_COUNT lies within RB. -/
theorem staysInRb_rxByteStep (b : Byte) (h : s.rxState = .body → s.rxCount < 260) : StaysInRb (rxByteStep b s) := by
  rcases hs : s.rxState
  case inactive =>
    rw [rxByteStep, hs]
    exact staysInRb_refused
  case idle =>
    rw [rxByteStep_idle hs]
    exact staysInRb_next
  case header =>
    rw [rxByteStep_header hs]
    rcases h0 : s.rb.read 0 with _ | a
    · rw [headerByte, h0]
      exact staysInRb_next
    · rw [headerByte_eq h0]
      repeat' split
      all_goals exact staysInRb_wireOp staysInRb_next
  case hunt =>
    by_cases hb : b = startShort
    · subst hb
      rw [rxByteStep_huntStart hs]
      exact staysInRb_next
    · rw [rxByteStep_huntSkip hs hb]
      exact staysInRb_next
  case body =>
    have hcount := h hs
    by_cases hx : s.rxExpect = some (s.rxCount + 1)
    · by_cases hb : b = endMarkByte
      · subst hb
        rw [rxByteStep_end hs hx, execEndMark]
        refine staysInRb_wireOp ?_
        rw [if_pos (show s.rxCount < rxCap by rw [rxCap]; omega), completeFrame]
        split <;> exact staysInRb_next
      · rw [rxByteStep_malformed hs hx hb, malformedByte_ends (by omega)]
        exact staysInRb_next
    · rw [rxByteStep_inner hs hx, innerByte_stores (by omega)]
      exact staysInRb_next

theorem staysInRb_attemptStep (h : s.rxState = .body → s.rxCount < 260) (w : Option Bool) :
    StaysInRb (attemptStep w s) := by
  rw [attemptStep]
  split
  · exact staysInRb_faulted
  · split
    · exact staysInRb_waitStep _
    · exact staysInRb_next
    · exact staysInRb_rxByteStep _ h
    · unfold raceStep
      split
      · exact staysInRb_next
      · exact staysInRb_rxByteStep _ h
      · split
        · exact staysInRb_next
        · exact staysInRb_rxByteStep _ h

theorem staysInRb_blockStep (hc : s.cfg.valid = true) (h : s.rxState = .body → s.rxCount < 260) (w : Option Bool) :
    StaysInRb (blockStep w s) := by
  by_cases hs : s.rxState = .inactive
  · rw [blockStep_idle hs]
    exact staysInRb_hostStep hc hs _
  · rw [blockStep_attempt hs]
    exact staysInRb_attemptStep h w

theorem staysInRb_step (h : s.Inv) : StaysInRb (step s) := by
  have hcount := rxCount_lt_of_body h
  rw [step, stepAgents]
  split
  · exact staysInRb_refused
  · rename_i hvalid
    have hc : s.cfg.valid = true := by simpa using hvalid
    rw [stepTurn]
    split
    · exact staysInRb_blockStep hc hcount _
    · exact staysInRb_worldStep _
    · next ts _ => exact staysInRb_blockStep (s := { s with schedule := ts }) hc hcount _
    · next ts _ => exact staysInRb_blockStep (s := { s with schedule := ts }) hc hcount _

end

/-! ### The obligations -/

/-- Settles O55: the power-on state is the state RESET gives, and RESET's state meets the invariant. -/
theorem invAtReset : Obligations.InvAtReset := inv_resetRegisters (s := State.reset)

/-- Settles O56: each way a step can go keeps the invariant. -/
theorem stepKeepsInv : Obligations.StepKeepsInv := fun _ _ h hstep => inv_of_stepCase h (step_cases hstep).2

/-- Settles O34: RX_COUNT lies within RB at every byte step, and the next state meets the invariant, which names no
BufferOverflow. -/
theorem overflowUnreachable : Obligations.OverflowUnreachable := by
  intro s h
  refine ⟨staysInRb_step h, fun t hstep => ?_⟩
  have hnext := stepKeepsInv s t h hstep
  obtain ⟨-, -, hstatus⟩ := hnext.statusFinal
  refine ⟨hstatus, fun pl hresult => ?_⟩
  have hok := hnext.resultOk
  rw [hresult] at hok
  cases pl <;> exact hok

end Sys2Proof.Claims

/-! PROOFS. The CRC's algebra (40_crc16.md, R115 to R119): the update is linear and injective, so the table form, the
linearity, the zero residue and the detection of every changed byte follow. -/

namespace Sys2Proof.Claims

open Sys2Proof.Machine

/-! ### One bit of the division is a linear and injective map -/

theorem crcShift_eq (c : Half) : crcShift c = c <<< 1 ^^^ (if c.msb then crcPoly else 0#16) := by
  rw [crcShift]
  split <;> simp

theorem crcShift_xor (a b : Half) : crcShift (a ^^^ b) = crcShift a ^^^ crcShift b := by
  have hpoly : ∀ x y : Bool, (if x ^^ y then crcPoly else 0#16)
      = (if x then crcPoly else 0#16) ^^^ (if y then crcPoly else 0#16) := by decide
  rw [crcShift_eq, crcShift_eq, crcShift_eq, BitVec.shiftLeft_xor_distrib, BitVec.msb_xor, hpoly]
  ac_rfl

/-- The polynomial is odd and a shifted word is even, so only 0 is taken to 0. -/
theorem eq_zero_of_crcShift {a : Half} (h : crcShift a = 0#16) : a = 0#16 := by
  have hmsb : a.msb = decide (32768 ≤ a.toNat) := BitVec.msb_eq_decide a
  rw [crcShift_eq] at h
  by_cases htop : 32768 ≤ a.toNat
  · have hodd : (a <<< 1 ^^^ crcPoly).getLsbD 0 = true := by simp [crcPoly]
    simp only [hmsb, htop, decide_true, if_true] at h
    simp [h] at hodd
  · have hdouble : (a <<< 1).toNat = 0 := by simpa [hmsb, htop] using congrArg BitVec.toNat h
    rw [BitVec.toNat_shiftLeft, Nat.shiftLeft_eq] at hdouble
    exact BitVec.eq_of_toNat_eq (by simp; omega)

theorem crcShift_injective : Function.Injective crcShift := fun a b h => by
  have hzero : crcShift (a ^^^ b) = 0#16 := by rw [crcShift_xor, h, BitVec.xor_self]
  exact BitVec.xor_eq_zero_iff.1 (eq_zero_of_crcShift hzero)

theorem repeat_crcShift_xor (n : Nat) (a b : Half) :
    Nat.repeat crcShift n (a ^^^ b) = Nat.repeat crcShift n a ^^^ Nat.repeat crcShift n b := by
  induction n with
  | zero => rfl
  | succ n ih => rw [Nat.repeat, Nat.repeat, Nat.repeat, ih, crcShift_xor]

theorem repeat_crcShift_injective (n : Nat) : Function.Injective (Nat.repeat crcShift n) := by
  induction n with
  | zero => exact fun _ _ h => h
  | succ n ih => exact fun _ _ h => ih (crcShift_injective h)

/-- While no bit is shifted out, the division only shifts. -/
theorem repeat_crcShift_small {n : Nat} {c : Half} (h : c.toNat * 2 ^ n < 65536) :
    Nat.repeat crcShift n c = c <<< n := by
  induction n with
  | zero => simp [Nat.repeat]
  | succ n ih =>
    have hhalf : c.toNat * 2 ^ n < 32768 := by rw [pow_succ, ← mul_assoc] at h; omega
    have hval : (c <<< n).toNat = c.toNat * 2 ^ n := by
      rw [BitVec.toNat_shiftLeft, Nat.shiftLeft_eq]
      omega
    have hmsb : (c <<< n).msb = false := by rw [BitVec.msb_eq_decide, hval]; simp; omega
    rw [Nat.repeat, ih (by omega), crcShift_eq, hmsb, ← BitVec.shiftLeft_add]
    simp

/-! ### The update of one byte -/

/-- A byte in the high half of a word. -/
def highByte (b : Byte) : Half := b.setWidth 16 <<< 8

theorem crcUpdate_eq_repeat (c : Half) (b : Byte) : crcUpdate c b = Nat.repeat crcShift 8 (c ^^^ highByte b) := rfl

theorem highByte_xor (a b : Byte) : highByte (a ^^^ b) = highByte a ^^^ highByte b := by
  rw [highByte, BitVec.setWidth_xor, BitVec.shiftLeft_xor_distrib]
  rfl

theorem highByte_injective : Function.Injective highByte := fun a b h => by
  have := congrArg BitVec.toNat h
  simp only [highByte, byteToHigh_toNat] at this
  exact BitVec.eq_of_toNat_eq (by omega)

theorem crcUpdate_xor (c d : Half) (a b : Byte) :
    crcUpdate (c ^^^ d) (a ^^^ b) = crcUpdate c a ^^^ crcUpdate d b := by
  rw [crcUpdate_eq_repeat, crcUpdate_eq_repeat, crcUpdate_eq_repeat, highByte_xor, ← repeat_crcShift_xor]
  congr 1
  ac_rfl

theorem crcUpdate_zero : crcUpdate 0x0000 0x00 = 0x0000 := by decide

theorem crcUpdate_injective_acc (b : Byte) : Function.Injective (crcUpdate · b) := fun _ _ h =>
  (BitVec.xor_left_inj _).1 (repeat_crcShift_injective 8 h)

theorem crcUpdate_injective_byte (c : Half) : Function.Injective (crcUpdate c) := fun _ _ h =>
  highByte_injective ((BitVec.xor_right_inj _).1 (repeat_crcShift_injective 8 h))

/-- A running value is its low byte and its high byte. -/
theorem low_xor_highByte (c : Half) : (c.setWidth 8).setWidth 16 ^^^ highByte ((c >>> 8).setWidth 8) = c := by
  apply BitVec.eq_of_getLsbD_eq
  intro i hi
  by_cases h : i < 8
  · simp [highByte, h, hi]
  · simp [highByte, h, hi, show i - 8 < 8 by omega, show 8 + (i - 8) = i by omega]

theorem repeat_crcShift_low (c : Half) : Nat.repeat crcShift 8 ((c.setWidth 8).setWidth 16) = c <<< 8 := by
  have hlow : ((c.setWidth 8).setWidth 16).toNat = c.toNat % 256 := by simp; omega
  rw [repeat_crcShift_small (by rw [hlow]; omega)]
  apply BitVec.eq_of_toNat_eq
  rw [BitVec.toNat_shiftLeft, BitVec.toNat_shiftLeft, hlow, Nat.shiftLeft_eq, Nat.shiftLeft_eq]
  omega

theorem crcUpdate_eq_table (c : Half) (b : Byte) :
    crcUpdate c b = (c <<< 8) ^^^ crcTable ((c >>> 8).setWidth 8 ^^^ b) := by
  have hparts : c ^^^ highByte b
      = (c.setWidth 8).setWidth 16 ^^^ (0#16 ^^^ highByte ((c >>> 8).setWidth 8 ^^^ b)) := by
    conv_lhs => rw [← low_xor_highByte c]
    rw [highByte_xor, BitVec.zero_xor, BitVec.xor_assoc]
  rw [crcUpdate_eq_repeat, hparts, repeat_crcShift_xor, repeat_crcShift_low]
  rfl

/-! ### Strings -/

theorem crc16_eq_fold (s : Bytes) : crc16 s = crcFold 0x0000 s := BitVec.xor_zero

theorem crcFold_append (c : Half) (s t : Bytes) : crcFold c (s ++ t) = crcFold (crcFold c s) t := List.foldl_append

theorem crcFold_injective (s : Bytes) : Function.Injective (crcFold · s) := by
  induction s with
  | nil => exact fun _ _ h => h
  | cons b s ih => exact fun _ _ h => crcUpdate_injective_acc b (ih h)

theorem crcFold_zeros (k : Nat) : crcFold 0x0000 (List.replicate k 0x00) = 0x0000 := by
  induction k with
  | zero => rfl
  | succ k ih =>
    rw [List.replicate_succ, crcFold, List.foldl_cons, crcUpdate_zero]
    exact ih

theorem crcFold_xor (c d : Half) (s t : Bytes) (h : s.length = t.length) :
    crcFold (c ^^^ d) (List.zipWith (· ^^^ ·) s t) = crcFold c s ^^^ crcFold d t := by
  induction s generalizing c d t with
  | nil =>
    obtain rfl := List.length_eq_zero_iff.1 h.symm
    rfl
  | cons a s ih =>
    obtain ⟨b, t, rfl⟩ := List.exists_cons_of_length_eq_add_one h.symm
    have hstep := ih (crcUpdate c a) (crcUpdate d b) t (Nat.succ.inj h)
    rw [← crcUpdate_xor] at hstep
    exact hstep

/-- The table form shifts a byte out where it meets itself, so the running value's own bytes clear it. -/
theorem crcFold_own_bytes (c : Half) : crcFold c [hi8 c, lo8 c] = 0x0000 := by
  have hhigh : (c >>> 8).setWidth 8 = hi8 c := rfl
  have hlow : ((c <<< 8) >>> 8).setWidth 8 = lo8 c := by
    apply BitVec.eq_of_toNat_eq
    simp only [BitVec.toNat_setWidth, BitVec.toNat_ushiftRight, BitVec.toNat_shiftLeft, Nat.shiftLeft_eq,
      Nat.shiftRight_eq_div_pow, lo8_eq_ofNat, BitVec.toNat_ofNat]
    omega
  have hzero : crcTable 0#8 = 0#16 := crcUpdate_zero
  have hgone : c <<< 8 <<< 8 = 0#16 := by
    rw [← BitVec.shiftLeft_add]
    exact BitVec.shiftLeft_eq_zero (by omega)
  have hfirst : crcUpdate c (hi8 c) = c <<< 8 := by
    rw [crcUpdate_eq_table, hhigh, BitVec.xor_self, hzero, BitVec.xor_zero]
  have hsecond : crcUpdate (c <<< 8) (lo8 c) = 0#16 := by
    rw [crcUpdate_eq_table, hlow, BitVec.xor_self, hzero, BitVec.xor_zero, hgone]
  rw [crcFold, List.foldl_cons, List.foldl_cons, hfirst, hsecond]
  rfl

/-- Every change of one byte changes the CRC: the bytes before it leave the same value, the changed byte separates, and
the bytes after it keep the values apart. -/
theorem crc16_set_ne {s : Bytes} {i : Nat} (hi : i < s.length) {b : Byte} (hb : b ≠ s[i]) :
    crc16 (s.set i b) ≠ crc16 s := by
  intro h
  have hsplit : s = s.take i ++ s[i] :: s.drop (i + 1) := by simp
  rw [crc16_eq_fold, crc16_eq_fold, List.set_eq_take_append_cons_drop, if_pos hi, crcFold_append] at h
  conv at h => rhs; rw [hsplit, crcFold_append]
  exact hb (crcUpdate_injective_byte _ (crcFold_injective _ h))

/-- Flipping a bit changes a byte. -/
theorem flipBit_ne (b : Byte) {j : Nat} (hj : j < 8) : b ^^^ ((1 : Byte) <<< j) ≠ b := by
  intro h
  have hbit := congrArg (·.getLsbD j) h
  simp [hj] at hbit

/-! ### The obligations -/

/-- Settles O5: linearity splits the running value into its low byte, which is only shifted, and its high byte. -/
theorem crcTableDriven : Obligations.CrcTableDriven := crcUpdate_eq_table

/-- Settles O7: the update takes 0 and a zero byte to 0, it is linear, and a running value's own bytes clear it. -/
theorem crcAlgebra : Obligations.CrcAlgebra := by
  refine ⟨rfl, fun b => crc16_eq_fold [b], fun k s => ?_, fun s t h => ?_, fun s => ?_⟩
  · rw [crc16_eq_fold, crc16_eq_fold, crcFold_append, crcFold_zeros]
  · rw [crc16_eq_fold, crc16_eq_fold, crc16_eq_fold]
    exact crcFold_xor 0x0000 0x0000 s t h
  · rw [crc16_eq_fold, crc16_eq_fold, crcFold_append]
    exact crcFold_own_bytes _

/-- Settles O8: a flipped bit is a changed byte. -/
theorem crcSingleBitError : Obligations.CrcSingleBitError := by
  intro s i j hi hj
  refine crc16_set_ne hi ?_
  rw [List.getD_eq_getElem _ _ hi]
  exact flipBit_ne _ hj

end Sys2Proof.Claims

/-! PROOFS. UNPACK of a frame and of a damaged frame (42_frame_codec.md, R177, R178). -/

namespace Sys2Proof.Claims

open Sys2Proof.Machine

/-- A byte string in the form of a frame: start marker, length byte, payload, two CRC bytes, end marker. -/
def framed (start len : Byte) (p : Bytes) (crcHi crcLo last : Byte) : Bytes :=
  start :: len :: (p ++ [crcHi, crcLo, last])

theorem frame_eq_framed (p : Bytes) :
    frame p = framed startShort (BitVec.ofNat 8 p.length) p (hi8 (crc16 p)) (lo8 (crc16 p)) endMarkByte := frame_eq p

section
variable {start len crcHi crcLo last : Byte} {p : Bytes}

theorem framed_length : (framed start len p crcHi crcLo last).length = p.length + 5 := by simp [framed]

theorem framed_payload : framePayload (framed start len p crcHi crcLo last) = p := by
  rw [framePayload, framed_length]
  simp [framed]

theorem framed_crc : frameCrc (framed start len p crcHi crcLo last) = be16 crcHi crcLo := by
  rw [frameCrc, framed_length, show p.length + 5 - 3 = p.length + 2 by omega,
    show p.length + 5 - 2 = p.length + 3 by omega]
  simp [framed, List.getD_eq_getElem?_getD]

theorem framed_envelope : envelopeOk (framed start len p crcHi crcLo last) = true
    ↔ p.length ≤ 255 ∧ start = startShort ∧ len.toNat = p.length ∧ last = endMarkByte := by
  have hlast : (framed start len p crcHi crcLo last).getD (p.length + 4) 0 = last := by
    simp [framed, List.getD_eq_getElem?_getD]
  rw [envelopeOk, framed_length, show p.length + 5 - 1 = p.length + 4 by omega, hlast]
  simp only [framed, List.getD_cons_zero, List.getD_cons_succ, Bool.and_eq_true, decide_eq_true_eq, beq_iff_eq,
    Nat.add_sub_cancel, and_assoc]
  exact ⟨fun ⟨_, hp, hrest⟩ => ⟨by omega, hrest⟩, fun ⟨hp, hrest⟩ => ⟨by omega, by omega, hrest⟩⟩

theorem unpack_framed_malformed (h : start ≠ startShort ∨ len.toNat ≠ p.length ∨ last ≠ endMarkByte) :
    unpack (framed start len p crcHi crcLo last) = (.malformedFrame, none) := by
  have henv : envelopeOk (framed start len p crcHi crcLo last) = false := by
    rw [Bool.eq_false_iff, ne_eq, framed_envelope]
    tauto
  rw [unpack, if_pos henv]

theorem unpack_framed_mismatch (hp : p.length ≤ 255) (hlen : len.toNat = p.length)
    (hcrc : crc16 p ≠ be16 crcHi crcLo) :
    unpack (framed startShort len p crcHi crcLo endMarkByte) = (.checksumMismatch, none) := by
  have henv : envelopeOk (framed startShort len p crcHi crcLo endMarkByte) = true :=
    framed_envelope.2 ⟨hp, rfl, hlen, rfl⟩
  rw [unpack, if_neg (by simp [henv]), framed_payload, framed_crc, if_pos hcrc]

/-- A byte of a framed string changed, by where it stands. -/
theorem framed_set_payload {i : Nat} (hi : i < p.length) (b : Byte) :
    (framed start len p crcHi crcLo last).set (i + 2) b = framed start len (p.set i b) crcHi crcLo last := by
  simp [framed, hi]

theorem framed_set_crcHi (b : Byte) :
    (framed start len p crcHi crcLo last).set (p.length + 2) b = framed start len p b crcLo last := by
  simp [framed]

theorem framed_set_crcLo (b : Byte) :
    (framed start len p crcHi crcLo last).set (p.length + 3) b = framed start len p crcHi b last := by
  simp [framed]

theorem framed_set_last (b : Byte) :
    (framed start len p crcHi crcLo last).set (p.length + 4) b = framed start len p crcHi crcLo b := by
  simp [framed]

end

theorem be16_injective {a b c d : Byte} (h : be16 a b = be16 c d) : a = c ∧ b = d := by
  have hval := congrArg BitVec.toNat h
  rw [be16_toNat, be16_toNat] at hval
  have hb := b.isLt
  have hd := d.isLt
  exact ⟨BitVec.eq_of_toNat_eq (by omega), BitVec.eq_of_toNat_eq (by omega)⟩

/-- Any one changed byte of a frame makes UNPACK fail, with the status its place gives (R178). -/
theorem unpack_frame_set {p : Bytes} {i : Nat} (hp : p.length ≤ 255) (hi : i < p.length + 5) {b : Byte}
    (hb : b ≠ (frame p).getD i 0) :
    unpack ((frame p).set i b)
      = (if 2 ≤ i ∧ i ≤ p.length + 3 then Status.checksumMismatch else Status.malformedFrame, none) := by
  have hlen : (BitVec.ofNat 8 p.length).toNat = p.length := by simp; omega
  have hcrc : crc16 p = be16 (hi8 (crc16 p)) (lo8 (crc16 p)) := (be16_hi_lo _).symm
  have hplace : i = 0 ∨ i = 1 ∨ (∃ k, k < p.length ∧ i = k + 2) ∨ i = p.length + 2 ∨ i = p.length + 3
      ∨ i = p.length + 4 := by
    by_cases hk : 2 ≤ i ∧ i - 2 < p.length
    · exact .inr (.inr (.inl ⟨i - 2, hk.2, by omega⟩))
    · omega
  rw [frame_eq_framed] at hb ⊢
  rcases hplace with rfl | rfl | ⟨k, hk, rfl⟩ | rfl | rfl | rfl
  · have hstart : b ≠ startShort := hb
    rw [if_neg (by omega)]
    exact unpack_framed_malformed (.inl hstart)
  · have hlength : b ≠ BitVec.ofNat 8 p.length := hb
    rw [if_neg (by omega)]
    exact unpack_framed_malformed (.inr (.inl fun h => hlength (BitVec.eq_of_toNat_eq (h.trans hlen.symm))))
  · have hpayload : b ≠ p[k] := by simpa [framed, List.getD_eq_getElem?_getD, List.getElem?_append_left hk, hk] using hb
    rw [if_pos (by omega), framed_set_payload hk]
    refine unpack_framed_mismatch (by simpa using hp) (by simpa using hlen) ?_
    rw [← hcrc]
    exact crc16_set_ne hk hpayload
  · have hhigh : b ≠ hi8 (crc16 p) := by simpa [framed, List.getD_eq_getElem?_getD] using hb
    rw [if_pos (by omega), framed_set_crcHi]
    exact unpack_framed_mismatch hp hlen fun h => hhigh (be16_injective (hcrc.symm.trans h)).1.symm
  · have hlow : b ≠ lo8 (crc16 p) := by simpa [framed, List.getD_eq_getElem?_getD] using hb
    rw [if_pos (by omega), framed_set_crcLo]
    exact unpack_framed_mismatch hp hlen fun h => hlow (be16_injective (hcrc.symm.trans h)).2.symm
  · have hend : b ≠ endMarkByte := by simpa [framed, List.getD_eq_getElem?_getD] using hb
    rw [if_neg (by omega), framed_set_last]
    exact unpack_framed_malformed (.inr (.inr hend))

/-! ### The obligations -/

/-- Settles O19: UNPACK's checks hold of every frame. -/
theorem unpackOfFrame : Obligations.UnpackOfFrame := by
  intro s p h hp
  rw [exec_unpack_ready h, ← frame_eq_wireFrame, unpack_frame_of_length hp]

/-- Settles O20: a flipped bit is a changed byte. -/
theorem unpackDetectsBitFlip : Obligations.UnpackDetectsBitFlip := by
  intro s p i j h hp hi hj
  refine ⟨_, rfl, ?_⟩
  rw [exec_unpack_ready h, ← frame_eq_wireFrame, unpack_frame_set hp hi (flipBit_ne _ hj)]

end Sys2Proof.Claims

/-! PROOFS. Fields read back (20_memory.md, R64; 41_field_codec.md, R153, R154): a GET at the place an APPEND wrote, the
error of a scaled field, and the dispatcher's readers. -/

namespace Sys2Proof.Claims

open Sys2Proof.Machine

/-! ### Reading a slice of what was written -/

theorem readBytes_writeBytes (m : Memory) (a : Nat) {bs : Bytes} {i n : Nat} (h : i + n ≤ bs.length) :
    (m.writeBytes a bs).readBytes (a + i) n = some ((bs.drop i).take n) := by
  refine Memory.readBytes_eq_some.2 ⟨by simp; omega, fun j hj => ?_⟩
  have hj' : j < n := by simp at hj; omega
  rw [Nat.add_assoc, Memory.read_writeBytes_inside m a bs (j := i + j) (by omega)]
  simp

/-- A GET in a ready state whose cells are all written. -/
theorem exec_get_reads {i : Instr} {domain : Bool} {w : Nat} {value : Bytes → OpResult} {u : State} {bs : Bytes}
    (hu : u.Ready) (he : exec i u = hostOp domain u (getField w value)) (hd : domain = true) (hroom : u.cur + w ≤ 256)
    (hread : u.pb.readBytes u.cur w = some bs) :
    exec i u = .next ({ u with cur := u.cur + w }.complete .ok (value bs)) :=
  he.trans ((hostOp_run hu hd).trans (getField_reads hroom hread))

/-- The state an APPEND of `bs` leaves (R130). -/
def appended (s : State) (bs : Bytes) : State := (s.putBytes bs).complete .ok .none

section
variable {s : State} {domain : Bool} {bs : Bytes}

theorem exec_append_fits {i : Instr} (h : s.Ready) (he : exec i s = hostOp domain s (appendField bs))
    (hd : domain = true) (hfits : s.cur + bs.length ≤ 256) : exec i s = .next (appended s bs) :=
  he.trans ((hostOp_run h hd).trans (appendField_fits hfits))

theorem appended_slice {i w : Nat} (hw : i + w ≤ bs.length) :
    (appended s bs).pb.readBytes (s.cur + i) w = some ((bs.drop i).take w) := readBytes_writeBytes s.pb s.cur hw

/-- A GET at the place of the APPEND before it reads the bytes that were written (R64). -/
theorem exec_get_appended {i : Instr} {w : Nat} {value : Bytes → OpResult} (h : s.Ready)
    (he : ∀ u, exec i u = hostOp domain u (getField w value)) (hd : domain = true) (hw : w ≤ bs.length)
    (hfits : s.cur + bs.length ≤ 256) :
    exec i { appended s bs with cur := s.cur }
      = .next ({ appended s bs with cur := s.cur + w }.complete .ok (value (bs.take w))) := by
  have hready : State.Ready { appended s bs with cur := s.cur } := h
  have hslice := appended_slice (s := s) (bs := bs) (i := 0) (w := w) (by omega)
  exact exec_get_reads hready (he _) hd (show s.cur + w ≤ 256 by omega) hslice

end

/-! ### Readings of an encoded value of another type -/

theorem readS16_encode16_eq_bmod (v : Int) : readS16 (encode16 v) = v.bmod 65536 := by
  simp only [readS16, encode16, bytes16, List.getD_cons_zero, List.getD_cons_succ, be16_hi_lo, wrap16,
    BitVec.toInt_ofInt]

theorem readS16_encode16_natCast {n : Nat} (h : n ≤ 65535) :
    readS16 (encode16 n) = if n < 32768 then (n : Int) else n - 65536 := by
  rw [readS16_encode16_eq_bmod, Int.bmod_def]
  split <;> split <;> omega

/-- The first two bytes of a 32-bit field are its high half, the others its low half (R61). -/
theorem readU16_encode32_halves {n : Nat} (h : n ≤ 4294967295) :
    readU16 ((encode32 n).take 2) = n / 65536 ∧ readU16 ((encode32 n).drop 2) = n % 65536 := by
  rw [encode32_eq_four]
  simp only [four, readU16_eq, List.take_succ_cons, List.drop_succ_cons, List.drop_zero, List.getD_cons_zero,
    List.getD_cons_succ, BitVec.toNat_ofInt]
  omega

/-! ### The error of a scaled field -/

theorem abs_scaled_sub {q k : Rat} (hk : 0 < k) (r : Int) : |(r : Rat) / k - q| = |q * k - r| / k := by
  rw [abs_sub_comm, ← abs_of_pos hk, ← abs_div, abs_of_pos hk]
  congr 1
  field_simp

theorem quantisation_nearest {q k : Rat} (hk : 0 < k) {r : Int} (h : Rounds .nearestTiesAway (q * k) r) :
    |(r : Rat) / k - q| ≤ 1 / (2 * k) := by
  obtain ⟨hdist, -⟩ := h
  rw [abs_scaled_sub hk, ← div_div]
  exact div_le_div_of_nonneg_right hdist hk.le

theorem quantisation_towardZero {q k : Rat} (hk : 0 < k) {r : Int} (h : Rounds .towardZero (q * k) r) :
    |(r : Rat) / k - q| < 1 / k := by
  obtain ⟨-, hdist, -⟩ := h
  rw [abs_scaled_sub hk]
  exact div_lt_div_of_pos_right hdist hk

section
variable {s t : State} {w : Nat} {inRange : Int → Bool} {bytes : Int → Bytes} {v : FloatIn} {q k : Rat}

/-- A scaled APPEND that took no fault stored its operand's rounded product (R148, R149). -/
theorem appendScaled_stored (h : s.Ready) (hv : HasValue s.cfg v q) (hw : ∀ r, (bytes r).length = w)
    (he : appendScaled w inRange bytes v k s = .next t) (hf : t.fault = none) :
    ∃ r, Rounds s.cfg.scaleRound (q * k) r ∧ inRange r = true ∧ s.cur + w ≤ 256
      ∧ t = appended s (bytes r) := by
  obtain ⟨-, hfault, -⟩ := h
  have hnofault : ∀ e, raiseFault e s ≠ .next t := fun e hraise => by
    rw [raiseFault_eq hfault] at hraise
    cases hraise
    simp at hf
  rcases appendScaled_cases v k hw with ⟨-, hrun⟩ | ⟨-, e, -, hrun⟩ | ⟨hfits, r, hraw, hrun⟩ <;> rw [hrun] at he
  · exact absurd he (hnofault _)
  · exact absurd he (hnofault _)
  · have hround : Rounds s.cfg.scaleRound (q * k) (roundScaled s.cfg.scaleRound (q * k)) := rounds_iff.2 rfl
    rw [scaledRaw_of_hasValue hv hround] at hraw
    split at hraw <;> cases hraw
    next hin =>
    cases he
    exact ⟨_, hround, hin, hfits, rfl⟩

/-- R153 for a scaled field of either width. -/
theorem quantisation_readBack {op get : Instr} {reading : Bytes → Int} (h : s.Ready) (hk : 0 < k)
    (hv : HasValue s.cfg v q) (hop : exec op s = hostOp (inScale k) s (appendScaled w inRange bytes v k))
    (hget : ∀ u, exec get u = hostOp (inScale k) u (getField w fun bs => .scaled (reading bs) k))
    (hw : ∀ r, (bytes r).length = w) (hread : ∀ r, inRange r = true → reading (bytes r) = r)
    (hexec : exec op s = .next t) (hf : t.fault = none) :
    ∃ u r, exec get { t with cur := s.cur } = .next u ∧ u.result = .scaled r k
      ∧ (s.cfg.scaleRound = .nearestTiesAway → |(r : Rat) / k - q| ≤ 1 / (2 * k))
      ∧ (s.cfg.scaleRound = .towardZero → |(r : Rat) / k - q| < 1 / k) := by
  have hscale : inScale k = true := inScale_iff.2 hk
  rw [hop, hostOp_run h hscale] at hexec
  obtain ⟨r, hround, hin, hfits, rfl⟩ := appendScaled_stored h hv hw hexec hf
  have hback := exec_get_appended (bs := bytes r) h hget hscale (hw r).ge (by rwa [hw r])
  rw [List.take_of_length_le (hw r).le, hread r hin] at hback
  refine ⟨_, r, hback, rfl, fun hmode => ?_, fun hmode => ?_⟩
  · exact quantisation_nearest hk (hmode ▸ hround)
  · exact quantisation_towardZero hk (hmode ▸ hround)

end

/-! ### A GET on a loaded string -/

/-- FC_LOAD, FC_SKIP and a GET read a slice of the string (R154). -/
theorem runAll_load_skip_get {s : State} {p : Bytes} {i w : Nat} {get : Instr} {value : Bytes → OpResult}
    (h : s.Ready) (hp : p.length ≤ 256) (hfits : i + w ≤ p.length)
    (hget : ∀ u, exec get u = hostOp true u (getField w value)) :
    ∃ t, runAll [exec (.fcLoad p), exec (.fcSkip i), exec get] s = .next t
      ∧ t.result = value ((p.drop i).take w) := by
  have hloaded := exec_fcLoad_ready h hp
  generalize hu : ({ s with pb := Memory.ofBytes p, cur := 0, status := .ok, result := .none } : State) = u at hloaded
  have hready : u.Ready := hu ▸ h
  have hcur : u.cur = 0 := hu ▸ rfl
  have hpb : u.pb = Memory.ofBytes p := hu ▸ rfl
  have hskipped := exec_fcSkip_ready hready (n := i) (by omega) (by omega)
  rw [withRoom_fits (by rw [hcur]; omega), Int.toNat_natCast, hcur, Nat.zero_add] at hskipped
  have hskipReady : State.Ready { u with cur := i, status := .ok, result := .none } := hready
  have hgot := exec_get_reads hskipReady (hget _) rfl (Nat.le_trans hfits hp)
    (by rw [hpb]; exact Memory.readBytes_ofBytes p hfits)
  simp only [runAll_cons, runAll_nil, hloaded, hskipped, hgot, andThen_next]
  exact ⟨_, rfl, rfl⟩

theorem readU8_drop_take (p : Bytes) (i : Nat) : readU8 ((p.drop i).take 1) = (u8at p i).toNat := by
  simp [readU8, u8at, List.getD_eq_getElem?_getD]

theorem readS16_drop_take (p : Bytes) (i : Nat) : readS16 ((p.drop i).take 2) = s16at p i := by
  simp [readS16, s16at, List.getD_eq_getElem?_getD]

theorem readS32_drop_take (p : Bytes) (i : Nat) : readS32 ((p.drop i).take 4) = s32at p i := by
  simp [readS32, s32at, List.getD_eq_getElem?_getD]

/-! ### The obligations -/

/-- Settles O13: the GET reads the bytes the APPEND wrote, and the readings of those bytes are arithmetic. -/
theorem readBackWritten : Obligations.ReadBackWritten := by
  intro s h
  refine ⟨fun v hlo hhi hfits => ?_, fun v hlo hhi hfits => ?_, fun n hn hfits => ?_, fun n hn hfits => ?_⟩
  · have hin : inS16 v = true := inS16_iff.2 ⟨hlo, hhi⟩
    exact ⟨_, _, exec_append_fits (bs := encode16 v) h rfl hin hfits,
      exec_get_appended (i := .getInt16) (bs := encode16 v) h (fun _ => rfl) rfl le_rfl hfits,
      congrArg OpResult.signed (readS16_encode16 hin), rfl⟩
  · have hin : inS32 v = true := inS32_iff.2 ⟨hlo, hhi⟩
    exact ⟨_, _, exec_append_fits (bs := encode32 v) h rfl hin hfits,
      exec_get_appended (i := .getInt32) (bs := encode32 v) h (fun _ => rfl) rfl le_rfl hfits,
      congrArg OpResult.signed (readS32_encode32 hin), rfl⟩
  · have hin : inU16 n = true := inU16_iff.2 (by omega)
    exact ⟨_, _, exec_append_fits (bs := encode16 n) h rfl hin hfits,
      exec_get_appended (i := .getInt16) (bs := encode16 n) h (fun _ => rfl) rfl le_rfl hfits,
      congrArg OpResult.signed (readS16_encode16_natCast hn)⟩
  · have hin : inU32 n = true := inU32_iff.2 (by omega)
    obtain ⟨hhigh, hlow⟩ := readU16_encode32_halves hn
    have hfirst := exec_get_appended (i := .getUint16) (bs := encode32 n) (w := 2) h (fun _ => rfl) rfl (by simp) hfits
    have hready : State.Ready ({ appended s (encode32 n) with cur := s.cur + 2 }.complete .ok
      (.unsigned (readU16 ((encode32 n).take 2)))) := h
    have hsecond := exec_get_reads (i := .getUint16) hready rfl rfl (show s.cur + 2 + 2 ≤ 256 from hfits)
      (appended_slice (s := s) (bs := encode32 n) (i := 2) (w := 2) le_rfl)
    exact ⟨_, _, _, exec_append_fits (bs := encode32 n) h rfl hin hfits, hfirst, congrArg OpResult.unsigned hhigh,
      hsecond, congrArg OpResult.unsigned hlow⟩

/-- Settles O16: the raw value read back is the rounded product, whose distance from the product R148 bounds. -/
theorem quantisationBound : Obligations.QuantisationBound := by
  intro s t v q k h hk hv
  exact ⟨quantisation_readBack h hk hv rfl (fun _ => rfl) encode16_length fun _ => readS16_encode16,
    quantisation_readBack h hk hv rfl (fun _ => rfl) encode32_length fun _ => readS32_encode32⟩

/-- Settles O46: each GET reads the slice of the string that the reader reads. -/
theorem readersAgreeWithGets : Obligations.ReadersAgreeWithGets := by
  intro s p i h hp
  refine ⟨fun hfits => ?_, fun hfits => ?_, fun hfits => ?_⟩
  · rw [← readU8_drop_take]
    exact runAll_load_skip_get (get := .getUint8) h hp hfits fun _ => rfl
  · rw [← readS16_drop_take]
    exact runAll_load_skip_get (get := .getInt16) h hp hfits fun _ => rfl
  · rw [← readS32_drop_take]
    exact runAll_load_skip_get (get := .getInt32) h hp hfits fun _ => rfl

end Sys2Proof.Claims

/-! PROOFS. The turns of the agents (00_scope.md, R6 to R8; 30_encoding.md, R102): what the host's next item does on the
block's turn, the moves of the outside world, and the pseudo-operations run to their end. -/

namespace Sys2Proof.Claims

open Sys2Proof.Machine

/-! ### The host's turn -/

section
variable {s : State} {ts : List Turn}

/-- The block's own turn outside an attempt is the host's. -/
theorem step_hostTurn (hc : s.cfg.valid = true) (hs : s.rxState = .inactive) (h : BlockTurn s ts) :
    ∃ scheduled, step s = hostStep scheduled { s with schedule := ts } := by
  rcases h with ⟨hnone, rfl⟩ | hsched | hsched
  · refine ⟨false, Eq.trans (step_unscheduled hc hnone) (Eq.trans (blockStep_idle hs) ?_)⟩
    rw [← hnone]
    rfl
  · exact ⟨true, Eq.trans (step_byteFirst hc hsched) (blockStep_idle hs)⟩
  · exact ⟨true, Eq.trans (step_deadlineFirst hc hsched) (blockStep_idle hs)⟩

theorem issueOp_of_ready (h : s.Ready) (i : Instr) : issueOp i s = exec i s :=
  issueOp_ready fun _ => exec_neverStops h i _

theorem issueOp_reset : issueOp .reset s = exec .reset s := issueOp_ready fun _ => neverStops_execReset _

section
variable {rest : List HostItem} (hc : s.cfg.valid = true) (hs : s.rxState = .inactive) (hturn : BlockTurn s ts)
include hc hs hturn

theorem step_line {text : Bytes} (hhost : s.host = .line text :: rest) :
    step s = issueLine text { s with host := rest, schedule := ts } := by
  obtain ⟨scheduled, hstep⟩ := step_hostTurn hc hs hturn
  exact hstep.trans (hostStep_line hhost)

theorem step_queued (hf : s.fault = none) {i : Instr} (hhost : s.host = .op i :: rest) :
    step s = exec i { s with host := rest, schedule := ts } := by
  obtain ⟨scheduled, hstep⟩ := step_hostTurn hc hs hturn
  have hready : State.Ready { s with host := rest, schedule := ts } := ⟨hc, hf, hs⟩
  rw [hstep, hostStep_op (s := { s with schedule := ts }) hhost]
  exact issueOp_of_ready hready i

theorem step_readField {f : TelemetryField} (hhost : s.host = .readField f :: rest) :
    step s = issueRead f { s with host := rest, schedule := ts } := by
  obtain ⟨scheduled, hstep⟩ := step_hostTurn hc hs hturn
  exact hstep.trans (hostStep_readField hhost)

theorem step_decodeIfOk {d : Dialect} (hhost : s.host = .decodeIfOk d :: rest) :
    step s = exchangeDecode d { s with host := rest, schedule := ts } := by
  obtain ⟨scheduled, hstep⟩ := step_hostTurn hc hs hturn
  exact hstep.trans (hostStep_decodeIfOk hhost)

end

/-! ### What a line does, by what it decodes to -/

section
variable {text : Bytes}

theorem issueLine_op {i : Instr} (h : decodeLine text = .ok (.op i)) : issueLine text s = issueOp i s := by
  simp only [issueLine, h]

theorem issueLine_deliver {bs : Bytes} (h : decodeLine text = .ok (.deliver bs)) :
    issueLine text s = .next { s with inq := s.inq ++ bs } := by
  simp only [issueLine, h]

theorem issueLine_blank (h : decodeLine text = .ok .blank) : issueLine text s = .next s := by
  simp only [issueLine, h]

theorem issueLine_error {e : DecodeError} (h : decodeLine text = .error e) :
    issueLine text s = .refused (.undecodable e) := by
  simp only [issueLine, h]

end

/-! ### The wait -/

/-- The block has no step of its own (R191, R303): an attempt with neither byte nor deadline, or an idle host. -/
def NothingToDo (s : State) : Prop :=
  (s.InAttempt ∧ s.inq = [] ∧ s.now < s.t0 + s.cfg.rxDeadline) ∨ (s.rxState = .inactive ∧ s.host = [])

theorem blockStep_wait (h : NothingToDo s) (w : Option Bool) : blockStep w s = waitStep w.isSome s := by
  rcases h with ⟨⟨-, hf, ha⟩, hinq, hearly⟩ | ⟨hs, hhost⟩
  · rw [blockStep_attempt ha, attemptStep_wait hf (deadlinePassed_eq_false hearly) hinq]
  · rw [blockStep_idle hs, hostStep_wait hhost]

theorem step_wait_scheduled (hc : s.cfg.valid = true) (h : NothingToDo s)
    (hturn : s.schedule = .byteFirst :: ts ∨ s.schedule = .deadlineFirst :: ts) :
    step s = .next { s with schedule := ts } := by
  have hlater : NothingToDo { s with schedule := ts } := h
  rcases hturn with hsched | hsched
  · rw [step_byteFirst hc hsched, blockStep_wait hlater]
    rfl
  · rw [step_deadlineFirst hc hsched, blockStep_wait hlater]
    rfl

theorem step_wait_unscheduled (hc : s.cfg.valid = true) (h : NothingToDo s) (hnone : s.schedule = []) :
    step s = worldStep (Config.worldMove s.freeIdx) { s with freeIdx := s.freeIdx + 1 } := by
  rw [step_unscheduled hc hnone, blockStep_wait h]
  rfl

end

/-! ### The host's reads of telemetry -/

/-- The rows of R32 and R33 are the model's raw value and scale of each field. -/
theorem mem_telemetryRows {s : State} {f : TelemetryField} {v : Option Int} {k : Rat} :
    (f, v, k) ∈ telemetryRows s ↔ v = rawOf f s ∧ k = scaleOf f := by
  cases f <;> simp [telemetryRows, rawOf, scaleOf, eq_comm]

theorem rawOf_resetRegisters (f : TelemetryField) (s : State) : rawOf f s.resetRegisters = none := by
  cases f <;> simp [rawOf, McSnap.reset, BmsSnap.reset]

theorem issueRead_unwritten {s : State} {f : TelemetryField} (h : s.Ready) (hraw : rawOf f s = none) :
    issueRead f s = .next { s with fault := some .unwritten } := by
  obtain ⟨-, hf, -⟩ := id h
  rw [issueRead, readField, hostOp_ready h, hraw, raiseFault_eq hf]
  rfl

theorem issueRead_value {s : State} {f : TelemetryField} {raw : Int} (h : s.Ready) (hraw : rawOf f s = some raw) :
    issueRead f s = .next { s with result := .telemetry raw (scaleOf f) } := by
  rw [issueRead, readField, hostOp_ready h, hraw]
  rfl

/-! ### The pseudo-operations run to their end (R102) -/

/-- The first of several turns of the block, and the turns after it. -/
theorem blockTurn_of_blockTurns {s : State} {n : Nat} {ts : List Turn} (h : BlockTurns s (n + 1) ts) :
    ∃ ts', BlockTurn s ts' ∧ ∀ u : State, u.schedule = ts' → BlockTurns u n ts := by
  rcases h with hsched | ⟨hnone, rfl⟩
  · rw [List.replicate_succ, List.cons_append] at hsched
    exact ⟨_, .inr (.inl hsched), fun _ hu => .inl hu⟩
  · exact ⟨[], .inl ⟨hnone, rfl⟩, fun _ hu => .inr ⟨hu, rfl⟩⟩

/-- After its last turn the block's schedule is what was scheduled after its turns. -/
theorem schedule_of_blockTurns_zero {s : State} {ts : List Turn} (h : BlockTurns s 0 ts) : s.schedule = ts := by
  rcases h with hsched | ⟨hnone, rfl⟩
  · exact hsched
  · exact hnone

/-- A queued CRC_READ run on its turn, after the queued updates before it. -/
theorem run_crcUpdates {s : State} {str : Bytes} {items : List HostItem} {ts : List Turn} (h : s.Ready)
    (hhost : s.host = str.map (fun b => .op (.crcUpdate b)) ++ .op .crcRead :: items)
    (hturns : BlockTurns s (str.length + 1) ts) :
    Host.Core.run core (str.length + 1) s = .next { s with
      crcAcc := crcFold s.crcAcc str, status := .ok, result := .crc (crcFold s.crcAcc str),
      host := items, schedule := ts } := by
  induction str generalizing s with
  | nil =>
    obtain ⟨hc, hf, hs⟩ := id h
    obtain ⟨ts', hturn, hlater⟩ := blockTurn_of_blockTurns hturns
    have hready : State.Ready { s with host := items, schedule := ts' } := h
    obtain rfl : ts' = ts := schedule_of_blockTurns_zero (hlater { s with schedule := ts' } rfl)
    exact run_next ((step_queued hc hs hturn hf hhost).trans (exec_crcRead_ready hready)) rfl
  | cons b str ih =>
    obtain ⟨hc, hf, hs⟩ := id h
    obtain ⟨ts', hturn, hlater⟩ := blockTurn_of_blockTurns hturns
    generalize hitems : str.map (fun b => HostItem.op (.crcUpdate b)) ++ .op .crcRead :: items = items' at hhost ⊢
    have hready : State.Ready { s with host := items', schedule := ts' } := h
    have hhost' : s.host = .op (.crcUpdate b) :: items' := by rw [hhost, ← hitems]; rfl
    refine run_next ((step_queued hc hs hturn hf hhost').trans (exec_crcUpdate_ready hready b)) ?_
    exact ih (s := { s with
      crcAcc := crcUpdate s.crcAcc b, status := .ok, result := .none, host := items', schedule := ts' })
      h hitems.symm (hlater _ rfl)

section
variable {s : State} (h : s.Ready)
include h

theorem exec_crcOver_ready (str : Bytes) :
    exec (.crcOver str) s = .next { s with
      crcAcc := 0x0000, status := .ok, result := .none,
      host := str.map (fun b => .op (.crcUpdate b)) ++ .op .crcRead :: s.host } := by
  have hinit : execCrcInit s = _ := exec_crcInit_ready h
  rw [exec, execCrcOver, hinit, expandTo_next]
  simp

theorem exec_send_ready {p : Bytes} (hp : p.length ≤ 255) :
    exec (.send p) s = .next { s with
      pb := Memory.ofBytes p, cur := 0, status := .ok, result := .none,
      host := .op (.fcSkip p.length) :: .op .pack :: s.host } := by
  have hload : execFcLoad p s = _ := exec_fcLoad_ready h (hp.trans (by decide))
  rw [exec, execSend, hostOp_run h (inPayload_iff.2 hp), hload]
  rfl

theorem exec_exchange_ready (d : Dialect) :
    exec (.exchange d) s = .next { s.startAttempt with host := .decodeIfOk d :: s.host } := by
  have hreceive : execReceive s = _ := exec_receive_ready h
  rw [exec, execExchange, hreceive]
  rfl

end

theorem exec_fcSkip_fromStart {s : State} (h : s.Ready) (hcur : s.cur = 0) {n : Nat} (hn : n ≤ 256) :
    exec (.fcSkip n) s = .next { s with cur := n, status := .ok, result := .none } := by
  have hskip := exec_fcSkip_ready h (n := n) (by omega) (by omega)
  rw [hskip, withRoom_fits (by rw [hcur]; simpa using hn)]
  simp [hcur]

/-- A queued PACK over a loaded payload, run on its turn. -/
theorem step_queued_pack {s : State} {p : Bytes} {items : List HostItem} {ts : List Turn} (h : s.Ready)
    (hturn : BlockTurn s ts) (hhost : s.host = .op .pack :: items) (hpb : s.pb = Memory.ofBytes p)
    (hcur : s.cur = p.length) (hp : p.length ≤ 255) :
    step s = .next { s with
      outq := s.outq ++ wireFrame p, status := .ok, result := .length (p.length + 5), host := items, schedule := ts } := by
  obtain ⟨hc, hf, hs⟩ := id h
  have hready : State.Ready { s with host := items, schedule := ts } := h
  have hread : s.pb.readBytes 0 s.cur = some p := by
    rw [hpb, hcur, Memory.readBytes_ofBytes p (by omega), List.drop_zero, List.take_length]
  rw [step_queued hc hs hturn hf hhost, exec_pack_frame hready (by rw [hcur]; exact hp) hread, hcur]

/-- FC_SKIP |p| and PACK run on their turns, over a loaded payload. -/
theorem run_skip_pack {s : State} {p : Bytes} {items : List HostItem} {ts : List Turn} (h : s.Ready)
    (hpb : s.pb = Memory.ofBytes p) (hcur : s.cur = 0) (hp : p.length ≤ 255)
    (hhost : s.host = .op (.fcSkip p.length) :: .op .pack :: items) (hturns : BlockTurns s 2 ts) :
    Host.Core.run core 2 s = .next { s with
      cur := p.length, outq := s.outq ++ wireFrame p, status := .ok, result := .length (p.length + 5),
      host := items, schedule := ts } := by
  obtain ⟨hc, hf, hs⟩ := id h
  obtain ⟨ts₁, hskipTurn, hlater₁⟩ := blockTurn_of_blockTurns hturns
  obtain ⟨ts₂, hpackTurn, hlater₂⟩ := blockTurn_of_blockTurns (hlater₁ { s with schedule := ts₁ } rfl)
  obtain rfl : ts₂ = ts := schedule_of_blockTurns_zero (hlater₂ { s with schedule := ts₂ } rfl)
  have hready : State.Ready { s with host := .op .pack :: items, schedule := ts₁ } := h
  have hskip := (step_queued hc hs hskipTurn hf hhost).trans
    (exec_fcSkip_fromStart hready hcur (hp.trans (by decide)))
  exact run_next hskip (run_next (step_queued_pack hready hpackTurn rfl hpb rfl hp) rfl)

theorem exchangeDecode_ok {s : State} {p : Bytes} (d : Dialect) (h : s.rxResult = some (.ok, some p)) :
    exchangeDecode d s = issueOp (.decode d p) s := by
  simp only [exchangeDecode, h]

theorem exchangeDecode_skips {s : State} (d : Dialect) (h : ∀ p, s.rxResult ≠ some (.ok, some p)) :
    exchangeDecode d s = .next s := by
  unfold exchangeDecode
  split
  · next p hok => exact absurd hok (h p)
  · rfl

/-! ### The obligations -/

/-- Settles O6: the expansion's first operation runs in its step, and each other one on a turn of its own. -/
theorem crcOverIsCrc16 : Obligations.CrcOverIsCrc16 := by
  intro s str ts h
  refine ⟨_, exec_crcOver_ready h str, rfl, fun hturns => ?_⟩
  rw [← crc16_eq_ofNat, crc16_eq_fold]
  exact run_crcUpdates (s := { s with
    crcAcc := 0x0000, status := .ok, result := .none,
    host := str.map (fun b => .op (.crcUpdate b)) ++ .op .crcRead :: s.host }) h rfl hturns

/-- Settles O21: the payload is loaded in SEND's step, skipped over and packed on the turns after it. -/
theorem sendEmitsFrame : Obligations.SendEmitsFrame := by
  intro s p ts h hp
  refine ⟨_, exec_send_ready h hp, Memory.read_ofBytes p, rfl, fun hturns => ?_⟩
  exact run_skip_pack (s := { s with
    pb := Memory.ofBytes p, cur := 0, status := .ok, result := .none,
    host := .op (.fcSkip p.length) :: .op .pack :: s.host }) h rfl rfl hp rfl hturns

/-- Settles O29: neither an attempt's step nor the host's next item is enabled, so the turn is the wait. -/
theorem waitForTheWorld : Obligations.WaitForTheWorld := by
  intro s hc h
  refine ⟨fun ts hturn => step_wait_scheduled hc h hturn, fun hnone => ⟨Config.worldMove s.freeIdx, ?_⟩⟩
  have hmove := step_world (s := { s with
    schedule := [.world (Config.worldMove s.freeIdx)], freeIdx := s.freeIdx + 1 }) hc rfl
  rw [hmove, step_wait_unscheduled hc h hnone]
  simp only [hnone]

/-- Settles O48: EXCHANGE is RECEIVE with the conditional DECODE queued; that item looks at RX_RESULT. -/
theorem exchangeDecodesOnlyOk : Obligations.ExchangeDecodesOnlyOk := by
  refine ⟨fun s d h => ⟨_, exec_exchange_ready h d, Memory.read_nil, rfl⟩, fun s d rest ts h hhost hturn => ?_⟩
  obtain ⟨hc, hf, hs⟩ := id h
  have hready : State.Ready { s with host := rest, schedule := ts } := h
  rw [step_decodeIfOk hc hs hturn hhost]
  refine ⟨fun p hok => ?_, exchangeDecode_skips (s := { s with host := rest, schedule := ts }) d⟩
  rw [exchangeDecode_ok (s := { s with host := rest, schedule := ts }) d hok, issueOp_of_ready hready]

/-- Settles O54: the host's read on its turn, each row of the table being the field's raw value and scale. -/
theorem telemetryReads : Obligations.TelemetryReads := by
  refine ⟨fun s f v k rest ts h hrow hhost hturn => ?_, fun s f => ⟨_, _, mem_telemetryRows.2 ⟨rfl, rfl⟩⟩,
    fun s hc => ⟨_, exec_reset hc, fun r hrow => ?_⟩⟩
  · obtain ⟨hc, -, hs⟩ := id h
    obtain ⟨rfl, rfl⟩ := mem_telemetryRows.1 hrow
    have hready : State.Ready { s with host := rest, schedule := ts } := h
    rw [step_readField hc hs hturn hhost]
    exact ⟨fun hnone => issueRead_unwritten hready hnone, fun raw hraw => issueRead_value hready hraw⟩
  · obtain ⟨hraw, -⟩ := mem_telemetryRows.1 hrow
    rw [hraw, rawOf_resetRegisters]

/-- Settles O2: RESET's state names every register, and State.reset holds the same values in them. -/
theorem powerOnIsReset : Obligations.PowerOnIsReset := by
  refine ⟨exec_reset (s := State.reset) rfl, fun s hc => ⟨_, exec_reset hc, fun a => ?_, fun f => ?_, rfl⟩⟩
  · exact ⟨Memory.read_nil a, Memory.read_nil a⟩
  · exact rawOf_resetRegisters f s

/-- Settles O30: a scheduled move of the world is the step. -/
theorem worldMoves : Obligations.WorldMoves := fun _ _ hc =>
  ⟨fun _ => step_world hc, fun _ => step_world hc, fun _ => step_world hc, fun _ => step_world hc,
    fun _ => step_world hc, fun _ => step_world hc, step_world hc⟩

/-- Settles O51: the line's operation, or the read, answers the block's fault, and the host passes it over. -/
theorem faultedHostGoesOn : Obligations.FaultedHostGoesOn := by
  intro s r ts rest hc hf hs hturn
  refine ⟨fun text i hhost hdec hi hwf => ?_, fun text hhost hdec => ?_, fun f hhost => ?_⟩
  · have hstops := lineOp_faulted (s := { s with host := rest, schedule := ts }) (decodeLine_isLineOp hdec) hi hwf hc hf
    rw [step_line hc hs hturn hhost, issueLine_op hdec, issueOp, hstops, passFaulted_faulted]
  · rw [step_line hc hs hturn hhost, issueLine_op hdec, issueOp_reset]
  · have hstops : readField f { s with host := rest, schedule := ts } = .fault (.faulted r) := hostOp_faulted hc rfl hf
    rw [step_readField hc hs hturn hhost, issueRead, hstops, passFaulted_faulted]

/-- Settles O58: the host's next item on its turn, by what its line decodes to. -/
theorem stepRunsDecodedLine : Obligations.StepRunsDecodedLine := by
  intro s rest ts hc hs hturn
  refine ⟨fun text hhost => ?_, fun hf i hhost => step_queued hc hs hturn hf hhost⟩
  rw [step_line hc hs hturn hhost]
  refine ⟨fun hf i hdec => ?_, fun bs hdec => issueLine_deliver hdec, fun hdec => issueLine_blank hdec,
    fun e hdec => issueLine_error hdec⟩
  have hready : State.Ready { s with host := rest, schedule := ts } := ⟨hc, hf, hs⟩
  rw [issueLine_op hdec, issueOp_of_ready hready]

end Sys2Proof.Claims

/-! PROOFS. The payload rows, the refusals and the writers of each register (44_command_decoder.md, R249; 00_scope.md, R10;
10_state.md, the register table). -/

namespace Sys2Proof.Claims

open Sys2Proof.Machine

/-! ### A payload's row is its DECODE -/

section
variable {s : State} {f g : State → Out}

/-- Two guarded operations of one domain and one body are the same operation. -/
theorem hostOp_congr {domain domain' : Bool} (hd : domain = domain') (hf : f s = g s) :
    hostOp domain s f = hostOp domain' s g := by
  subst hd
  simp only [hostOp, hf]

end

theorem commandId_of_dispatch {c : Config} {d : Dialect} {id : Byte} {k : Command} (h : dispatch c d id = some k) :
    commandId c k = id := by
  cases d <;>
  · simp only [dispatch] at h
    split_ifs at h <;> cases h <;> simp_all [commandId]

theorem decodePayload_dispatched {c : Config} {d : Dialect} {id : Byte} {k : Command} (h : dispatch c d id = some k)
    (fields : Bytes) : decodePayload c d (id :: fields) = commandRow k fields := by
  simp only [decodePayload, h]
  cases k <;> rfl

theorem decodePayload_undispatched {c : Config} {d : Dialect} {id : Byte} (h : dispatch c d id = none)
    (fields : Bytes) : decodePayload c d (id :: fields) = decodeUndispatched c d id fields := by
  simp only [decodePayload, h]

/-- An outbound row's operation is the guarded DECODE of its payload (R249). -/
theorem exec_outboundRow {s : State} {id : Byte} {op : Bytes → Instr} (h : (id, op) ∈ outboundRows s.cfg)
    (fields : Bytes) : exec (op fields) s = hostOp (inFields fields) s fun s => .next (decodeBody .mc (id :: fields) s) := by
  simp only [outboundRows, List.mem_cons, List.not_mem_nil, or_false, Prod.mk.injEq] at h
  rcases h with ⟨rfl, rfl⟩ | ⟨rfl, rfl⟩ | ⟨rfl, rfl⟩ | ⟨rfl, rfl⟩ | ⟨rfl, rfl⟩ | ⟨rfl, rfl⟩
  all_goals
    rw [exec]
    refine hostOp_congr rfl ?_
    rfl

/-- A payload without a decoded row is an outbound row's, or CMD_UNKNOWN's. -/
theorem decodeUndispatched_cases (c : Config) (d : Dialect) (id : Byte) (fields : Bytes) :
    (d = .mc ∧ ∃ op, (id, op) ∈ outboundRows c ∧ decodeUndispatched c d id fields = op fields)
      ∨ decodeUndispatched c d id fields = .cmdUnknown d (id :: fields) := by
  cases d with
  | bms => exact .inr rfl
  | mc =>
    simp only [decodeUndispatched, true_and]
    split_ifs with h1 h2 h3 h4 h5 h6
    · exact .inl ⟨.cmdForwardToPeer, by simp [outboundRows, h1], rfl⟩
    · exact .inl ⟨.cmdSetChuckData, by simp [outboundRows, h2], rfl⟩
    · exact .inl ⟨.cmdSetCurrent, by simp [outboundRows, h3], rfl⟩
    · exact .inl ⟨.cmdSetCurrentBrake, by simp [outboundRows, h4], rfl⟩
    · exact .inl ⟨.cmdSetRpm, by simp [outboundRows, h5], rfl⟩
    · exact .inl ⟨.cmdSetDuty, by simp [outboundRows, h6], rfl⟩
    · exact .inr rfl

theorem exec_decode_eq_cmdUnknown {s : State} {d : Dialect} {p : Bytes} (h : isUnknown s.cfg d p = true) :
    exec (.decode d p) s = exec (.cmdUnknown d p) s := by
  rw [exec, exec, execDecode, execCmdUnknown, h, Bool.and_true]
  exact hostOp_congr rfl (congrArg _ (decodeBody_unknown h))

/-! ### Refusals -/

section
variable {s : State} {f : State → Out}

theorem hostOp_badConfig {domain : Bool} (hc : s.cfg.valid = false) : hostOp domain s f = .refused .configuration := by
  simp [hostOp, hc]

theorem wireOp_badConfig {enabled : Bool} (hc : s.cfg.valid = false) :
    wireOp enabled s f = .refused .configuration := by
  simp [wireOp, hc]

theorem wireOp_disabled {enabled : Bool} (hc : s.cfg.valid = true) (hf : s.fault = none) (he : enabled = false) :
    wireOp enabled s f = .refused .notEnabled := by
  simp [wireOp, hc, hf, he]

theorem exec_badConfig (hc : s.cfg.valid = false) (i : Instr) : exec i s = .refused .configuration := by
  by_cases hi : i = .reset
  · subst hi
    simp [exec, execReset, hc]
  · rcases exec_guarded hi s with ⟨f, hrun⟩ | ⟨enabled, f, hrun⟩
    · rw [hrun, hostOp_badConfig hc]
    · rw [hrun, wireOp_badConfig hc]

theorem step_badConfig (hc : s.cfg.valid = false) : step s = .refused .configuration := by
  simp [step, stepAgents, hc]

end

/-- The configurations R10 rules out: two equal decoded ids in one dialect. -/
theorem valid_eq_false_of_equal_ids {c : Config}
    (h : c.cmdFwVersion = c.cmdGetValuesSetupSelective ∨ c.cmdFwVersion = c.cmdGetDecodedPpm
      ∨ c.cmdGetValuesSetupSelective = c.cmdGetDecodedPpm ∨ c.cmdBmsGetValues = c.cmdBmsGetBmsCells) :
    c.valid = false := by
  rcases h with h | h | h | h <;> simp [Config.valid, h]

/-- The wire rows: the operations that are byte steps (R85, R199). -/
def wireRow : Instr → Bool
  | .frameShort _ | .frameLong _ | .startInvalid _ _ | .endMark => true
  | _ => false

theorem headerWith_beq_iff {s : State} {a : Byte} :
    headerWith (· == a) s = true ↔ s.rxState = .header ∧ s.rb.read 0 = some a := by
  simp [headerWith_iff]

theorem exec_hostRow {i : Instr} (hi : i ≠ .reset) (hrow : wireRow i = false) (s : State) :
    ∃ f, exec i s = hostOp (inDomain s.cfg i) s f := by
  cases i <;> rw [exec]
  case reset => exact absurd rfl hi
  case frameShort | frameLong | startInvalid | endMark => cases hrow
  case exchange | crcOver => exact ⟨_, andThen_hostOp⟩
  all_goals exact ⟨_, rfl⟩

theorem inDomain_eq_false {c : Config} {i : Instr} (hwf : i.wf = false) : inDomain c i = false := by
  cases i
  case cmdUnknown d p =>
    have hpayload : inPayload p = false := hwf
    rw [inDomain, hpayload, Bool.false_and]
  all_goals exact hwf

/-- Of the wire rows START_INVALID alone has an operand with a domain: its start byte. -/
theorem startInvalid_of_illFormed {i : Instr} (hrow : wireRow i = true) (hwf : i.wf = false) :
    ∃ a b, i = .startInvalid a b ∧ isInvalidStart a = false := by
  cases i
  case startInvalid a b => exact ⟨a, b, rfl, hwf⟩
  case frameShort | frameLong | endMark => cases hwf
  all_goals cases hrow

/-! ### Who writes each register -/

theorem width_of_appends {i : Instr} (h : appends i = true) : width i ≠ none := by
  cases i <;> simp_all [appends, width]

theorem mem_of_decodesIn_mc {i : Instr} (h : decodesIn i = some .mc) :
    ∃ f, i ∈ [.decode .mc f, .cmdFwVersion f, .cmdGetValuesSetupSelective f, .cmdGetDecodedPpm f, .cmdForwardToPeer f,
      .cmdSetChuckData f, .cmdSetCurrent f, .cmdSetCurrentBrake f, .cmdSetRpm f, .cmdSetDuty f] := by
  cases i <;> simp_all [decodesIn]

theorem mem_of_decodesIn_bms {i : Instr} (h : decodesIn i = some .bms) :
    ∃ f, i ∈ [.decode .bms f, .cmdBmsGetValues f, .cmdBmsGetBmsCells f] := by
  cases i <;> simp_all [decodesIn]

section
variable {i : Instr} {s t : State} (h : OpStep i s t)
include h

theorem writers_crcAcc (hne : t.crcAcc ≠ s.crcAcc) :
    i = .crcInit ∨ (∃ b, i = .crcUpdate b) ∨ ∃ str, i = .crcOver str := by
  cases h with
  | crc _ hi => exact hi
  | _ => simp at hne

theorem writers_pb (hne : t.pb ≠ s.pb) :
    i = .fcClear ∨ (∃ str, i = .fcLoad str) ∨ appends i = true ∨ ∃ p, i = .send p := by
  cases h with
  | loads _ hi => tauto
  | stores _ hi => exact .inr (.inr (.inl hi))
  | _ => simp at hne

theorem writers_cur (hne : t.cur ≠ s.cur) :
    width i ≠ none ∨ i = .fcClear ∨ (∃ str, i = .fcLoad str) ∨ ∃ p, i = .send p := by
  cases h with
  | loads _ hi => exact .inr hi
  | stores _ hi => exact .inl (width_of_appends hi)
  | moves _ hi => exact .inl hi
  | _ => simp at hne

theorem writers_rb (hne : t.rxState ≠ s.rxState ∨ t.rb ≠ s.rb ∨ t.rxCount ≠ s.rxCount) :
    startsAttempt i ∨ (∃ b, i = .frameShort b) ∨ rejects i ∨ i = .endMark := by
  cases h with
  | starts _ hi => exact .inl hi
  | classifies _ b hi => exact .inr (.inl ⟨b, hi⟩)
  | rejected _ hi => exact .inr (.inr (.inl hi))
  | ends _ _ hi => exact .inr (.inr (.inr hi))
  | _ => simp at hne

theorem writers_rxExpect (hne : t.rxExpect ≠ s.rxExpect) :
    startsAttempt i ∨ (∃ b, i = .frameShort b) ∨ rejects i := by
  cases h with
  | starts _ hi => exact .inl hi
  | classifies _ b hi => exact .inr (.inl ⟨b, hi⟩)
  | rejected _ hi => exact .inr (.inr hi)
  | _ => simp at hne

theorem writers_rxDiag (hne : t.rxDiag ≠ s.rxDiag) : startsAttempt i ∨ rejects i := by
  cases h with
  | starts _ hi => exact .inl hi
  | rejected _ hi => exact .inr hi
  | _ => simp at hne

theorem writers_rxResult (hne : t.rxResult ≠ s.rxResult) : startsAttempt i ∨ i = .endMark := by
  cases h with
  | starts _ hi => exact .inl hi
  | ends _ _ hi => exact .inr hi
  | _ => simp at hne

theorem writers_t0 (hne : t.t0 ≠ s.t0) : startsAttempt i := by
  cases h with
  | starts _ hi => exact hi
  | _ => simp at hne

theorem writers_nunchuck (hne : t.nunchuck ≠ s.nunchuck) : ∃ x y l u, i = .setNunchuck x y l u := by
  cases h with
  | nunchuck _ hi => exact hi
  | _ => simp at hne

theorem writers_mcSnap (hne : t.mcSnap ≠ s.mcSnap) : decodesIn i = some .mc := by
  cases h with
  | decodes _ k hi p =>
    cases hd : commandDialect k with
    | mc => rw [hi, hd]
    | bms => exact absurd ((writeFields_otherSnap k p s).2 hd) hne
  | _ => simp at hne

theorem writers_bmsSnap (hne : t.bmsSnap ≠ s.bmsSnap) : decodesIn i = some .bms := by
  cases h with
  | decodes _ k hi p =>
    cases hd : commandDialect k with
    | mc => exact absurd ((writeFields_otherSnap k p s).1 hd) hne
    | bms => rw [hi, hd]
  | _ => simp at hne

theorem writers_fault (hne : t.fault ≠ s.fault) : t = { s with fault := t.fault } := by
  cases h with
  | faults r => rfl
  | _ => simp at hne

theorem writers_outq (hne : t.outq ≠ s.outq) : i = .pack := by
  cases h with
  | packs _ hi => exact hi
  | _ => simp at hne

theorem writers_diagq (hne : t.diagq ≠ s.diagq) : rejects i := by
  cases h with
  | rejected _ hi => exact hi
  | _ => simp at hne

/-- STATUS is written where an operation completes, which is no fault. -/
theorem fault_of_status_ne (hne : t.status ≠ s.status) : t.fault = none := by
  cases h with
  | starts | classifies | rejected | faults => simp at hne
  | ends _ hf => exact hf
  | decodes hr => exact (writeFields_fault ..).trans hr.2.1
  | crc hr | answers hr | loads hr | stores hr | moves hr | packs hr | nunchuck hr => exact hr.2.1

theorem opStep_outside : t.cfg = s.cfg ∧ t.inq = s.inq ∧ t.now = s.now := by
  cases h <;> simp

end

/-- An operation that starts an attempt or classifies a candidate does not write STATUS (R190, R193 to R195). -/
theorem status_kept {i : Instr} {s t : State} (h : exec i s = .next t)
    (hi : startsAttempt i ∨ (∃ b, i = .frameShort b) ∨ rejects i) : t.status = s.status := by
  rcases hi with (rfl | ⟨d, rfl⟩) | ⟨b, rfl⟩ | ⟨b, rfl⟩ | ⟨a, b, rfl⟩
  · have hr := lineOp_ready rfl (by simp) h
    rw [exec_receive_ready hr] at h
    cases h
    rfl
  · have hr := lineOp_ready rfl (by simp) h
    rw [exec_exchange_ready hr] at h
    cases h
    rfl
  all_goals
    rw [exec] at h
    obtain ⟨-, -, -, hrun⟩ := wireOp_eq_next h
    cases hrun
    simp

/-! ### No step changes the configuration -/

theorem worldStep_cfg {m : WorldMove} {s t : State} (h : worldStep m s = .next t) : t.cfg = s.cfg := by
  cases m
  case reset =>
    have hreset : execReset s = .next t := h
    rw [execReset] at hreset
    split at hreset <;> cases hreset
    rfl
  all_goals
    cases h
    rfl

theorem exec_cfg {i : Instr} {s t : State} (h : exec i s = .next t) : t.cfg = s.cfg := by
  by_cases hi : i = .reset
  · subst hi
    exact worldStep_cfg (m := .reset) h
  · exact (opStep_outside (exec_cases hi h)).1

theorem rxStep_cfg {b : Byte} {s t : State} (h : RxStep b s t) : t.cfg = s.cfg := by
  cases h <;> simp

theorem stepCase_cfg {s t : State} (h : StepCase s t) : t.cfg = s.cfg := by
  cases h with
  | world ts n m _ hw => exact (worldStep_cfg hw).trans rfl
  | wait | noOp | deadline => rfl
  | op _ ts n rest i _ hexec => exact (exec_cfg hexec).trans rfl
  | read _ ts n rest f _ hread =>
    obtain ⟨-, ⟨-, rfl⟩ | ⟨raw, -, rfl⟩⟩ := readField_eq_next hread <;> rfl
  | byte _ _ ts n b rest _ _ hbyte => exact (rxStep_cfg hbyte).trans rfl

/-! ### The obligations -/

/-- Settles O43: the row's operation is the guarded DECODE, which no row of the dispatch table takes. -/
theorem Settled.outboundRows : Obligations.OutboundRows := by
  intro s id op fields h hrow hlen
  have hfields : inFields fields = true := inFields_iff.2 hlen
  have hpayload : inPayload (id :: fields) = true := inPayload_iff.2 (Nat.succ_le_succ hlen)
  have hop := (exec_outboundRow hrow fields).trans (hostOp_run h hfields)
  refine ⟨?_, fun hid => ?_⟩
  · rw [hop, exec, execDecode, hostOp_run h hpayload]
  · have hunknown : isUnknown s.cfg .mc (id :: fields) = true := isUnknown_iff.2 (by simpa using hid)
    rw [Unsupported, hop, decodeBody_unknown hunknown]
    rfl

/-- Settles O44: the payload's row is a command's, an outbound id's or CMD_UNKNOWN's, each under DECODE's guard. -/
theorem decodeIsItsRow : Obligations.DecodeIsItsRow := by
  intro s d p hp
  rcases p with _ | ⟨id, fields⟩
  · exact exec_decode_eq_cmdUnknown rfl
  · have hfields : inPayload (id :: fields) = inFields fields := by
      rw [inPayload_iff.2 hp, inFields_iff.2 (Nat.le_of_succ_le_succ hp)]
    rcases hk : dispatch s.cfg d id with _ | k
    · rw [decodePayload_undispatched hk]
      rcases decodeUndispatched_cases s.cfg d id fields with ⟨rfl, op, hrow, hop⟩ | hop <;> rw [hop]
      · rw [exec_outboundRow hrow, ← hfields, exec, execDecode]
      · exact exec_decode_eq_cmdUnknown (Option.isNone_iff_eq_none.2 hk)
    · rw [decodePayload_dispatched hk, exec_commandRow, exec]
      refine hostOp_congr hfields ?_
      rw [decodeBody_dispatched hk, commandId_of_dispatch hk]

/-- Settles O52: an operand outside its domain fails the host's guard, or START_INVALID's own check; both guards look at
the configuration first. -/
theorem illFormedRefused : Obligations.IllFormedRefused := by
  intro s
  refine ⟨fun i hwf hc hf => ?_, fun hids => ?_⟩
  · have hi : i ≠ .reset := by
      rintro rfl
      cases hwf
    rcases hrow : wireRow i
    · obtain ⟨f, hrun⟩ := exec_hostRow hi hrow s
      exact .inl (hrun.trans (hostOp_illFormed hc (inDomain_eq_false hwf)))
    · obtain ⟨a, b, rfl, ha⟩ := startInvalid_of_illFormed hrow hwf
      rw [exec, execStartInvalid, ha, Bool.false_and]
      exact .inr (wireOp_disabled hc hf rfl)
  · have hc := valid_eq_false_of_equal_ids hids
    exact ⟨step_badConfig hc, exec_badConfig hc⟩

/-- Settles O53: each row's guard, and what END_MARK meets in RB. -/
theorem outOfPlaceRowsStop : Obligations.OutOfPlaceRowsStop := by
  intro s hc hf
  refine ⟨fun b hout => ?_, fun b hout => ?_, fun a b hout => ?_, fun hout => ?_, fun hs hx hn hnone => ?_,
    fun hs hx hn => ?_, fun d p hid => ?_⟩
  · have hstart : headerWith (· == startShort) s = false := Bool.eq_false_iff.2 (mt headerWith_beq_iff.1 hout)
    rw [exec, execFrameShort, wireOp_disabled hc hf hstart]
  · have hstart : headerWith (· == startLong) s = false := Bool.eq_false_iff.2 (mt headerWith_beq_iff.1 hout)
    rw [exec, execFrameLong, wireOp_disabled hc hf hstart]
  · rw [exec, execStartInvalid, wireOp_disabled hc hf (Bool.eq_false_iff.2 fun henabled => ?_)]
    obtain ⟨hinvalid, hheader⟩ := Bool.and_eq_true_iff.1 henabled
    obtain ⟨hs, h0⟩ := headerWith_beq_iff.1 hheader
    exact hout ⟨hs, h0, isInvalidStart_iff.1 hinvalid⟩
  · rw [exec, execEndMark, wireOp_disabled hc hf (Bool.eq_false_iff.2 (mt atFrameEnd_iff.1 hout))]
  · obtain ⟨j, hj, hread⟩ := hnone
    have hmissing : (s.storeBody endMarkByte).rb.readBytes 0 (s.rxCount + 1) = none := by
      refine Memory.readBytes_eq_none.2 ⟨j, by omega, ?_⟩
      rw [Nat.zero_add, State.storeBody_rb, Memory.read_write_other _ _ (by omega), hread]
    rw [Faults, exec, execEndMark, wireOp_run hc hf (atFrameEnd_iff.2 ⟨hs, hx⟩), rxCap, if_pos hn, completeFrame,
      hmissing, raiseFault_eq hf]
  · rw [exec, execEndMark, wireOp_run hc hf (atFrameEnd_iff.2 ⟨hs, hx⟩), rxCap, if_neg (Nat.not_lt.2 hn)]
  · have hknown : isUnknown s.cfg d p = false := Bool.eq_false_iff.2 fun hunknown => by
      obtain ⟨id, hmem, hin⟩ := hid
      exact isUnknown_iff.1 hunknown id hmem hin
    rw [exec, execCmdUnknown, hknown, Bool.and_false, hostOp_illFormed hc rfl]

/-- Settles O57: a register that differs was written by the one kind of effect that writes it. -/
theorem onlyWriters : Obligations.OnlyWriters := by
  refine ⟨fun i s t hexec hi => ?_, fun s t hstep => stepCase_cfg (step_cases hstep).2⟩
  have h := exec_cases hi hexec
  obtain ⟨hcfg, hinq, hnow⟩ := opStep_outside h
  exact ⟨writers_crcAcc h, writers_pb h, writers_cur h, writers_rb h, writers_rxExpect h, writers_rxDiag h,
    writers_rxResult h, writers_t0 h, writers_nunchuck h, fun hne => mem_of_decodesIn_mc (writers_mcSnap h hne),
    fun hne => mem_of_decodesIn_bms (writers_bmsSnap h hne),
    fun hne => ⟨fault_of_status_ne h hne, fun hsetup => hne (status_kept hexec hsetup)⟩,
    writers_fault h, writers_outq h, writers_diagq h, hcfg, hinq, hnow⟩

end Sys2Proof.Claims

/-! PROOFS. Whole attempts (43_frame_receiver.md, R204, R211, R215): what a step of an attempt can change, the attempt
on an empty stream, and the runs of byte steps that end a candidate at its declared length. -/

namespace Sys2Proof.Claims

open Sys2Proof.Machine

/-! ### What a byte step can change -/

section
variable {s t : State} {b : Byte}

theorem rejectCandidate_frame (b : Byte) : s.rejectCandidate b = { s with
    rb := (s.rejectCandidate b).rb, rxCount := (s.rejectCandidate b).rxCount,
    rxExpect := (s.rejectCandidate b).rxExpect, rxState := (s.rejectCandidate b).rxState } := by
  by_cases hb : b = startShort
  · subst hb
    rw [State.rejectCandidate_restart]
  · rw [State.rejectCandidate_hunt _ _ hb]

theorem rxStep_frame (h : RxStep b s t) : t = { s with
    rxState := t.rxState, rb := t.rb, rxCount := t.rxCount, rxExpect := t.rxExpect, rxDiag := t.rxDiag,
    rxResult := t.rxResult, status := t.status, fault := t.fault, result := t.result, diagq := t.diagq } := by
  cases h with
  | long | invalid =>
    rw [rejectCandidate_frame]
    rfl
  | _ => rfl

theorem diagqAfter_appends (e : DiagEvent) : ∃ es, s.diagqAfter e = s.diagq ++ es := by
  rw [State.diagqAfter]
  split
  · exact ⟨[e], rfl⟩
  · exact ⟨[], (List.append_nil _).symm⟩

theorem rxStep_diagq (h : RxStep b s t) : ∃ es, t.diagq = s.diagq ++ es := by
  cases h with
  | long | invalid =>
    rw [State.rejectCandidate_diagq]
    exact diagqAfter_appends _
  | _ => exact ⟨[], (List.append_nil _).symm⟩

/-- STATUS, RX_RESULT and the result are written at the attempt's end only (R203). -/
theorem rxStep_results (h : RxStep b s t) (ha : t.rxState ≠ .inactive) :
    t.status = s.status ∧ t.rxResult = s.rxResult ∧ t.result = s.result := by
  cases h with
  | overflow | malformed | complete => exact absurd rfl ha
  | _ => simp

end

/-! ### An attempt on an empty stream (R215) -/

/-- The attempt has ended with (Timeout, none), at or after the deadline. -/
def TimedOut (deadline : Nat) (s : State) : Prop :=
  s.rxState = .inactive ∧ s.rxResult = some (.timeout, none) ∧ s.status = .timeout ∧ deadline ≤ s.now

/-- An attempt that no byte reaches, its host having nothing to issue: it waits or has timed out. -/
structure Unfed (deadline : Nat) (s : State) : Prop where
  valid : s.cfg.valid = true
  noFault : s.fault = none
  noByte : s.inq = []
  idleHost : s.host = []
  noDiag : s.rxDiag = ⟨false, false⟩
  deadlineEq : s.t0 + s.cfg.rxDeadline = deadline
  phase : (s.rxState = .idle ∧ s.rxResult = none) ∨ TimedOut deadline s

section
variable {deadline : Nat} {s : State} {turn : Turn} {ts later : List Turn}

/-- The block's turn: it waits before the deadline and after the end, and else times out. -/
theorem unfed_blockTurn (h : Unfed deadline s)
    (hsched : s.schedule = .byteFirst :: ts ∨ s.schedule = .deadlineFirst :: ts) :
    ∃ u, step s = .next u ∧ Unfed deadline u ∧ u.schedule = ts ∧ (deadline ≤ s.now → TimedOut deadline u) := by
  have hwait : NothingToDo s → step s = .next { s with schedule := ts } := fun hnothing =>
    step_wait_scheduled h.valid hnothing hsched
  rcases h.phase with ⟨hidle, hresult⟩ | hended
  · have ha : s.rxState ≠ .inactive := by simp [hidle]
    have hattempt : s.InAttempt := ⟨h.valid, h.noFault, ha⟩
    rcases Nat.lt_or_ge s.now deadline with hearly | hpassed
    · have hbefore : s.now < s.t0 + s.cfg.rxDeadline := h.deadlineEq ▸ hearly
      exact ⟨_, hwait (.inl ⟨hattempt, h.noByte, hbefore⟩), { h with }, rfl, fun hlate => absurd hlate hearly.not_ge⟩
    · have htimeout : TimedOut deadline ({ s with schedule := ts }.endAttempt .timeout none) := ⟨rfl, rfl, rfl, hpassed⟩
      have hafter : s.t0 + s.cfg.rxDeadline ≤ s.now := h.deadlineEq ▸ hpassed
      exact ⟨_, step_deadlineTurn hattempt hafter (.inr ⟨h.noByte, .inr hsched⟩), { h with phase := .inr htimeout }, rfl,
        fun _ => htimeout⟩
  · exact ⟨_, hwait (.inr ⟨hended.1, h.idleHost⟩), { h with }, rfl, fun _ => hended⟩

theorem unfed_step (h : Unfed deadline s) (hsched : s.schedule = turn :: ts) (hquiet : quiet turn = true) :
    ∃ u, step s = .next u ∧ Unfed deadline u ∧ u.schedule = ts ∧ (TimedOut deadline s → TimedOut deadline u) := by
  have hblock : s.schedule = .byteFirst :: ts ∨ s.schedule = .deadlineFirst :: ts →
      ∃ u, step s = .next u ∧ Unfed deadline u ∧ u.schedule = ts ∧ (TimedOut deadline s → TimedOut deadline u) := by
    intro hturn
    obtain ⟨u, hstep, hu, hlater, htimes⟩ := unfed_blockTurn h hturn
    exact ⟨u, hstep, hu, hlater, fun ⟨_, _, _, hpassed⟩ => htimes hpassed⟩
  cases turn with
  | byteFirst => exact hblock (.inl hsched)
  | deadlineFirst => exact hblock (.inr hsched)
  | world m =>
    have hstep := step_world h.valid hsched
    cases m with
    | elapse d =>
      have hlater : TimedOut deadline s → TimedOut deadline { s with schedule := ts, now := s.now + d } :=
        fun ⟨hs, hresult, hstatus, hpassed⟩ => ⟨hs, hresult, hstatus, Nat.le_add_right_of_le hpassed⟩
      exact ⟨_, hstep, { h with phase := h.phase.imp_right hlater }, rfl, hlater⟩
    | drainOut n | drainDiag n => exact ⟨_, hstep, { h with }, rfl, id⟩
    | arrive | issue | read | reset => cases hquiet

/-- Over quiet turns the attempt stays unfed, and an ended one stays ended. -/
theorem unfed_run (h : Unfed deadline s) (hsched : s.schedule = ts ++ later) (hquiet : ts.all quiet = true) :
    ∃ u, Host.Core.run core ts.length s = .next u ∧ Unfed deadline u ∧ u.schedule = later
      ∧ (TimedOut deadline s → TimedOut deadline u) := by
  induction ts generalizing s with
  | nil => exact ⟨s, rfl, h, hsched, id⟩
  | cons turn ts ih =>
    obtain ⟨hfirst, hothers⟩ := Bool.and_eq_true_iff.1 hquiet
    obtain ⟨u, hstep, hu, hlater, hkeep⟩ := unfed_step h hsched hfirst
    obtain ⟨v, hrun, hv, hend, hkeeps⟩ := ih hu hlater hothers
    exact ⟨v, run_next hstep hrun, hv, hend, hkeeps ∘ hkeep⟩

/-- A turn of the block at or after the deadline ends the attempt, whatever quiet turns come before and after it. -/
theorem unfed_run_times_out {pre post : List Turn} {t u : State} (h : Unfed deadline s)
    (hsched : s.schedule = pre ++ turn :: post) (hquiet : (pre ++ turn :: post).all quiet = true)
    (hturn : turn = .byteFirst ∨ turn = .deadlineFirst) (hpre : Host.Core.run core pre.length s = .next u)
    (hpassed : deadline ≤ u.now) (hrun : Host.Core.run core (pre ++ turn :: post).length s = .next t) :
    TimedOut deadline t := by
  rw [List.all_append, Bool.and_eq_true_iff] at hquiet
  obtain ⟨hquietPre, hquietPost⟩ := hquiet
  obtain ⟨u', hpre', hu, hschedU, -⟩ := unfed_run h hsched hquietPre
  cases hpre.symm.trans hpre'
  obtain ⟨v, hstep, hv, hschedV, htimes⟩ := unfed_blockTurn hu (hturn.imp (· ▸ hschedU) (· ▸ hschedU))
  obtain ⟨t', hpost, -, -, hkeeps⟩ := unfed_run (later := []) hv (by rw [hschedV, List.append_nil])
    (Bool.and_eq_true_iff.1 hquietPost).2
  have hall := run_add hpre (run_next hstep hpost)
  rw [List.length_append, List.length_cons] at hrun
  cases hrun.symm.trans hall
  exact hkeeps (htimes hpassed)

end

/-! ### The receiver's states along a candidate -/

/-- HEADER with one candidate byte held (R192). -/
def inHeader (s : State) (b : Byte) (inq : Bytes) (ts : List Turn) : State :=
  { s with
    rb := Memory.ofBytes [b], rxCount := 1, rxExpect := none, rxState := .header, inq := inq, schedule := ts }

/-- HUNT with nothing held (R196). -/
def inHunt (s : State) (inq : Bytes) (ts : List Turn) : State :=
  { s with rb := [], rxCount := 0, rxExpect := none, rxState := .hunt, inq := inq, schedule := ts }

/-- BODY with the first bytes of a frame of `n` bytes held (R198). -/
def inBody (s : State) (held : Bytes) (n : Nat) (inq : Bytes) (ts : List Turn) : State :=
  { s with
    rb := Memory.ofBytes held, rxCount := held.length, rxExpect := some n, rxState := .body, inq := inq,
    schedule := ts }

/-- The attempt ended on a frame of `n` bytes (R203). -/
def ended (s : State) (held : Bytes) (n : Nat) (result : Status × Option Bytes) (inq : Bytes) (ts : List Turn) :
    State :=
  { s with
    rb := Memory.ofBytes held, rxCount := held.length, rxExpect := some n, rxState := .inactive,
    rxResult := some result, status := result.1, result := .received, inq := inq, schedule := ts }

/-- The end of a candidate whose last byte is `e` (R200, R202). -/
def endResult (held : Bytes) (e : Byte) : Status × Option Bytes :=
  if e = endMarkByte then unpack (held ++ [e]) else (.malformedFrame, none)

/-- The event that rejecting a candidate with this start byte sends (R194, R195). -/
def rejectEvent (a : Byte) : DiagEvent := if a = 0x03 then .unsupportedFrameType else .invalidStartMarker

/-- The report of a rejected candidate: its bit alone, and its event (R28, R278). -/
def reported (s : State) (a : Byte) : State :=
  { s with rxDiag := ⟨a != 0x03, a == 0x03⟩, diagq := sent s [rejectEvent a] }

section
variable {s : State} {b : Byte} {rest : Bytes} {ts : List Turn}

theorem byteTurn_scheduled (hc : s.cfg.valid = true) (hf : s.fault = none) (ha : s.rxState ≠ .inactive)
    (hinq : s.inq = b :: rest) (hsched : s.schedule = .byteFirst :: ts) :
    ByteTurn s b { s with inq := rest, schedule := ts } :=
  ⟨⟨hc, hf, ha⟩, rest, ts, hinq, rfl, .inl hsched⟩

/-- The first byte of an attempt is a candidate's start byte, whatever it is (R192). -/
theorem step_fresh (h : FreshAttempt s) (hinq : s.inq = b :: rest) (hsched : s.schedule = .byteFirst :: ts) :
    step s = .next (inHeader s b rest ts) := by
  obtain ⟨hc, hf, hs, hrb, -, hx, -⟩ := h
  rw [step_startCandidate (byteTurn_scheduled hc hf (by simp [hs]) hinq hsched) (.inl hs), State.startCandidate, hrb, hx]
  rfl

theorem rejectCandidate_inHeader {a : Byte} {d : RxDiag} {q : List DiagEvent} (hd : d = (reported s a).rxDiag)
    (hq : q = (reported s a).diagq) :
    { (inHeader s a rest ts).storeSecond b with rxDiag := d, diagq := q }.rejectCandidate b
      = if b = 0x02 then inHeader (reported s a) b rest ts else inHunt (reported s a) rest ts := by
  subst hd hq
  by_cases hb : b = 0x02
  · subst hb
    exact State.rejectCandidate_restart _
  · rw [State.rejectCandidate_hunt _ _ hb, if_neg hb]
    rfl

section
variable (hc : s.cfg.valid = true) (hf : s.fault = none)
include hc hf

theorem step_inHunt_skip (hb : b ≠ 0x02) :
    step (inHunt s (b :: rest) (.byteFirst :: ts)) = .next (inHunt s rest ts) :=
  step_huntSkip (byteTurn_scheduled (s := inHunt s (b :: rest) (.byteFirst :: ts)) hc hf nofun rfl rfl) rfl hb

theorem step_inHunt_start :
    step (inHunt s (0x02 :: rest) (.byteFirst :: ts)) = .next (inHeader s 0x02 rest ts) :=
  step_startCandidate (byteTurn_scheduled (s := inHunt s (0x02 :: rest) (.byteFirst :: ts)) hc hf nofun rfl rfl)
    (.inr ⟨rfl, rfl⟩)

theorem step_inHeader {a : Byte} : step (inHeader s a (b :: rest) (.byteFirst :: ts))
    = exec (if a = 0x02 then .frameShort b else if a = 0x03 then .frameLong b else .startInvalid a b)
        (inHeader s a rest ts) :=
  step_header (byteTurn_scheduled (s := inHeader s a (b :: rest) (.byteFirst :: ts)) hc hf nofun rfl rfl) rfl rfl

/-- A short candidate's length byte (R193). -/
theorem step_inHeader_short : step (inHeader s 0x02 (b :: rest) (.byteFirst :: ts))
    = .next (inBody s [0x02, b] (b.toNat + 5) rest ts) := by
  rw [step_inHeader hc hf, if_pos rfl]
  exact execFrameShort_run (s := inHeader s 0x02 rest ts) hc hf rfl rfl b

/-- A candidate that is rejected leaves nothing held, or its second byte as the next candidate (R194 to R196). -/
theorem step_inHeader_reject {a : Byte} (ha : a ≠ 0x02) (hdiag : s.rxDiag = ⟨false, false⟩) :
    step (inHeader s a (b :: rest) (.byteFirst :: ts))
      = .next (if b = 0x02 then inHeader (reported s a) b rest ts else inHunt (reported s a) rest ts) := by
  rw [step_inHeader hc hf, if_neg ha]
  by_cases hlong : a = 0x03
  · subst hlong
    have hbits : { s.rxDiag with seenLongFrame := true } = (reported s 0x03).rxDiag := by rw [hdiag]; rfl
    rw [if_pos rfl, exec, execFrameLong_run (s := inHeader s 0x03 rest ts) hc hf rfl rfl]
    exact congrArg _ (rejectCandidate_inHeader hbits rfl)
  · have hbits : { s.rxDiag with seenInvalidStart := true } = (reported s a).rxDiag := by
      simpa [reported, hdiag] using hlong
    have hevent : sent s [.invalidStartMarker] = (reported s a).diagq := by rw [reported, rejectEvent, if_neg hlong]
    rw [if_neg hlong, exec, execStartInvalid_run (s := inHeader s a rest ts) hc hf rfl rfl
      (isInvalidStart_iff.2 ⟨ha, hlong⟩)]
    exact congrArg _ (rejectCandidate_inHeader hbits hevent)

/-! ### The body of a candidate -/

/-- A body byte that is not the frame's last (R198). -/
theorem step_inBody {held : Bytes} {n : Nat} (hn : n ≤ 260) (hlt : held.length + 1 < n) :
    step (inBody s held n (b :: rest) (.byteFirst :: ts)) = .next (inBody s (held ++ [b]) n rest ts) := by
  have hturn := byteTurn_scheduled (s := inBody s held n (b :: rest) (.byteFirst :: ts)) hc hf nofun rfl rfl
  have hinner : (some n : Option Nat) ≠ some (held.length + 1) := fun h => hlt.ne' (Option.some_inj.1 h)
  have hcount : held.length + 1 < 261 := by omega
  rw [step_inner hturn rfl hinner, innerByte_stores hcount, State.storeBody]
  simp only [inBody, Memory.write_ofBytes_end, List.length_append, List.length_singleton]

/-- The frame's last byte ends the attempt (R199 to R202). -/
theorem step_inBody_last {held : Bytes} (hn : held.length < 260) :
    step (inBody s held (held.length + 1) (b :: rest) (.byteFirst :: ts))
      = .next (ended s (held ++ [b]) (held.length + 1) (endResult held b) rest ts) := by
  have hturn := byteTurn_scheduled (s := inBody s held (held.length + 1) (b :: rest) (.byteFirst :: ts)) hc hf nofun
    rfl rfl
  have hcount : held.length < 261 := by omega
  by_cases hb : b = endMarkByte
  · subst hb
    have hheld : ∀ j, j < held.length → (Memory.ofBytes held).read j = (held ++ [endMarkByte])[j]? := fun j hj => by
      rw [Memory.read_ofBytes, List.getElem?_append_left hj]
    have hend := exec_endMark_run (s := inBody s held (held.length + 1) rest ts) hc hf rfl rfl hcount (by simp [inBody])
      hheld (by simp [inBody, endMarkByte])
    rw [step_endMark hturn rfl rfl, endResult, if_pos rfl]
    refine hend.trans (congrArg _ ?_)
    simp only [State.endAttempt, State.storeBody, inBody, ended, Memory.write_ofBytes_end, List.length_append,
      List.length_singleton]
  · rw [step_malformed hturn rfl rfl hb hcount, endResult, if_neg hb]
    simp only [State.endAttempt, State.storeBody, inBody, ended, Memory.write_ofBytes_end, List.length_append,
      List.length_singleton]

/-- The body bytes before the last, one step each. -/
theorem run_inBody {held bs : Bytes} {n : Nat} (hn : n ≤ 260) (hlt : held.length + bs.length < n) :
    Host.Core.run core bs.length (inBody s held n (bs ++ rest) (List.replicate bs.length .byteFirst ++ ts))
      = .next (inBody s (held ++ bs) n rest ts) := by
  induction bs generalizing held with
  | nil => rw [List.append_nil]; rfl
  | cons b bs ih =>
    rw [List.length_cons] at hlt
    have hothers := ih (held := held ++ [b]) (by simp; omega)
    rw [List.append_assoc, List.singleton_append] at hothers
    exact run_next (step_inBody hc hf hn (by omega)) hothers

/-- A candidate with start byte 0x02 takes its declared length and ends there, whatever its bytes are (R84). -/
theorem run_candidate {len e : Byte} {body : Bytes} (hbody : body.length = len.toNat + 2) :
    Host.Core.run core (len.toNat + 4)
        (inHeader s 0x02 (len :: body ++ e :: rest) (List.replicate (len.toNat + 4) .byteFirst ++ ts))
      = .next (ended s (0x02 :: len :: body ++ [e]) (len.toNat + 5) (endResult (0x02 :: len :: body) e) rest ts) := by
  have hlen := len.isLt
  have hheld : (0x02 :: len :: body : Bytes).length + 1 = len.toNat + 5 := by simp [hbody]
  have hlast := step_inBody_last (s := s) (b := e) (rest := rest) (ts := ts) hc hf (held := 0x02 :: len :: body)
    (by omega)
  rw [hheld] at hlast
  have hmiddle := run_inBody (s := s) (held := [0x02, len]) (bs := body) (n := len.toNat + 5) (rest := e :: rest)
    (ts := .byteFirst :: ts) hc hf (by omega) (by simp [hbody]; omega)
  have hfirst := step_inHeader_short (s := s) (b := len) (rest := body ++ e :: rest)
    (ts := List.replicate body.length .byteFirst ++ .byteFirst :: ts) hc hf
  have hend : Host.Core.run core 0 (ended s (0x02 :: len :: body ++ [e]) (len.toNat + 5)
      (endResult (0x02 :: len :: body) e) rest ts) = .next _ := rfl
  have hrun := run_next hfirst (run_add hmiddle (run_next hlast hend))
  have hturns : List.replicate (len.toNat + 4) Turn.byteFirst ++ ts
      = .byteFirst :: (List.replicate body.length .byteFirst ++ .byteFirst :: ts) := by
    rw [hbody, List.replicate_succ, List.cons_append, List.replicate_succ', List.append_assoc]
    rfl
  rw [hturns]
  rw [hbody] at hrun ⊢
  exact hrun

/-! ### The garbage before a frame -/

/-- Hunting ends at the first 0x02 (R204). -/
theorem run_inHunt {g : Bytes} (hg : ∀ b ∈ g, b ≠ 0x02) :
    Host.Core.run core (g.length + 1)
        (inHunt s (g ++ 0x02 :: rest) (List.replicate (g.length + 1) .byteFirst ++ ts))
      = .next (inHeader s 0x02 rest ts) := by
  induction g with
  | nil => exact run_next (step_inHunt_start hc hf) rfl
  | cons b g ih =>
    obtain ⟨hb, hothers⟩ := List.forall_mem_cons.1 hg
    exact run_next (step_inHunt_skip hc hf hb) (ih hothers)

end

/-- What an attempt that skipped `g` has reported: its first byte, if there is one. -/
def skipped (s : State) (g : Bytes) : State :=
  { s with
    rxDiag := ⟨g.head?.any (· != 0x03), g.head?.any (· == 0x03)⟩
    diagq := sent s (g.head?.map rejectEvent).toList }

theorem skipped_nil (h : s.rxDiag = ⟨false, false⟩) : skipped s [] = s := by
  have hnone : sent s [] = s.diagq := by rw [sent, List.append_nil, ite_self]
  have hbits : s = { s with rxDiag := ⟨false, false⟩ } := by rw [← h]
  rw [hbits, skipped]
  exact congrArg (fun q => { s with rxDiag := ⟨false, false⟩, diagq := q }) hnone

theorem skipped_cons (a : Byte) (g : Bytes) : skipped s (a :: g) = reported s a := rfl

/-- From an attempt's start to the first 0x02, which becomes the candidate's start byte (R211). -/
theorem run_garbage {g : Bytes} (h : FreshAttempt s) (hg : ∀ b ∈ g, b ≠ 0x02) (hinq : s.inq = g ++ 0x02 :: rest)
    (hsched : s.schedule = List.replicate (g.length + 1) .byteFirst ++ ts) :
    Host.Core.run core (g.length + 1) s = .next (inHeader (skipped s g) 0x02 rest ts) := by
  obtain ⟨hc, hf, -, -, -, -, hdiag⟩ := id h
  match g with
  | [] =>
    rw [skipped_nil hdiag]
    exact run_next (step_fresh h hinq hsched) rfl
  | [a] =>
    have hreject := step_inHeader_reject (b := 0x02) (rest := rest) (ts := ts) hc hf (hg a List.mem_cons_self) hdiag
    exact run_next (step_fresh h hinq hsched) (run_next hreject rfl)
  | a :: b :: g =>
    obtain ⟨ha, hb, hothers⟩ : a ≠ 0x02 ∧ b ≠ 0x02 ∧ ∀ c ∈ g, c ≠ 0x02 := by simpa using hg
    have hreject := step_inHeader_reject (b := b) (rest := g ++ 0x02 :: rest)
      (ts := List.replicate (g.length + 1) .byteFirst ++ ts) hc hf ha hdiag
    rw [if_neg hb] at hreject
    exact run_next (step_fresh h hinq hsched) (run_next hreject (run_inHunt (s := reported s a) hc hf hothers))

/-! ### How a candidate ends -/

theorem envelopeOk_candidate {len : Byte} {body : Bytes} (hbody : body.length = len.toNat + 2) :
    envelopeOk (0x02 :: len :: body ++ [endMarkByte]) = true := by
  have hlen := len.isLt
  have hlength : (0x02 :: len :: body ++ [endMarkByte] : Bytes).length = len.toNat + 5 := by simp [hbody]
  have hlast : (0x02 :: len :: body ++ [endMarkByte] : Bytes)[len.toNat + 5 - 1]? = some 0x03 := by
    rw [show len.toNat + 5 - 1 = (0x02 :: len :: body : Bytes).length by simp [hbody], List.getElem?_concat_length]
    rfl
  rw [envelopeOk_iff, Envelope, hlength]
  exact ⟨by omega, by omega, rfl, ⟨len, rfl, by omega⟩, hlast⟩

theorem unpack_ne_malformed {raw : Bytes} (h : envelopeOk raw = true) : (unpack raw).1 ≠ .malformedFrame := by
  rcases unpack_cases raw with ⟨hbad, -⟩ | ⟨-, -, hres⟩ | ⟨-, -, hres⟩
  · exact absurd (h.symm.trans hbad) nofun
  · simp [hres]
  · simp [hres]

end

/-- Settles O35: a pending byte is one byte step, which the step's cases bound; the deadline ends the attempt. -/
theorem attemptFrame : Obligations.AttemptFrame := by
  intro s t ts hattempt hturn hpending hstep
  rcases step_pending hattempt hturn hpending with ⟨b, rest, n, hinq, hbyte⟩ | ⟨n, hend⟩
  · have hrx := rxByteStep_cases (hbyte.symm.trans hstep)
    have hframe := rxStep_frame hrx
    have hrest : t.inq = rest := congrArg State.inq hframe
    have hidx : t.freeIdx = n := congrArg State.freeIdx hframe
    refine ⟨?_, .inr ⟨b, hrest ▸ hinq⟩, rxStep_diagq (s := { s.turned ts n with inq := rest }) hrx,
      rxStep_results (s := { s.turned ts n with inq := rest }) hrx⟩
    rw [hrest, hidx]
    exact hframe
  · cases hend.symm.trans hstep
    exact ⟨rfl, .inl rfl, ⟨[], (List.append_nil _).symm⟩, fun h => absurd rfl h⟩

/-- Settles O31: every quiet turn keeps `Unfed`, and the block's turn at or past the deadline ends the attempt. -/
theorem emptyStreamTimesOut : Obligations.EmptyStreamTimesOut := by
  intro s ts ⟨hc, hf, hidle, _, _, _, hdiag⟩ hinq hhost hresult hsched hquiet
  have hunfed : Unfed (s.t0 + s.cfg.rxDeadline) s := ⟨hc, hf, hinq, hhost, hdiag, rfl, .inl ⟨hidle, hresult⟩⟩
  obtain ⟨t, hrun, ht, -, -⟩ := unfed_run (later := []) hunfed (by rw [hsched, List.append_nil]) hquiet
  refine ⟨t, hrun, ht.noDiag, ht.noByte, ht.phase, fun pre post turn u hts hturn hpre hpassed => ?_⟩
  subst hts
  obtain ⟨hs, hres, -⟩ := unfed_run_times_out hunfed hsched hquiet hturn hpre hpassed hrun
  exact ⟨hs, hres⟩

/-- Settles O33: the first byte starts the candidate, and the run of its remaining bytes ends it. -/
theorem candidateEndsAtDeclaredLength : Obligations.CandidateEndsAtDeclaredLength := by
  intro s len body rest e ts hfresh hbody hinq hsched
  obtain ⟨hc, hf, -⟩ := id hfresh
  have hlength : (0x02 :: len :: body ++ [e] : Bytes).length = len.toNat + 5 := by simp [hbody]
  have hinq' : s.inq = 0x02 :: (len :: body ++ e :: rest) := by simp [hinq]
  have hrun := run_next (step_fresh hfresh hinq' hsched) (run_candidate hc hf hbody)
  refine ⟨_, (endResult (0x02 :: len :: body) e).1, (endResult (0x02 :: len :: body) e).2, hrun, fun he => ?_,
    fun he => ?_, fun a => Memory.read_ofBytes _ a, ?_⟩
  · have hend : endResult (0x02 :: len :: body) e = (.malformedFrame, none) := if_neg he
    rw [hend]
    exact ⟨rfl, rfl⟩
  · subst he
    exact ⟨unpacks_unpack _, unpack_ne_malformed (envelopeOk_candidate hbody)⟩
  · rw [← hlength]
    rfl

/-- Settles O32: the garbage is skipped, then the frame is a candidate that ends at its declared length, and UNPACK of
it gives the payload. -/
theorem receivesFrameAfterGarbage : Obligations.ReceivesFrameAfterGarbage := by
  intro s g p rest ts hfresh hg hp hinq hsched
  obtain ⟨hc, hf, -⟩ := id hfresh
  let len : Byte := BitVec.ofNat 8 p.length
  let body : Bytes := p ++ [BitVec.ofNat 8 (crcBytes p / 256), BitVec.ofNat 8 (crcBytes p % 256)]
  have hlen : len.toNat = p.length := by
    rw [BitVec.toNat_ofNat]
    omega
  have hbody : body.length = len.toNat + 2 := by rw [hlen, List.length_append]; rfl
  have hwire : wireFrame p = 0x02 :: len :: body ++ [endMarkByte] := by simp [wireFrame, len, body, endMarkByte]
  have hresult : endResult (0x02 :: len :: body) endMarkByte = (.ok, some p) := by
    rw [endResult, if_pos rfl, ← hwire, ← frame_eq_wireFrame, unpack_frame_of_length hp]
  have hlength : (0x02 :: len :: body ++ [endMarkByte] : Bytes).length = p.length + 5 := by simp [hbody, hlen]
  have hinq' : s.inq = g ++ 0x02 :: (len :: body ++ endMarkByte :: rest) := by simp [hinq, hwire]
  have hsched' : s.schedule
      = List.replicate (g.length + 1) .byteFirst ++ (List.replicate (len.toNat + 4) .byteFirst ++ ts) := by
    rw [hsched, ← List.append_assoc, List.replicate_append_replicate, hlen]
    congr 2
    omega
  have hrun := run_add (run_garbage hfresh hg hinq' hsched') (run_candidate (s := skipped s g) hc hf hbody)
  rw [hresult, hlen, show g.length + 1 + (p.length + 4) = g.length + p.length + 5 by omega] at hrun
  refine ⟨_, hrun, fun a => ?_, ?_⟩
  · rw [hwire]
    exact Memory.read_ofBytes _ a
  · rw [← hlength]
    rfl

end Sys2Proof.Claims
